-- ==== Sys2Proof/Word.lean ====
section
/-! DEFINITION. The word types of the block (`00_scope.md` R9, R13): bytes, nibbles, six-bit values, cycle counts.
Counts, lengths, cursors and head positions are natural numbers. -/

namespace Sys2Proof

/-- A `u8` of R9. -/
abbrev Byte := BitVec 8

/-- "a byte with bit 7 set; the unit transferred across a Disk II read/write head" (R14, R92). The type is a byte;
that bit 7 is set is the predicate `isNibble`. -/
abbrev Nibble := BitVec 8

/-- A six-bit value 0..63 of the 6-and-2 intermediate form (R96). -/
abbrev SixBit := BitVec 6

/-- A `u64` CPU cycle count (R23, R337). -/
abbrev Cycle := BitVec 64

/-- Bit 7 is set (R92). -/
abbrev isNibble (b : Byte) : Prop := b.getLsbD 7 = true

end Sys2Proof
end

