-- ==== Sys2Proof/Config.lean ====
section
/-! DEFINITION. What is fixed for one machine and is not state (`10_state.md` R33): the literals of the source
(`00_scope.md` R6) and the three OPEN parameters (R7, `92_eei_decisions.md`), which have no body here, so that no proof
can see a value of them (notes/assumptions/6.md). -/

namespace Sys2Proof

/-! ### Literals of the source (R6) -/

/-- `DSK_TRACKS` (R6). -/
abbrev Config.dskTracks : Nat := 35
/-- `DSK_SECTORS` (R6). -/
abbrev Config.dskSectors : Nat := 16
/-- `SECTOR_BYTES`, and `SIXTWO_IN` (R6). -/
abbrev Config.sectorBytes : Nat := 256
/-- `DSK_FILE_BYTES` (R6). -/
abbrev Config.dskFileBytes : Nat := 143360
/-- `WOZ_QT_SLOTS` (R6). -/
abbrev Config.wozSlots : Nat := 160
/-- `SIXTWO_OUT` (R6). -/
abbrev Config.sixTwoOut : Nat := 343
/-- `NIB_RATE_CYCLES` (R6). -/
abbrev Config.nibRateCycles : Nat := 3074
/-- `NIB_RATE_NIBBLES` (R6). -/
abbrev Config.nibRateNibbles : Nat := 100
/-- `NIBBLES_PER_TRACK`, and `DSK_TRACK_NIBBLES` of D13 (R6, R7). -/
abbrev Config.trackNibbles : Nat := 6656
/-- `MOTOR_OFF_DELAY` (R6). -/
abbrev Config.motorOffDelay : Nat := 1023000
/-- `WOZ_TRACKS`, decision D7 (R7). -/
abbrev Config.wozTracks : Nat := 40
/-- `AUX_LEN` (R6). -/
abbrev Config.auxLen : Nat := 86
/-- `NOT_READY`, the not-ready sentinel (R6). -/
abbrev Config.notReady : Byte := 0x00
/-- `WOZ_BLOCK` (R6). -/
abbrev Config.wozBlock : Nat := 512

/-! ### OPEN parameters (R7, D21, D35): any value in proofs -/

/-- `SLOT - 1`, for the OPEN parameter `SLOT` in 1..7 (R7, D35). FREE VALUE, notes/assumptions/6.md. -/
opaque Config.slotIndex : Fin 7

/-- `SLOT`, in 1..7 (R7, R61). -/
def Config.slot : Nat := Config.slotIndex.val + 1

/-- The OPEN parameter `BOOT_ROM`, 256 bytes (R62, R309, D35). FREE VALUE, notes/assumptions/6.md. -/
opaque Config.bootRom : BitVec 8 → Byte

/-- `MAX_NIBBLE_SHIFT_BITS - 8`: the OPEN parameter is at least 8 (R213, D21). FREE VALUE, notes/assumptions/6.md. -/
opaque Config.shiftBitsAboveEight : Nat

/-- `MAX_NIBBLE_SHIFT_BITS` (R213). The spec's default is 64; no value is fixed here. -/
def Config.maxNibbleShiftBits : Nat := Config.shiftBitsAboveEight + 8

end Sys2Proof
end

