-- ==== Sys2Proof/Syntax.lean ====
section
/-! DEFINITION. The operations of the block as syntax: one constructor of `Instr` per row of
spec/opcode_table.json (`30_encoding.md` R113), with the operands the operation's own rule names; the requests by which
the bus and the host ask for them; and the names under which a request is rejected. -/

namespace Sys2Proof

/-- A drive slot index, 0 or 1 (R24): "more than two drives" is a non-goal. -/
inductive DriveId where
  /-- `drive[0]`, drive 1 -/
  | drive1
  /-- `drive[1]`, drive 2 -/
  | drive2
  deriving DecidableEq, Repr

/-- Whether a bus access is `BusRead` or `BusWrite` with its data byte (R90, R261). -/
inductive Access where
  | read
  | write (v : Byte)
  deriving DecidableEq, Repr

/-- The sector order of a sector image (R25, R171). -/
inductive SectorOrder where
  | dos
  | prodos
  deriving DecidableEq, Repr

/-- The `format` argument of insertDisk (R303). -/
inductive DiskFormat where
  | dskDos
  | dskProdos
  | woz
  deriving DecidableEq, Repr

/-- One operation of the block, one constructor per row of the operation map (R113). The first sixteen are the soft
switches (R263 to R278); an operation on an image takes the drive that owns it (notes/assumptions/8.md). -/
inductive Instr where
  | phase0Off (a : Access)
  | phase0On (a : Access)
  | phase1Off (a : Access)
  | phase1On (a : Access)
  | phase2Off (a : Access)
  | phase2On (a : Access)
  | phase3Off (a : Access)
  | phase3On (a : Access)
  | motorOff (a : Access)
  | motorOn (a : Access)
  | drive1Sel (a : Access)
  | drive2Sel (a : Access)
  | q6l (a : Access)
  | q6h (a : Access)
  | q7l (a : Access)
  | q7h (a : Access)
  | encode4and4 (v : Byte)
  | encode6and2 (data : List Byte)
  | buildAddressField (volume track sector : Byte)
  | buildSector (volume track sector : Byte) (data : List Byte)
  | decode4and4 (odd even : Byte)
  | decode6and2 (n : List Byte)
  | decodeAddressField (buf : List Byte) (i : Nat)
  | findDataField (buf : List Byte) (j0 : Nat)
  | decodeSectorAt (buf : List Byte) (i : Nat)
  | loadDsk (file : List Byte) (order : SectorOrder)
  | nibblizeTrack (k : DriveId) (t : Nat)
  | materializeTrack (k : DriveId) (t : Nat)
  | denibblizeTrack (k : DriveId) (t : Nat)
  | flush (k : DriveId)
  | loadWoz (file : List Byte)
  | readBit (k : DriveId)
  | readNibbleWoz (k : DriveId)
  | getTrackBitCount (k : DriveId) (q : Nat)
  | advanceBitPosition (k : DriveId) (elapsed : Cycle)
  | readNibble (k : DriveId)
  | writeNibble (k : DriveId) (v : Byte)
  | setPhase (k : DriveId) (mask : BitVec 4)
  | getQuarterTrack (k : DriveId)
  | getters (k : DriveId) (q : Nat)
  | powerCycle
  | softReset
  | setCycleCount (c : Cycle)
  | insertDisk (k : DriveId) (file : List Byte) (format : DiskFormat) (wp : Bool)
  | ejectDisk (k : DriveId)
  | save (k : DriveId)
  | observe
  | romRead (a : BitVec 16)
  deriving DecidableEq, Repr

/-- The interface a request comes in by: "What distinguishes callers is not a mode but the interface they use" (R336). The
bus words of R90 and the codes of R113 overlap at 0x10..0x13, so the interface is part of the request
(notes/assumptions/2.md). -/
inductive Port where
  /-- "the bus reaches `BusRead`, `BusWrite` and `romRead` only" -/
  | bus
  /-- "the host reaches the operations of `46_host_ops.md` and the two resets" -/
  | host
  /-- the codec and the drive operations, "called only by the rules that name them": no agent's interface -/
  | internal
  deriving DecidableEq, Repr

/-- One request to the block: the interface and the bytes delivered on it (R90, R112, R113;
notes/assumptions/2.md, 3.md). -/
structure Request where
  port  : Port
  bytes : List Byte
  deriving DecidableEq, Repr

/-- Why a request is no operation of the block. Raised by `decode` and `decodeAgent`; safe: the block has no transition for such a
request (`93_implementation_defined.md` U26). -/
inductive DecodeError where
  /-- a request of no bytes -/
  | emptyRequest
  /-- an internal operation asked for by an agent (R336) -/
  | internalOnly
  /-- a unit code that belongs to another interface than the request's (R336) -/
  | otherInterface
  /-- on the bus, neither a word of the five bits of R90 nor the code of romRead -/
  | notABusWord
  /-- a bus write without its data byte (R90) -/
  | missingDataByte
  /-- a unit code that R113 does not list -/
  | unknownCode
  /-- fewer operand bytes than the operation takes -/
  | truncatedOperands
  /-- more bytes than the operation takes -/
  | trailingBytes
  /-- a drive index other than 0 or 1 (U26) -/
  | badDrive
  /-- a track number above 34 (U26) -/
  | badTrack
  /-- a quarter-track above 159 -/
  | badQuarterTrack
  /-- a sector order, disk format, flag or magnet mask outside its range -/
  | badSelector
  deriving DecidableEq, Repr

end Sys2Proof
end

