-- ==== Sys2Proof/WellFormed.lean ====
section
/-! DEFINITION. The argument types of the operations that `Syntax` leaves wider than the rules do
(`93_implementation_defined.md` U26): lengths of byte lists, track and quarter-track numbers, and the bounds the
operand layout can carry (notes/assumptions/3.md). -/

namespace Sys2Proof

/-- A file whose length its four-byte length field can carry. -/
def fileFits (file : List Byte) : Bool := decide (file.length < 2 ^ 32)

/-- A circular list has at least one element (`g` of `41_gcr_decoder.md` divides by its length), and its length fits
its two-byte field. -/
def bufferFits (buf : List Byte) : Bool := decide (0 < buf.length) && decide (buf.length ≤ 2 ^ 16)

/-- The operation's arguments are of the types its own rule states. -/
def Instr.wellFormed : Instr → Bool
  | .phase0Off _ => true
  | .phase0On _ => true
  | .phase1Off _ => true
  | .phase1On _ => true
  | .phase2Off _ => true
  | .phase2On _ => true
  | .phase3Off _ => true
  | .phase3On _ => true
  | .motorOff _ => true
  | .motorOn _ => true
  | .drive1Sel _ => true
  | .drive2Sel _ => true
  | .q6l _ => true
  | .q6h _ => true
  | .q7l _ => true
  | .q7h _ => true
  | .encode4and4 _ => true
  | .encode6and2 data => decide (data.length = Config.sectorBytes)
  | .buildAddressField _ _ _ => true
  | .buildSector _ _ _ data => decide (data.length = Config.sectorBytes)
  | .decode4and4 _ _ => true
  | .decode6and2 n => decide (n.length = Config.sixTwoOut)
  | .decodeAddressField buf i => bufferFits buf && decide (i < 2 ^ 32)
  | .findDataField buf j0 => bufferFits buf && decide (j0 < 2 ^ 32)
  | .decodeSectorAt buf i => bufferFits buf && decide (i < 2 ^ 32)
  | .loadDsk file _ => fileFits file
  | .nibblizeTrack _ t => decide (t < Config.dskTracks)
  | .materializeTrack _ t => decide (t < Config.dskTracks)
  | .denibblizeTrack _ t => decide (t < Config.dskTracks)
  | .flush _ => true
  | .loadWoz file => fileFits file
  | .readBit _ => true
  | .readNibbleWoz _ => true
  | .getTrackBitCount _ q => decide (q < Config.wozSlots)
  | .advanceBitPosition _ _ => true
  | .readNibble _ => true
  | .writeNibble _ _ => true
  | .setPhase _ _ => true
  | .getQuarterTrack _ => true
  | .getters _ q => decide (q < Config.wozSlots)
  | .powerCycle => true
  | .softReset => true
  | .setCycleCount _ => true
  | .insertDisk _ file _ _ => fileFits file
  | .ejectDisk _ => true
  | .save _ => true
  | .observe => true
  | .romRead _ => true

end Sys2Proof
end

