-- ==== Sys2Proof/Decode.lean ====
section
/-! DEFINITION. Requests to operations and back. A bus request is the five-bit word of `30_encoding.md` R90 in its
two-hex-digit form (R112), with a data byte if it is a write; every other request is the code `U` of R113, on the interface
that reaches its operation (R336), followed by operand bytes. The spec gives those bytes no layout: their widths, their order and the values that select a drive, an order, a
format or a flag are the model's choice (DESIGN CHOICE, notes/assumptions/3.md). `decode` is total and rejects by name;
`encode` is written from the same tables. -/

namespace Sys2Proof

/-! ### Operand bytes -/

/-- One byte, and the bytes after it. -/
def takeByte : List Byte → Except DecodeError (Byte × List Byte)
  | [] => .error .truncatedOperands
  | b :: r => .ok (b, r)

/-- The next `n` bytes. -/
def takeBytes (n : Nat) (bs : List Byte) : Except DecodeError ((List Byte) × List Byte) :=
  if n ≤ bs.length then .ok (bs.take n, bs.drop n) else .error .truncatedOperands

/-- The number whose little-endian bytes these are. -/
def bytesToNat : List Byte → Nat
  | [] => 0
  | b :: r => b.toNat + 256 * bytesToNat r

/-- The `k` little-endian bytes of a number. -/
def natToBytes : Nat → Nat → List Byte
  | 0, _ => []
  | k + 1, n => BitVec.ofNat 8 n :: natToBytes k (n / 256)

/-- A `k`-byte little-endian number. -/
def takeNat (k : Nat) (bs : List Byte) : Except DecodeError (Nat × List Byte) := do
  let (xs, r) ← takeBytes k bs
  return (bytesToNat xs, r)

/-- A file: a four-byte length, then that many bytes. -/
def takeFile (bs : List Byte) : Except DecodeError ((List Byte) × List Byte) := do
  let (n, r) ← takeNat 4 bs
  takeBytes n r

/-- A circular list: a two-byte length less one, then the bytes. -/
def takeBuffer (bs : List Byte) : Except DecodeError ((List Byte) × List Byte) := do
  let (n, r) ← takeNat 2 bs
  takeBytes (n + 1) r

/-- A drive index, 0 or 1 (R24, U26), in one byte (DESIGN CHOICE, notes/assumptions/3.md). -/
def takeDrive (bs : List Byte) : Except DecodeError (DriveId × List Byte) := do
  let (b, r) ← takeByte bs
  if b = 0 then return (.drive1, r) else if b = 1 then return (.drive2, r) else .error .badDrive

/-- A track number 0..34 (R173, U26). -/
def takeTrack (bs : List Byte) : Except DecodeError (Nat × List Byte) := do
  let (b, r) ← takeByte bs
  if b.toNat < Config.dskTracks then return (b.toNat, r) else .error .badTrack

/-- A quarter-track 0..159 (R210). -/
def takeQuarterTrack (bs : List Byte) : Except DecodeError (Nat × List Byte) := do
  let (b, r) ← takeByte bs
  if b.toNat < Config.wozSlots then return (b.toNat, r) else .error .badQuarterTrack

/-- A sector order of R170, which numbers none: 0 is DOS, 1 is PRODOS (DESIGN CHOICE, notes/assumptions/3.md). -/
def takeOrder (bs : List Byte) : Except DecodeError (SectorOrder × List Byte) := do
  let (b, r) ← takeByte bs
  if b = 0 then return (.dos, r) else if b = 1 then return (.prodos, r) else .error .badSelector

/-- A disk format of R303, which numbers none: 0 is DskDos, 1 is DskProdos, 2 is WOZ (DESIGN CHOICE,
notes/assumptions/3.md). -/
def takeFormat (bs : List Byte) : Except DecodeError (DiskFormat × List Byte) := do
  let (b, r) ← takeByte bs
  if b = 0 then return (.dskDos, r) else if b = 1 then return (.dskProdos, r)
  else if b = 2 then return (.woz, r) else .error .badSelector

/-- A flag, 0 or 1 (R9: "`bool` is `false`/`true`, written 0/1"). -/
def takeFlag (bs : List Byte) : Except DecodeError (Bool × List Byte) := do
  let (b, r) ← takeByte bs
  if b = 0 then return (false, r) else if b = 1 then return (true, r) else .error .badSelector

/-- A magnet mask, four bits (R101). -/
def takeMask (bs : List Byte) : Except DecodeError ((BitVec 4) × List Byte) := do
  let (b, r) ← takeByte bs
  if b.toNat < 16 then return (b.setWidth 4, r) else .error .badSelector

/-- The operation, if no byte is left over. -/
def complete (i : Instr) : List Byte → Except DecodeError Instr
  | [] => .ok i
  | _ :: _ => .error .trailingBytes

/-! ### The decoder -/

/-- The soft switch at an offset: the table of R91, in the order of the offsets. -/
def switchAt (off : BitVec 4) (a : Access) : Instr :=
  match off.toNat with
  | 0x0 => .phase0Off a
  | 0x1 => .phase0On a
  | 0x2 => .phase1Off a
  | 0x3 => .phase1On a
  | 0x4 => .phase2Off a
  | 0x5 => .phase2On a
  | 0x6 => .phase3Off a
  | 0x7 => .phase3On a
  | 0x8 => .motorOff a
  | 0x9 => .motorOn a
  | 0xA => .drive1Sel a
  | 0xB => .drive2Sel a
  | 0xC => .q6l a
  | 0xD => .q6h a
  | 0xE => .q7l a
  | _ => .q7h a

/-- An access to a soft switch: the word `{w, off[3:0]}`, and a data byte exactly when `w = 1` (R90). -/
def decodeSwitch (word : Byte) (rest : List Byte) : Except DecodeError Instr :=
  if word.getLsbD 4 then
    match rest with
    | [] => .error .missingDataByte
    | v :: r => complete (switchAt (word.setWidth 4) (.write v)) r
  else complete (switchAt (word.setWidth 4) .read) rest

/-- The interface that reaches the operation of a unit code (R336): of the codes of R113, romRead is the bus's, the other
host operations and the two resets are the host's, and the codec and the drive operations are internal. -/
def interfaceOf (code : Byte) : Port :=
  if code.toNat = 0x67 then .bus else if 0x60 ≤ code.toNat then .host else .internal

/-- A unit operation: the code table of R113, then operand bytes. The order of the operand bytes is the model's choice
(DESIGN CHOICE, notes/assumptions/3.md): that of the operation's own rule, except that an operand of variable length stands
last. So the index stands before the buffer in 22, 23 and 24 (R154 to R156 name the buffer first), the order before the
file in 30 (R170 names the file first), and the format and the flag before the file in 63 (R303 names the file first). -/
def decodeUnit (code : Byte) (ops : List Byte) : Except DecodeError Instr :=
  match code.toNat with
  | 0x10 => do
    let (v, r) ← takeByte ops
    complete (.encode4and4 v) r
  | 0x11 => do
    let (d, r) ← takeBytes Config.sectorBytes ops
    complete (.encode6and2 d) r
  | 0x12 => do
    let (v, r) ← takeByte ops
    let (t, r) ← takeByte r
    let (s, r) ← takeByte r
    complete (.buildAddressField v t s) r
  | 0x13 => do
    let (v, r) ← takeByte ops
    let (t, r) ← takeByte r
    let (s, r) ← takeByte r
    let (d, r) ← takeBytes Config.sectorBytes r
    complete (.buildSector v t s d) r
  | 0x20 => do
    let (o, r) ← takeByte ops
    let (e, r) ← takeByte r
    complete (.decode4and4 o e) r
  | 0x21 => do
    let (n, r) ← takeBytes Config.sixTwoOut ops
    complete (.decode6and2 n) r
  | 0x22 => do
    let (i, r) ← takeNat 4 ops
    let (b, r) ← takeBuffer r
    complete (.decodeAddressField b i) r
  | 0x23 => do
    let (j, r) ← takeNat 4 ops
    let (b, r) ← takeBuffer r
    complete (.findDataField b j) r
  | 0x24 => do
    let (i, r) ← takeNat 4 ops
    let (b, r) ← takeBuffer r
    complete (.decodeSectorAt b i) r
  | 0x30 => do
    let (o, r) ← takeOrder ops
    let (f, r) ← takeFile r
    complete (.loadDsk f o) r
  | 0x31 => do
    let (k, r) ← takeDrive ops
    let (t, r) ← takeTrack r
    complete (.nibblizeTrack k t) r
  | 0x32 => do
    let (k, r) ← takeDrive ops
    let (t, r) ← takeTrack r
    complete (.materializeTrack k t) r
  | 0x33 => do
    let (k, r) ← takeDrive ops
    let (t, r) ← takeTrack r
    complete (.denibblizeTrack k t) r
  | 0x34 => do
    let (k, r) ← takeDrive ops
    complete (.flush k) r
  | 0x40 => do
    let (f, r) ← takeFile ops
    complete (.loadWoz f) r
  | 0x41 => do
    let (k, r) ← takeDrive ops
    complete (.readBit k) r
  | 0x42 => do
    let (k, r) ← takeDrive ops
    complete (.readNibbleWoz k) r
  | 0x43 => do
    let (k, r) ← takeDrive ops
    let (q, r) ← takeQuarterTrack r
    complete (.getTrackBitCount k q) r
  | 0x50 => do
    let (k, r) ← takeDrive ops
    let (n, r) ← takeNat 8 r
    complete (.advanceBitPosition k (BitVec.ofNat 64 n)) r
  | 0x51 => do
    let (k, r) ← takeDrive ops
    complete (.readNibble k) r
  | 0x52 => do
    let (k, r) ← takeDrive ops
    let (v, r) ← takeByte r
    complete (.writeNibble k v) r
  | 0x53 => do
    let (k, r) ← takeDrive ops
    let (m, r) ← takeMask r
    complete (.setPhase k m) r
  | 0x54 => do
    let (k, r) ← takeDrive ops
    complete (.getQuarterTrack k) r
  | 0x55 => do
    let (k, r) ← takeDrive ops
    let (q, r) ← takeQuarterTrack r
    complete (.getters k q) r
  | 0x60 => complete .powerCycle ops
  | 0x61 => complete .softReset ops
  | 0x62 => do
    let (n, r) ← takeNat 8 ops
    complete (.setCycleCount (BitVec.ofNat 64 n)) r
  | 0x63 => do
    let (k, r) ← takeDrive ops
    let (fmt, r) ← takeFormat r
    let (wp, r) ← takeFlag r
    let (f, r) ← takeFile r
    complete (.insertDisk k f fmt wp) r
  | 0x64 => do
    let (k, r) ← takeDrive ops
    complete (.ejectDisk k) r
  | 0x65 => do
    let (k, r) ← takeDrive ops
    complete (.save k) r
  | 0x66 => complete .observe ops
  | 0x67 => do
    let (n, r) ← takeNat 2 ops
    complete (.romRead (BitVec.ofNat 16 n)) r
  | _ => .error .unknownCode

/-- What the bus asks for: a soft switch (R90) or a ROM read (R309). -/
def decodeBus (word : Byte) (rest : List Byte) : Except DecodeError Instr :=
  if word.toNat < 0x20 then decodeSwitch word rest
  else if interfaceOf word = .bus then decodeUnit word rest
  else .error .notABusWord

/-- The operation a request asks for, or why it asks for none: each interface reaches its own operations only (R336). -/
def decode (r : Request) : Except DecodeError Instr :=
  match r.bytes with
  | [] => .error .emptyRequest
  | code :: ops =>
    match r.port with
    | .bus => decodeBus code ops
    | .host => if interfaceOf code = .host then decodeUnit code ops else .error .otherInterface
    | .internal => if interfaceOf code = .internal then decodeUnit code ops else .error .otherInterface

/-- What an agent, the bus or the host, asks for (R8): never an internal operation (R336). -/
def decodeAgent (r : Request) : Except DecodeError Instr :=
  match r.port with
  | .bus => decode r
  | .host => decode r
  | .internal => .error .internalOnly

/-- The internal operation a call asks for (R336; notes/assumptions/24.md). -/
def decodeCall (bytes : List Byte) : Except DecodeError Instr := decode { port := .internal, bytes := bytes }

/-! ### The encoder -/

/-- The request of a bus access to offset `off` (R90, R112). -/
def busRequest (off : Byte) : Access → Request
  | .read => { port := .bus, bytes := [off] }
  | .write v => { port := .bus, bytes := [0x10 ||| off, v] }

/-- The request of the unit operation with code `code`, on the interface that reaches it (R336). -/
def unitRequest (code : Byte) (ops : List Byte) : Request :=
  { port := interfaceOf code, bytes := code :: ops }

/-- The byte of a drive index (R24, notes/assumptions/3.md). -/
def driveByte : DriveId → Byte
  | .drive1 => 0
  | .drive2 => 1

/-- The byte of a sector order; the spec numbers none (DESIGN CHOICE, notes/assumptions/3.md). -/
def orderByte : SectorOrder → Byte
  | .dos => 0
  | .prodos => 1

/-- The byte of a disk format; the spec numbers none (DESIGN CHOICE, notes/assumptions/3.md). -/
def formatByte : DiskFormat → Byte
  | .dskDos => 0
  | .dskProdos => 1
  | .woz => 2

/-- The byte of a flag (R9, notes/assumptions/3.md). -/
def flagByte (b : Bool) : Byte := if b then 1 else 0

/-- A file with its length in front. -/
def fileBytes (file : List Byte) : List Byte := natToBytes 4 file.length ++ file

/-- A circular list with its length less one in front. -/
def bufferBytes (buf : List Byte) : List Byte := natToBytes 2 (buf.length - 1) ++ buf

/-- The request that asks for an operation. The bus words are R90's and the codes R113's; the operand bytes, their order and
their selector values are those of `decodeUnit`, the model's choice (DESIGN CHOICE, notes/assumptions/3.md). -/
def encode : Instr → Request
  | .phase0Off a => busRequest 0x00 a
  | .phase0On a => busRequest 0x01 a
  | .phase1Off a => busRequest 0x02 a
  | .phase1On a => busRequest 0x03 a
  | .phase2Off a => busRequest 0x04 a
  | .phase2On a => busRequest 0x05 a
  | .phase3Off a => busRequest 0x06 a
  | .phase3On a => busRequest 0x07 a
  | .motorOff a => busRequest 0x08 a
  | .motorOn a => busRequest 0x09 a
  | .drive1Sel a => busRequest 0x0A a
  | .drive2Sel a => busRequest 0x0B a
  | .q6l a => busRequest 0x0C a
  | .q6h a => busRequest 0x0D a
  | .q7l a => busRequest 0x0E a
  | .q7h a => busRequest 0x0F a
  | .encode4and4 v => unitRequest 0x10 [v]
  | .encode6and2 data => unitRequest 0x11 data
  | .buildAddressField volume track sector => unitRequest 0x12 [volume, track, sector]
  | .buildSector volume track sector data => unitRequest 0x13 (volume :: track :: sector :: data)
  | .decode4and4 odd even => unitRequest 0x20 [odd, even]
  | .decode6and2 n => unitRequest 0x21 n
  | .decodeAddressField buf i => unitRequest 0x22 (natToBytes 4 i ++ bufferBytes buf)
  | .findDataField buf j0 => unitRequest 0x23 (natToBytes 4 j0 ++ bufferBytes buf)
  | .decodeSectorAt buf i => unitRequest 0x24 (natToBytes 4 i ++ bufferBytes buf)
  | .loadDsk file order => unitRequest 0x30 (orderByte order :: fileBytes file)
  | .nibblizeTrack k t => unitRequest 0x31 [driveByte k, BitVec.ofNat 8 t]
  | .materializeTrack k t => unitRequest 0x32 [driveByte k, BitVec.ofNat 8 t]
  | .denibblizeTrack k t => unitRequest 0x33 [driveByte k, BitVec.ofNat 8 t]
  | .flush k => unitRequest 0x34 [driveByte k]
  | .loadWoz file => unitRequest 0x40 (fileBytes file)
  | .readBit k => unitRequest 0x41 [driveByte k]
  | .readNibbleWoz k => unitRequest 0x42 [driveByte k]
  | .getTrackBitCount k q => unitRequest 0x43 [driveByte k, BitVec.ofNat 8 q]
  | .advanceBitPosition k elapsed => unitRequest 0x50 (driveByte k :: natToBytes 8 elapsed.toNat)
  | .readNibble k => unitRequest 0x51 [driveByte k]
  | .writeNibble k v => unitRequest 0x52 [driveByte k, v]
  | .setPhase k mask => unitRequest 0x53 [driveByte k, mask.setWidth 8]
  | .getQuarterTrack k => unitRequest 0x54 [driveByte k]
  | .getters k q => unitRequest 0x55 [driveByte k, BitVec.ofNat 8 q]
  | .powerCycle => unitRequest 0x60 []
  | .softReset => unitRequest 0x61 []
  | .setCycleCount c => unitRequest 0x62 (natToBytes 8 c.toNat)
  | .insertDisk k file format wp =>
    unitRequest 0x63 (driveByte k :: formatByte format :: flagByte wp :: fileBytes file)
  | .ejectDisk k => unitRequest 0x64 [driveByte k]
  | .save k => unitRequest 0x65 [driveByte k]
  | .observe => unitRequest 0x66 []
  | .romRead a => unitRequest 0x67 (natToBytes 2 a.toNat)

/-! ### Words of the opcode table -/

/-- How many operand bytes a unit operation takes when every operand byte is zero: a file of length 0, a circular
list of one element. -/
def zeroOperandBytes (code : Byte) : Nat :=
  match code.toNat with
  | 0x10 => 1
  | 0x11 => Config.sectorBytes
  | 0x12 => 3
  | 0x13 => 3 + Config.sectorBytes
  | 0x20 => 2
  | 0x21 => Config.sixTwoOut
  | 0x22 => 4 + 2 + 1
  | 0x23 => 4 + 2 + 1
  | 0x24 => 4 + 2 + 1
  | 0x30 => 1 + 4
  | 0x31 => 2
  | 0x32 => 2
  | 0x33 => 2
  | 0x34 => 1
  | 0x40 => 4
  | 0x41 => 1
  | 0x42 => 1
  | 0x43 => 2
  | 0x50 => 1 + 8
  | 0x51 => 1
  | 0x52 => 2
  | 0x53 => 2
  | 0x54 => 1
  | 0x55 => 2
  | 0x62 => 8
  | 0x63 => 3 + 4
  | 0x64 => 1
  | 0x65 => 1
  | 0x67 => 2
  | _ => 0

/-- The first byte of the word is a bus word: one that no row of the table of format UNIT8 has (R90, R113;
notes/assumptions/2.md). -/
def isBusTableWord (nbits : Nat) (first : Byte) : Bool :=
  decide (nbits < 8) || decide (first.toNat < 0x10) || (decide (0x14 ≤ first.toNat) && decide (first.toNat < 0x20))

/-- The request laid out from an opcode-table word, bit 0 the least significant bit of its first byte, later bytes
from higher bits, every bit the table does not give zero. -/
def tableRequest (nbits w : Nat) : Request :=
  let first := BitVec.ofNat 8 w
  if isBusTableWord nbits first then
    { port := .bus, bytes := if first.getLsbD 4 then [first, BitVec.ofNat 8 (w / 256)] else [first] }
  else unitRequest first (natToBytes (zeroOperandBytes first) (w / 256))

/-- The instruction the decoder reads from an opcode-table word (none where it refuses). -/
def decodeTableWord (nbits w : Nat) : Option Instr :=
  (decode (tableRequest nbits w)).toOption

end Sys2Proof
end

