-- ==== Sys2Proof/Machine/State.lean ====
section
/-! DEFINITION. The state of the block (`10_state.md` R20 to R26, R34), plain data throughout; what an operation answers
(the result and the failure codes of `60_exceptions.md` R320); and the reasons a step can stop. -/

namespace Sys2Proof.Machine

/-- A byte store addressed from 0: the listed cells, addresses strictly rising, none listed with the value an unlisted
address reads as (`Memory.unlisted`; notes/assumptions/13.md). It is the `SECTORS` space of `20_memory.md` R60. -/
abbrev Memory := List Host.Cell

/-- A sector image, file kinds DSK, DO and PO (R25). -/
structure Dsk where
  order   : SectorOrder
  /-- `SECTORS(img)`: 143,360 bytes, byte `b` of logical sector `l` of track `t` at `(t*16 + l)*256 + b` -/
  sectors : Memory
  /-- `cache[t]`, absent or the 6656 nibbles of `TRACKBUF(img, t)` -/
  cache   : Vector (Option (List Nibble)) 35
  /-- `dirty[t]` -/
  dirty   : Vector Bool 35
  volume  : Byte
  deriving DecidableEq, Repr

/-- The version of a WOZ file (R26). -/
inductive WozVersion where
  | woz1
  | woz2
  deriving DecidableEq, Repr

/-- `trk[i]`: the number of valid bits and the bytes that hold them (R26): the `BITS` space of R60. -/
structure WozTrack where
  bitCount : Nat
  bytes    : List Byte
  deriving DecidableEq, Repr

/-- A bit-stream image (R26). -/
structure Woz where
  version            : WozVersion
  infoWriteProtected : Bool
  /-- `tmap[q]`, q in 0..159: a track-data index or 0xFF -/
  tmap               : Vector Byte 160
  /-- `trk`, one entry per track-data index `tmap` names, in order of first mention -/
  trk                : List (Byte × WozTrack)
  deriving DecidableEq, Repr

/-- A disk image, "polymorphic over variants {DSK/DO/PO sector image, WOZ1/WOZ2 bit-stream image}" (R2). -/
inductive DiskImage where
  | dsk (img : Dsk)
  | woz (img : Woz)
  deriving DecidableEq, Repr

/-- A drive slot, which "exclusively owns one optional DiskImage; write-protect flag; head position; nibble/bit cursor;
last-access cycle timestamp" (R24). -/
structure DriveSlot where
  image           : Option DiskImage
  writeProtect    : Bool
  quarterTrack    : Nat
  cursor          : Nat
  lastAccessCycle : Cycle
  deriving DecidableEq, Repr

/-- The failure codes of the table of R320, in its order. Codes 11 and 12 are "not even delivered as codes: 11 is a
data value, 12 is silence"; they are listed because the table lists them. -/
inductive FailureCode where
  | loadErrorBadSize
  | loadErrorBadSignature
  | loadErrorTruncatedChunk
  | loadErrorMissingChunk
  | loadErrorChunkTooSmall
  | loadErrorUnsupportedDiskType
  | loadErrorBadTrack
  | invalidNibble
  | checksumMismatch
  | noDataField
  | notReady
  | writeIgnored
  deriving DecidableEq, Repr

/-- The four failure classes of R320. -/
inductive FailureClass where
  | loadError
  | formatError
  | notReady
  | writeIgnored
  deriving DecidableEq, Repr

/-- What getFormat answers for an image (R248). -/
inductive ImageFormat where
  | dskDos
  | dskProdos
  | woz1
  | woz2
  deriving DecidableEq, Repr

/-- The record of observe (R308). -/
structure Observation where
  quarterTrack  : Nat
  track         : Nat
  selectedDrive : DriveId
  motor         : Bool
  phaseMask     : BitVec 4
  dataLatch     : Byte
  deriving DecidableEq, Repr

/-- The answers of the remaining getters of R248 for one drive and one quarter-track (notes/assumptions/14.md). -/
structure Metadata where
  isLoaded         : Bool
  format           : Option ImageFormat
  trackCount       : Nat
  hasQuarterTrack  : Bool
  trackBitCount    : Nat
  isWriteProtected : Bool
  deriving DecidableEq, Repr

/-- What an operation returned to the agent that called it (notes/assumptions/4.md). -/
inductive Result where
  /-- the operation returns nothing (a bus write, a flush, a reset, ...) -/
  | nothing
  /-- "none": there was no image of the kind the operation reads (U25; notes/assumptions/9.md) -/
  | absent
  /-- a byte: the value of a bus read (R261), of the slot ROM (R309), a nibble read, a decoded byte -/
  | byte (v : Byte)
  /-- a bit (R212) -/
  | bit (b : Bool)
  /-- a count or an index (R155, R214) -/
  | count (n : Nat)
  /-- a list of bytes or nibbles in stream order (R63) -/
  | bytes (bs : List Byte)
  /-- the pair of encode4and4 (R130) -/
  | nibblePair (odd even : Nibble)
  /-- the answer of decodeAddressField (R154) -/
  | addressField (volume track sector : Byte)
  /-- the answer of decodeSectorAt (R156) -/
  | sector (volume track sector : Byte) (data : List Byte)
  /-- the image a loader made (R170, R200) -/
  | image (img : DiskImage)
  /-- a copy of `image.sectors`: the 143,360 bytes save and ejectDisk return (R304, R306) -/
  | sectorFile (m : Memory)
  /-- quarter-track and track (R247) -/
  | position (quarterTrack track : Nat)
  | metadata (m : Metadata)
  | observation (o : Observation)
  /-- insertDisk succeeded (R303) -/
  | inserted
  /-- the pushed cycle count was taken (R301) -/
  | countTaken
  /-- the pushed cycle count was smaller and was refused, state unchanged (R301, R356) -/
  | countRefused
  /-- the operation failed with a code of R320 and changed nothing (R12) -/
  | failed (code : FailureCode)
  deriving DecidableEq, Repr

/-- What the block emits to the two optional callbacks (R342). -/
inductive LogEvent where
  /-- soft-switch access logging: bus address, is_write, value -/
  | access (address : Nat) (isWrite : Bool) (value : Byte)
  /-- nibble-read logging: the latched nibble, the track, the cursor after the fetch -/
  | nibbleRead (nibble : Nibble) (track : Nat) (position : Nat)
  deriving DecidableEq, Repr

/-- Why the machine stops with no next state. -/
inductive Fault where
  /-- `stuck`: an operation was performed on an argument outside its stated type, for which "the rules have no
  transition" (`93_implementation_defined.md` U26). Raised by the meanings whose operands `Instr.wellFormed` checks;
  safe (notes/assumptions/10.md). A decoded request never raises it. -/
  | argumentOutsideType
  deriving DecidableEq, Repr

/-- Why a step has no meaning. -/
inductive Refusal where
  /-- an operation that has no meaning in this model. Raised by `exec` only; safe. -/
  | notModelled (mnemonic : String)
  /-- the next request or call is no operation its interface reaches. Raised by `step` only; safe (U26). -/
  | undecodable (why : DecodeError)
  deriving DecidableEq, Repr

/-- The state of the block. The last four fields are the model's own (notes/assumptions/1.md, 24.md, 4.md, 5.md). -/
structure State where
  /-- R20 -/
  motorOn         : Bool
  /-- R20 -/
  selectedDrive   : DriveId
  /-- R20: 0 = shift, 1 = load -/
  q6              : Bool
  /-- R20: 0 = read, 1 = write -/
  q7              : Bool
  /-- R20 -/
  dataLatch       : Byte
  /-- R21: bit i = stepper magnet i energized -/
  phaseMask       : BitVec 4
  /-- R22 -/
  motorOffPending : Bool
  /-- R22: meaningful only while a stop is pending -/
  motorOffCycle   : Cycle
  /-- R23 -/
  cycleNow        : Cycle
  /-- R24: `drive[0]` -/
  driveSlot1      : DriveSlot
  /-- R24: `drive[1]` -/
  driveSlot2      : DriveSlot
  /-- the requests of the bus and the host not yet performed, in order (R69) -/
  pending         : List Request
  /-- the internal operations called and not yet performed (R336); no agent and no operation adds to it -/
  calls           : List (List Byte)
  /-- what the last operation returned -/
  result          : Result
  /-- what the last operation emitted to the callbacks, in order -/
  emitted         : List LogEvent
  deriving DecidableEq, Repr

/-- A drive slot after power-cycle (R34, R350). -/
def DriveSlot.powerUp : DriveSlot :=
  { image := none, writeProtect := false, quarterTrack := 0, cursor := 0, lastAccessCycle := 0 }

/-- The state after a true power-cycle (R34): "A model may take the state after `powerCycle()` as its initial state"
(R350); the model's own fields hold nothing (notes/assumptions/7.md). -/
def State.reset : State :=
  { motorOn := false
    selectedDrive := .drive1
    q6 := false
    q7 := false
    dataLatch := 0x00
    phaseMask := 0b0000
    motorOffPending := false
    motorOffCycle := 0
    cycleNow := 0
    driveSlot1 := DriveSlot.powerUp
    driveSlot2 := DriveSlot.powerUp
    pending := []
    calls := []
    result := .nothing
    emitted := [] }

end Sys2Proof.Machine
end

