-- ==== Sys2Proof/Machine/Ops.lean ====
section
/-! DEFINITION. The named operations over the byte store, the slots of a sector image, the drive slots and the answer of
an operation. Ending an operation (R12) is written once here: the block has no exceptions and no trap entry (R332); a
failure is an answer, and every other piece of state is as it was. -/

namespace Sys2Proof.Machine

/-! ### The byte store -/

/-- What an unlisted address reads as (notes/assumptions/13.md). -/
def Memory.unlisted : Byte := 0x00

/-- `MemRead(space, addr, 1)` (R60). -/
def Memory.read : Memory → Nat → Byte
  | [], _ => Memory.unlisted
  | (k, v) :: r, a => if k = a then v else Memory.read r a

/-- `MemWrite(space, addr, 1, v)` (R60). -/
def Memory.write : Memory → Nat → Byte → Memory
  | [], a, v => if v = Memory.unlisted then [] else [(a, v)]
  | (k, w) :: r, a, v =>
    if a < k then (if v = Memory.unlisted then (k, w) :: r else (a, v) :: (k, w) :: r)
    else if a = k then (if v = Memory.unlisted then r else (a, v) :: r)
    else (k, w) :: Memory.write r a v

/-- The store that holds these bytes from `base` on. -/
def Memory.ofBytes (base : Nat) (bs : List Byte) : Memory :=
  (bs.zipIdx base).filterMap fun c => if c.1 = Memory.unlisted then none else some (c.2, c.1)

/-- The store with these bytes written from `base` on. -/
def Memory.writeBytes (m : Memory) (base : Nat) (bs : List Byte) : Memory :=
  m.filter (fun c => decide (c.1 < base)) ++ Memory.ofBytes base bs ++
    m.filter (fun c => decide (base + bs.length ≤ c.1))

/-- The `n` bytes from `base` on. -/
def Memory.readBytes (m : Memory) (base n : Nat) : List Byte :=
  let near := m.filter fun c => decide (base ≤ c.1) && decide (c.1 < base + n)
  (List.range n).map fun i => Memory.read near (base + i)

/-- The canonical form: addresses strictly rising, no entry listed with the unlisted value. -/
abbrev Memory.wf (m : Memory) : Prop :=
  m.Pairwise (fun c d => c.1 < d.1) ∧ ∀ c ∈ m, c.2 ≠ Memory.unlisted

/-! ### The thirty-five track slots of a sector image (R25) -/

/-- `cache[t]`; absent outside 0..34 (notes/assumptions/16.md). -/
def Dsk.cacheAt (img : Dsk) (t : Nat) : Option (List Nibble) := (img.cache[t]?).getD none

/-- `cache[t] <- buf`. -/
def Dsk.setCache (img : Dsk) (t : Nat) (buf : List Nibble) : Dsk :=
  { img with cache := img.cache.setIfInBounds t (some buf) }

/-- `dirty[t]`; 0 outside 0..34. -/
def Dsk.dirtyAt (img : Dsk) (t : Nat) : Bool := (img.dirty[t]?).getD false

/-- `dirty[t] <- b`. -/
def Dsk.setDirty (img : Dsk) (t : Nat) (b : Bool) : Dsk :=
  { img with dirty := img.dirty.setIfInBounds t b }

/-! ### The drive slots (R24) -/

/-- `drive[k]`. -/
def State.drive (s : State) : DriveId → DriveSlot
  | .drive1 => s.driveSlot1
  | .drive2 => s.driveSlot2

/-- `drive[k] <- d`. -/
def State.setDrive (s : State) (k : DriveId) (d : DriveSlot) : State :=
  match k with
  | .drive1 => { s with driveSlot1 := d }
  | .drive2 => { s with driveSlot2 := d }

/-- `drive[selected_drive]`, the `d` of `45_controller.md`. -/
def State.selected (s : State) : DriveSlot := s.drive s.selectedDrive

/-- `drive[selected_drive] <- d`. -/
def State.setSelected (s : State) (d : DriveSlot) : State := s.setDrive s.selectedDrive d

/-! ### Ending an operation (R12, R332) -/

/-- The outcome type of every operation. -/
abbrev Outcome := Host.Outcome State Fault Refusal

/-- The state after an operation other than a bus access that returned `r`: nothing is emitted (R342 lists the bus
accesses and fetches as the only emissions). -/
def State.answered (s : State) (r : Result) : State := { s with result := r, emitted := [] }

/-- The operation ends and returns `r`. -/
def answer (r : Result) (s : State) : Outcome := .next (s.answered r)

/-- The operation ends with a failure code, or with what it found: `fail <Code>` "ends the operation, returns the named
code ... to the caller, and leaves every piece of state exactly as the rule says (by default unchanged since the start
of the operation)" (R12). -/
def answerOrFail {α : Type} (ok : α → Result) (r : Except FailureCode α) (s : State) : Outcome :=
  match r with
  | .ok a => answer (ok a) s
  | .error code => answer (.failed code) s

/-- An argument outside its stated type: `stuck` (U26). -/
def stuck : Outcome := .fault .argumentOutsideType

/-- The number of a failure code in the table of R320. -/
def failureNumber : FailureCode → Nat
  | .loadErrorBadSize => 1
  | .loadErrorBadSignature => 2
  | .loadErrorTruncatedChunk => 3
  | .loadErrorMissingChunk => 4
  | .loadErrorChunkTooSmall => 5
  | .loadErrorUnsupportedDiskType => 6
  | .loadErrorBadTrack => 7
  | .invalidNibble => 8
  | .checksumMismatch => 9
  | .noDataField => 10
  | .notReady => 11
  | .writeIgnored => 12

/-- The class of a failure code in the table of R320. -/
def failureClass : FailureCode → FailureClass
  | .loadErrorBadSize => .loadError
  | .loadErrorBadSignature => .loadError
  | .loadErrorTruncatedChunk => .loadError
  | .loadErrorMissingChunk => .loadError
  | .loadErrorChunkTooSmall => .loadError
  | .loadErrorUnsupportedDiskType => .loadError
  | .loadErrorBadTrack => .loadError
  | .invalidNibble => .formatError
  | .checksumMismatch => .formatError
  | .noDataField => .formatError
  | .notReady => .notReady
  | .writeIgnored => .writeIgnored

end Sys2Proof.Machine
end

