-- ==== Sys2Proof/Machine/Tables.lean ====
section
/-! DEFINITION. The tables and lengths the spec decides (`00_scope.md` R7): the translate table `T62` and its inverse,
the interleave tables, the magnet-to-position lookup, the gap lengths, the volume, the prologues and the epilogue. Those
the spec itself marks "from general knowledge, not in source" are listed in notes/assumptions/15.md. -/

namespace Sys2Proof.Machine

/-- `T62`, row-major (R97). -/
def t62 : List Nibble :=
  [0x96, 0x97, 0x9A, 0x9B, 0x9D, 0x9E, 0x9F, 0xA6] ++
  [0xA7, 0xAB, 0xAC, 0xAD, 0xAE, 0xAF, 0xB2, 0xB3] ++
  [0xB4, 0xB5, 0xB6, 0xB7, 0xB9, 0xBA, 0xBB, 0xBC] ++
  [0xBD, 0xBE, 0xBF, 0xCB, 0xCD, 0xCE, 0xCF, 0xD3] ++
  [0xD6, 0xD7, 0xD9, 0xDA, 0xDB, 0xDC, 0xDD, 0xDE] ++
  [0xDF, 0xE5, 0xE6, 0xE7, 0xE9, 0xEA, 0xEB, 0xEC] ++
  [0xED, 0xEE, 0xEF, 0xF2, 0xF3, 0xF4, 0xF5, 0xF6] ++
  [0xF7, 0xF9, 0xFA, 0xFB, 0xFC, 0xFD, 0xFE, 0xFF]

/-- `T62[x]` (R97). -/
def translate (x : SixBit) : Nibble := t62.getD x.toNat 0x96

/-- `REV62[b]`, none for an invalid nibble (R97). -/
def rev62 (b : Byte) : Option SixBit := (t62.idxOf? b).map (BitVec.ofNat 6)

/-- `DOS_ORDER` and `PRODOS_ORDER`, indexed by physical sector (R100). -/
def interleave : SectorOrder → List Nat
  | .dos => [0, 7, 14, 6, 13, 5, 12, 4] ++ [11, 3, 10, 2, 9, 1, 8, 15]
  | .prodos => [0, 8, 1, 9, 2, 10, 3, 11] ++ [4, 12, 5, 13, 6, 14, 7, 15]

/-- `ORDER[p]`: the logical sector at physical position `p` (R172). -/
def logicalSector (order : SectorOrder) (p : Nat) : Nat := (interleave order).getD p 0

/-- `MAGNET_TO_POSITION`: the rest position 0..7 of a magnet mask, none for an invalid combination (R101). -/
def magnetToPosition (mask : BitVec 4) : Option Nat :=
  match mask.toNat with
  | 0b0001 => some 0
  | 0b0011 => some 1
  | 0b0010 => some 2
  | 0b0110 => some 3
  | 0b0100 => some 4
  | 0b1100 => some 5
  | 0b1000 => some 6
  | 0b1001 => some 7
  | _ => none

/-- `GAP1` (R92, D13). -/
def gap1 : Nat := 20
/-- `GAP2` (R92, D13). -/
def gap2 : Nat := 6
/-- `GAP3` (R99, D13). -/
def gap3 : Nat := 27
/-- The sync byte of every gap and of the pad (R92, R99). -/
def syncByte : Nibble := 0xFF
/-- `VOLUME` of every sector image (D15). -/
def dskVolume : Byte := 254

/-- The first two nibbles of both prologues are `D5 AA`; the third of the address prologue (R6). -/
def addressMark : Nibble := 0x96
/-- The third nibble of the data prologue (R6). -/
def dataMark : Nibble := 0xAD
/-- `ADDR_PROLOGUE` (R6). -/
def addressPrologue : List Nibble := [0xD5, 0xAA, addressMark]
/-- `DATA_PROLOGUE` (R6). -/
def dataPrologue : List Nibble := [0xD5, 0xAA, dataMark]
/-- `EPILOGUE` (R6). -/
def epilogue : List Nibble := [0xDE, 0xAA, 0xEB]

end Sys2Proof.Machine
end

