-- ==== Sys2Proof/Machine/Operands.lean ====
section
/-! DEFINITION. How each operand the block computes with is assembled (`30_encoding.md` R109): circular indexing,
two-bit exchange, little-endian file fields, stream bits, bus addresses, elapsed time and positions. -/

namespace Sys2Proof.Machine

/-! ### Lists -/

/-- `g(buf, i) = buf[i mod len(buf)]` (`41_gcr_decoder.md`). -/
def circAt (buf : List Byte) (i : Nat) : Byte := buf.getD (i % buf.length) 0

/-- `[g(buf, i+k) for k in 0..n-1]`. -/
def circSlice (buf : List Byte) (i n : Nat) : List Byte := (List.range n).map fun k => circAt buf (i + k)

/-- `D5 AA m` starts at circular index `i`. -/
def prologueAt (buf : List Byte) (i : Nat) (m : Nibble) : Bool :=
  circAt buf i == 0xD5 && circAt buf (i + 1) == 0xAA && circAt buf (i + 2) == m

/-- `xs[i..j)` with `j = i + n` (R10). -/
def slice (xs : List Byte) (i n : Nat) : List Byte := (xs.drop i).take n

/-- Byte `o` of a file. -/
def byteAt (xs : List Byte) (o : Nat) : Byte := xs.getD o 0

/-- `LE16(xs, o)` (R10). -/
def le16 (xs : List Byte) (o : Nat) : Nat := (byteAt xs o).toNat + 256 * (byteAt xs (o + 1)).toNat

/-- `LE32(xs, o)` (R10). -/
def le32 (xs : List Byte) (o : Nat) : Nat := le16 xs o + 65536 * le16 xs (o + 2)

/-! ### Bits -/

/-- `swap2` exchanges the two bits of a two-bit value (R96). -/
def swap2 (x : BitVec 2) : BitVec 2 := ((x &&& 1) <<< 1) ||| ((x >>> 1) &&& 1)

/-- `d[1:0]` of a byte. -/
def lowTwo (d : Byte) : BitVec 2 := d.extractLsb' 0 2

/-- `d[7:2]` of a byte, six bits. -/
def topSix (d : Byte) : SixBit := d.extractLsb' 2 6

/-- `bitAt(bytes, i)`: bit `7 - (i mod 8)` of byte `i div 8` (R211). -/
def bitAt (bytes : List Byte) (i : Nat) : Bool := (byteAt bytes (i / 8)).getLsbD (7 - i % 8)

/-- The accumulator with one more bit shifted in, `((acc << 1) | b) & 0xFF` (R213). -/
def shiftIn (acc : Byte) (b : Bool) : Byte := (acc <<< 1) ||| (if b then 1 else 0)

/-- `phase_mask[n] <- b` (R263 to R270). -/
def setMagnet (mask : BitVec 4) (n : Nat) (b : Bool) : BitVec 4 :=
  if b then mask ||| (1#4 <<< n) else mask &&& ~~~(1#4 <<< n)

/-! ### Bus addresses -/

/-- The base of the `IO` window, `0xC080 + SLOT*16` (R61). -/
def ioBase : Nat := 0xC080 + Config.slot * 16

/-- The base of the `ROM` window, `0xC000 + SLOT*0x100` (R62). -/
def romBase : Nat := 0xC000 + Config.slot * 0x100

/-- The switch offset of a bus address, `a & 0xF` (R61). -/
def switchOffset (a : BitVec 16) : BitVec 4 := a.setWidth 4

/-- The ROM index of a bus address, `a & 0xFF` (R62). -/
def romIndex (a : BitVec 16) : BitVec 8 := a.setWidth 8

/-! ### Time and position -/

/-- `now - t` on cycle counts (R13; notes/assumptions/17.md). -/
def elapsedSince (now t : Cycle) : Nat := (now - t).toNat

/-- Whole nibble times in `elapsed` cycles, `(elapsed * 100) div 3074` in `nat` (R233). -/
def nibblesElapsed (elapsed : Nat) : Nat := elapsed * Config.nibRateNibbles / Config.nibRateCycles

/-- "track = quarter_track / 4" (R35, R68). -/
def trackOf (quarterTrack : Nat) : Nat := quarterTrack / 4

/-- The file offset of logical sector `l` of track `t`, `(t*16 + l)*256` (R172). -/
def sectorOffset (t l : Nat) : Nat := (t * Config.dskSectors + l) * Config.sectorBytes

/-- The signed head delta of R245 for the rotor at `quarterTrack mod 8` and the rest position `p`. -/
def headDelta (quarterTrack p : Nat) : Int :=
  let d := ((p : Int) - (quarterTrack % 8 : Nat)) % 8
  if d = 0 ∨ d = 4 then 0 else if d < 4 then d else d - 8

/-- `clamp(x, 0, hi)` as a natural number (R10). -/
def clampHead (x : Int) (hi : Nat) : Nat := if x < 0 then 0 else if x > hi then hi else x.toNat

end Sys2Proof.Machine
end

