-- ==== Sys2Proof/Machine/Decoder.lean ====
section
/-! DEFINITION. The GCR decoder (`41_gcr_decoder.md`): combinational; a failure is a result value. Field decoders read a
circular list. -/

namespace Sys2Proof.Machine

/-! ### The functions -/

/-- `decode4and4(odd, even) -> v`, total on all pairs (R150; notes/assumptions/12.md). -/
def decodePair (odd even : Byte) : Byte := ((odd <<< 1) ||| 1) &&& even

/-- The XOR chain undone: each value against the one recovered before it (R152). -/
def unchainFrom (prev : SixBit) : List SixBit → List SixBit
  | [] => []
  | r :: rest => (r ^^^ prev) :: unchainFrom (r ^^^ prev) rest

/-- Byte `i` of the 256 recombined from the 342 six-bit values (R152). -/
def recombine (buf : List SixBit) (i : Nat) : Byte :=
  let two := (buf.getD (i % Config.auxLen) 0).extractLsb' (2 * (i / Config.auxLen)) 2
  buf.getD (Config.auxLen + i) 0 ++ swap2 two

/-- `decode6and2(n) -> d` or failure: every nibble is looked up before the chain is undone (R152, R331). -/
def decodeData (n : List Byte) : Except FailureCode (List Byte) :=
  if n.all (fun b => (rev62 b).isSome) then
    let r := n.map fun b => (rev62 b).getD 0
    let buf := unchainFrom 0 (r.take (Config.sixTwoOut - 1))
    if r.getD (Config.sixTwoOut - 1) 0 = buf.getLastD 0 then
      .ok ((List.range Config.sectorBytes).map (recombine buf))
    else .error .checksumMismatch
  else .error .invalidNibble

/-- `decodeAddressField(buf, i) -> (volume, track, sector)` or failure (R154; notes/assumptions/11.md). -/
def decodeAddress (buf : List Byte) (i : Nat) : Except FailureCode (Byte × Byte × Byte) :=
  let volume := decodePair (circAt buf (i + 3)) (circAt buf (i + 4))
  let track := decodePair (circAt buf (i + 5)) (circAt buf (i + 6))
  let sector := decodePair (circAt buf (i + 7)) (circAt buf (i + 8))
  let chk := decodePair (circAt buf (i + 9)) (circAt buf (i + 10))
  if chk = volume ^^^ track ^^^ sector then .ok (volume, track, sector) else .error .checksumMismatch

/-- The search of R155 with `turns` start indices left to try. -/
def findDataFrom (buf : List Byte) : Nat → Nat → Except FailureCode Nat
  | 0, _ => .error .noDataField
  | turns + 1, j =>
    if prologueAt buf j addressMark then .error .noDataField
    else if prologueAt buf j dataMark then .ok j
    else findDataFrom buf turns (j + 1)

/-- `findDataField(buf, j0) -> j` or failure (R155). -/
def findData (buf : List Byte) (j0 : Nat) : Except FailureCode Nat := findDataFrom buf buf.length j0

/-- `decodeSectorAt(buf, i) -> (volume, track, sector, d)` or the first failure of its steps (R156). -/
def decodeSector (buf : List Byte) (i : Nat) : Except FailureCode (Byte × Byte × Byte × List Byte) :=
  match decodeAddress buf i with
  | .error e => .error e
  | .ok (volume, track, sector) =>
    match findData buf (i + 11) with
    | .error e => .error e
    | .ok j =>
      match decodeData (circSlice buf (j + 3) Config.sixTwoOut) with
      | .error e => .error e
      | .ok d => .ok (volume, track, sector, d)

/-! ### The meanings -/

/-- R150. -/
def execDecode4and4 (odd even : Byte) (s : State) : Outcome := answer (.byte (decodePair odd even)) s

/-- R152: 343 nibbles. -/
def execDecode6and2 (n : List Byte) (s : State) : Outcome :=
  if n.length = Config.sixTwoOut then answerOrFail .bytes (decodeData n) s else stuck

/-- R154: `buf` a circular list, so not empty. -/
def execDecodeAddressField (buf : List Byte) (i : Nat) (s : State) : Outcome :=
  if 0 < buf.length then answerOrFail (fun r => .addressField r.1 r.2.1 r.2.2) (decodeAddress buf i) s else stuck

/-- R155: `buf` a circular list, so not empty. -/
def execFindDataField (buf : List Byte) (j0 : Nat) (s : State) : Outcome :=
  if 0 < buf.length then answerOrFail .count (findData buf j0) s else stuck

/-- R156: `buf` a circular list, so not empty. -/
def execDecodeSectorAt (buf : List Byte) (i : Nat) (s : State) : Outcome :=
  if 0 < buf.length then
    answerOrFail (fun r => .sector r.1 r.2.1 r.2.2.1 r.2.2.2) (decodeSector buf i) s
  else stuck

end Sys2Proof.Machine
end

