-- ==== Sys2Proof/Machine/Encoder.lean ====
section
/-! DEFINITION. The GCR encoder (`40_gcr_encoder.md`): combinational, "Pure, stateless"; it reads no state, writes none
and cannot fail. -/

namespace Sys2Proof.Machine

/-! ### The functions -/

/-- `encode4and4(v) -> (odd, even)` (R130). -/
def encodePair (v : Byte) : Nibble × Nibble := (0xAA ||| ((v >>> 1) &&& 0x55), 0xAA ||| (v &&& 0x55))

/-- `aux[k]` (R96): byte k in bits 1:0, byte k+86 in bits 3:2, byte k+172, where there is one, in bits 5:4. -/
def auxValue (d : List Byte) (k : Nat) : SixBit :=
  let field (i : Nat) : BitVec 2 := if i < Config.sectorBytes then swap2 (lowTwo (byteAt d i)) else 0
  field (k + 172) ++ field (k + 86) ++ field k

/-- The 342 six-bit values of 256 bytes, auxiliary buffer first (R96). -/
def sixBitBuffer (d : List Byte) : List SixBit := (List.range Config.auxLen).map (auxValue d) ++ d.map topSix

/-- The XOR chain, each value against the one before it, and the final value as the checksum (R133). -/
def chainFrom (prev : SixBit) : List SixBit → List Nibble
  | [] => [translate prev]
  | b :: r => translate (b ^^^ prev) :: chainFrom b r

/-- `encode6and2(d) -> n` (R133). -/
def encodeData (d : List Byte) : List Nibble := chainFrom 0 (sixBitBuffer d)

/-- `buildAddressField(volume, track, sector)` (R135). -/
def addressField (volume track sector : Byte) : List Nibble :=
  addressPrologue ++
    [volume, track, sector, volume ^^^ track ^^^ sector].flatMap (fun x => [(encodePair x).1, (encodePair x).2]) ++
    epilogue

/-- `buildSector(volume, track, sector, data)` (R136). -/
def sectorNibbles (volume track sector : Byte) (data : List Byte) : List Nibble :=
  List.replicate gap1 syncByte ++ addressField volume track sector ++ List.replicate gap2 syncByte ++
    dataPrologue ++ encodeData data ++ epilogue

/-! ### The meanings -/

/-- R130. -/
def execEncode4and4 (v : Byte) (s : State) : Outcome :=
  answer (.nibblePair (encodePair v).1 (encodePair v).2) s

/-- R133: 256 bytes. -/
def execEncode6and2 (data : List Byte) (s : State) : Outcome :=
  if data.length = Config.sectorBytes then answer (.bytes (encodeData data)) s else stuck

/-- R135. -/
def execBuildAddressField (volume track sector : Byte) (s : State) : Outcome :=
  answer (.bytes (addressField volume track sector)) s

/-- R136: 256 bytes of data. -/
def execBuildSector (volume track sector : Byte) (data : List Byte) (s : State) : Outcome :=
  if data.length = Config.sectorBytes then answer (.bytes (sectorNibbles volume track sector data)) s else stuck

end Sys2Proof.Machine
end

