-- ==== Sys2Proof/Machine/TrackSynth.lean ====
section
/-! DEFINITION. The sector-image track synthesizer and denibblizer (`42_dsk_track_synth.md`): loading the flat file, the
6656 nibbles of a track, the lazy track cache, the return of written nibbles to the sector bytes, and the flush. -/

namespace Sys2Proof.Machine

/-! ### The functions -/

/-- `loadDsk(file, order) -> Dsk` or failure (R170). -/
def loadSectorImage (file : List Byte) (order : SectorOrder) : Except FailureCode Dsk :=
  if file.length = Config.dskFileBytes then
    .ok { order := order
          sectors := Memory.ofBytes 0 file
          cache := Vector.replicate 35 none
          dirty := Vector.replicate 35 false
          volume := dskVolume }
  else .error .loadErrorBadSize

/-- The 256 bytes at physical position `p` of track `t` (R172). -/
def sectorData (img : Dsk) (t p : Nat) : List Byte :=
  Memory.readBytes img.sectors (sectorOffset t (logicalSector img.order p)) Config.sectorBytes

/-- The 416-nibble slot of physical sector `p`: the sector and `GAP3` (R99, R173). -/
def sectorSlot (img : Dsk) (t p : Nat) : List Nibble :=
  sectorNibbles img.volume (BitVec.ofNat 8 t) (BitVec.ofNat 8 p) (sectorData img t p) ++
    List.replicate gap3 syncByte

/-- "pads/truncates to a fixed per-track nibble count" (R173). -/
def padTrack (out : List Nibble) : List Nibble :=
  (out ++ List.replicate (Config.trackNibbles - out.length) syncByte).take Config.trackNibbles

/-- `nibblizeTrack(img, t) -> 6656 nibbles` (R173). -/
def nibblize (img : Dsk) (t : Nat) : List Nibble :=
  padTrack ((List.range Config.dskSectors).flatMap (sectorSlot img t))

/-- The track buffer `materializeTrack` returns: the cached one, or a new one (R174). -/
def trackBuffer (img : Dsk) (t : Nat) : List Nibble := (img.cacheAt t).getD (nibblize img t)

/-- The image after `materializeTrack(img, t)` (R174). -/
def materialize (img : Dsk) (t : Nat) : Dsk :=
  match img.cacheAt t with
  | some _ => img
  | none => img.setCache t (nibblize img t)

/-- The start indices of `D5 AA 96` in a track buffer, ascending, each once (R178). -/
def addressStarts (buf : List Nibble) : List Nat :=
  (buf.zipIdx.filter fun c => c.1 == 0xD5 && prologueAt buf c.2 addressMark).map (·.2)

/-- One candidate of R178: decode at `i`, skip on any failure, on another track's number and on a sector above 15,
else store the 256 bytes at the sector's logical position. -/
def storeCandidate (buf : List Nibble) (t : Nat) (img : Dsk) (i : Nat) : Dsk :=
  match decodeSector buf i with
  | .error _ => img
  | .ok (_, track, sector, d) =>
    if track.toNat = t ∧ sector.toNat ≤ 15 then
      { img with sectors :=
          Memory.writeBytes img.sectors (sectorOffset t (logicalSector img.order sector.toNat)) d }
    else img

/-- `denibblizeTrack(img, t)` (R178); without a buffer there is nothing to return (notes/assumptions/9.md). -/
def denibblize (img : Dsk) (t : Nat) : Dsk :=
  match img.cacheAt t with
  | none => img
  | some buf => (addressStarts buf).foldl (storeCandidate buf t) img

/-- One turn of the loop of R180. -/
def flushOne (img : Dsk) (t : Nat) : Dsk :=
  if img.dirtyAt t then (denibblize img t).setDirty t false else img

/-- `flush(img)` of a sector image (R180). -/
def flushDsk (img : Dsk) : Dsk := (List.range Config.dskTracks).foldl flushOne img

/-- `flush(img)`: "for a WOZ image, nothing" (R180). -/
def flushImage : DiskImage → DiskImage
  | .dsk img => .dsk (flushDsk img)
  | .woz img => .woz img

/-- The drive with its image, if it has one, flushed (R180). -/
def flushSlot (d : DriveSlot) : DriveSlot := { d with image := d.image.map flushImage }

/-- The sector image in a drive, if it holds one. -/
def sectorImage? (d : DriveSlot) : Option Dsk :=
  match d.image with
  | some (.dsk img) => some img
  | some (.woz _) => none
  | none => none

/-- The drive with its image replaced by a later state of the same sector image. -/
def withSectorImage (d : DriveSlot) (img : Dsk) : DriveSlot := { d with image := some (.dsk img) }

/-! ### The meanings -/

/-- R170: the result is the new image; no state is written. -/
def execLoadDsk (file : List Byte) (order : SectorOrder) (s : State) : Outcome :=
  answerOrFail (fun img => .image (.dsk img)) (loadSectorImage file order) s

/-- R173 on the image of drive `k`. -/
def execNibblizeTrack (k : DriveId) (t : Nat) (s : State) : Outcome :=
  if t < Config.dskTracks then
    match sectorImage? (s.drive k) with
    | some img => answer (.bytes (nibblize img t)) s
    | none => answer .absent s
  else stuck

/-- R174 on the image of drive `k`. -/
def execMaterializeTrack (k : DriveId) (t : Nat) (s : State) : Outcome :=
  if t < Config.dskTracks then
    match sectorImage? (s.drive k) with
    | some img =>
      answer (.bytes (trackBuffer img t)) (s.setDrive k (withSectorImage (s.drive k) (materialize img t)))
    | none => answer .absent s
  else stuck

/-- R178 on the image of drive `k`. -/
def execDenibblizeTrack (k : DriveId) (t : Nat) (s : State) : Outcome :=
  if t < Config.dskTracks then
    match sectorImage? (s.drive k) with
    | some img => answer .nothing (s.setDrive k (withSectorImage (s.drive k) (denibblize img t)))
    | none => answer .absent s
  else stuck

/-- R180 on the image of drive `k`. -/
def execFlush (k : DriveId) (s : State) : Outcome :=
  answer .nothing (s.setDrive k (flushSlot (s.drive k)))

end Sys2Proof.Machine
end

