-- ==== Sys2Proof/Machine/WozReader.lean ====
section
/-! DEFINITION. The WOZ container reader and the bit-stream reader (`43_woz_bitstream.md`): the container into per-track
bit-streams, and bits and nibbles from the track under the head. -/

namespace Sys2Proof.Machine

/-- A chunk found by the walk: where its payload starts and its size (R202). -/
structure ChunkRef where
  start : Nat
  size  : Nat
  deriving DecidableEq, Repr

/-- The mandatory chunks found so far (R202). -/
structure ChunkTable where
  info : Option ChunkRef
  tmap : Option ChunkRef
  trks : Option ChunkRef
  deriving DecidableEq, Repr

/-! ### The container -/

/-- `checkHeader(file) -> version` (R201). -/
def checkHeader (file : List Byte) : Except FailureCode WozVersion :=
  if file.length < 12 then .error .loadErrorBadSignature
  else if slice file 4 4 ≠ [0xFF, 0x0A, 0x0D, 0x0A] then .error .loadErrorBadSignature
  else if slice file 0 4 = [0x57, 0x4F, 0x5A, 0x31] then .ok .woz1
  else if slice file 0 4 = [0x57, 0x4F, 0x5A, 0x32] then .ok .woz2
  else .error .loadErrorBadSignature

/-- The table with a chunk noted, the first of each mandatory id only; other ids are skipped (R104, R202). -/
def noteChunk (chunks : ChunkTable) (id : List Byte) (c : ChunkRef) : ChunkTable :=
  if id = [0x49, 0x4E, 0x46, 0x4F] then { chunks with info := chunks.info.or (some c) }
  else if id = [0x54, 0x4D, 0x41, 0x50] then { chunks with tmap := chunks.tmap.or (some c) }
  else if id = [0x54, 0x52, 0x4B, 0x53] then { chunks with trks := chunks.trks.or (some c) }
  else chunks

/-- The walk of R202 from `pos`, with at most `turns` chunk headers left (each chunk is at least 8 bytes, so
`walkChunks` gives more turns than a file has headers). -/
def walkChunksFrom (file : List Byte) : Nat → Nat → ChunkTable → Except FailureCode ChunkTable
  | 0, _, chunks => .ok chunks
  | turns + 1, pos, chunks =>
    if pos + 8 ≤ file.length then
      let size := le32 file (pos + 4)
      if file.length < pos + 8 + size then .error .loadErrorTruncatedChunk
      else walkChunksFrom file turns (pos + 8 + size) (noteChunk chunks (slice file pos 4) ⟨pos + 8, size⟩)
    else .ok chunks

/-- `walkChunks(file) -> chunks` (R202). -/
def walkChunks (file : List Byte) : Except FailureCode ChunkTable :=
  walkChunksFrom file (file.length / 8 + 1) 12 ⟨none, none, none⟩

/-- `readInfo`: the write-protect byte of INFO (R203). -/
def readInfo (file : List Byte) (c : ChunkRef) : Except FailureCode Bool :=
  if c.size < 60 then .error .loadErrorChunkTooSmall
  else if byteAt file (c.start + 1) ≠ 1 then .error .loadErrorUnsupportedDiskType
  else .ok (byteAt file (c.start + 2) != 0)

/-- `readTmap` (R204). -/
def readTmap (file : List Byte) (c : ChunkRef) : Except FailureCode (Vector Byte 160) :=
  if c.size < 160 then .error .loadErrorChunkTooSmall
  else .ok (Vector.ofFn fun q : Fin 160 => byteAt file (c.start + q.val))

/-- Every distinct track-data index `tmap` names, in ascending order of the first `q` that names it (R205, R206). -/
def namedIndices (tmap : Vector Byte 160) : List Byte := (tmap.toList.filter (· != 0xFF)).eraseDups

/-- One record of a WOZ1 TRKS payload (R107, R205). -/
def wozTrack1 (file : List Byte) (c : ChunkRef) (i : Byte) : Except FailureCode WozTrack :=
  if c.size < (i.toNat + 1) * 6656 then .error .loadErrorBadTrack
  else
    let rec_ := c.start + i.toNat * 6656
    let bitCount := le16 file (rec_ + 6648)
    if 6646 * 8 < bitCount then .error .loadErrorBadTrack
    else .ok ⟨bitCount, slice file rec_ 6646⟩

/-- One entry of a WOZ2 TRKS payload and the blocks it names (R108, R206). -/
def wozTrack2 (file : List Byte) (c : ChunkRef) (i : Byte) : Except FailureCode WozTrack :=
  if 159 < i.toNat then .error .loadErrorBadTrack
  else
    let e := c.start + 8 * i.toNat
    let startingBlock := le16 file e
    let blockCount := le16 file (e + 2)
    let bitCount := le32 file (e + 4)
    if blockCount = 0 ∨ bitCount = 0 then .ok ⟨0, []⟩
    else if file.length < startingBlock * Config.wozBlock + blockCount * Config.wozBlock then
      .error .loadErrorTruncatedChunk
    else if blockCount * 4096 < bitCount then .error .loadErrorBadTrack
    else .ok ⟨bitCount, slice file (startingBlock * Config.wozBlock) (blockCount * Config.wozBlock)⟩

/-- The tracks of the named indices, in order; the first failure decides (R205, R206, R331). -/
def readTracks (one : Byte → Except FailureCode WozTrack) :
    List Byte → Except FailureCode (List (Byte × WozTrack))
  | [] => .ok []
  | i :: rest =>
    match one i with
    | .error e => .error e
    | .ok T =>
      match readTracks one rest with
      | .error e => .error e
      | .ok ts => .ok ((i, T) :: ts)

/-- `readTrksWoz1` (R205) and `readTrksWoz2` (R206). -/
def readTrks (file : List Byte) (version : WozVersion) (c : ChunkRef) (tmap : Vector Byte 160) :
    Except FailureCode (List (Byte × WozTrack)) :=
  match version with
  | .woz1 => readTracks (wozTrack1 file c) (namedIndices tmap)
  | .woz2 =>
    if c.size < 1280 then .error .loadErrorChunkTooSmall
    else readTracks (wozTrack2 file c) (namedIndices tmap)

/-- `loadWoz(file) -> Woz` or the failure of the first failing step (R200). -/
def loadWozImage (file : List Byte) : Except FailureCode Woz := do
  let version ← checkHeader file
  let chunks ← walkChunks file
  match chunks.info, chunks.tmap, chunks.trks with
  | some info, some tmapChunk, some trks =>
    let wp ← readInfo file info
    let tmap ← readTmap file tmapChunk
    let trk ← readTrks file version trks tmap
    return { version := version, infoWriteProtected := wp, tmap := tmap, trk := trk }
  | _, _, _ => .error .loadErrorMissingChunk

/-! ### The track under the head -/

/-- `trk[i]`. -/
def trackData (img : Woz) (i : Byte) : Option WozTrack := img.trk.lookup i

/-- `currentTrack(img, q)` (R210). -/
def currentTrack (img : Woz) (q : Nat) : Option WozTrack :=
  match img.tmap[q]? with
  | none => none
  | some i =>
    if i = 0xFF then none
    else
      match trackData img i with
      | none => none
      | some T => if T.bitCount = 0 then none else some T

/-- The WOZ track under a drive's head, none when there is none or the drive holds no WOZ image (R210). -/
def wozTrackUnder (d : DriveSlot) : Option WozTrack :=
  match d.image with
  | some (.woz img) => currentTrack img d.quarterTrack
  | some (.dsk _) => none
  | none => none

/-- `getTrackBitCount`, "WOZ only; 0 if absent" (R214). -/
def trackBitCount (image : Option DiskImage) (q : Nat) : Nat :=
  match image with
  | some (.woz img) =>
    match currentTrack img q with
    | some T => T.bitCount
    | none => 0
  | some (.dsk _) => 0
  | none => 0

/-- The bit under the head and the drive with the cursor past it; 0 and the cursor unchanged with no track (R212). -/
def nextBit (d : DriveSlot) : Bool × DriveSlot :=
  match wozTrackUnder d with
  | none => (false, d)
  | some T =>
    let c := d.cursor % T.bitCount
    (bitAt T.bytes c, { d with cursor := (c + 1) % T.bitCount })

/-- The loop of R213 with `ceiling` bits left: shift bits in until bit 7 of the accumulator is set. -/
def assembleNibble : Nat → Byte → DriveSlot → Byte × DriveSlot
  | 0, acc, d => (acc, d)
  | ceiling + 1, acc, d =>
    if acc.getLsbD 7 then (acc, d)
    else assembleNibble ceiling (shiftIn acc (nextBit d).1) (nextBit d).2

/-- `readNibbleWoz(drive)` with `MAX_NIBBLE_SHIFT_BITS = ceiling` (R213). -/
def nextWozNibble (ceiling : Nat) (d : DriveSlot) : Byte × DriveSlot :=
  match wozTrackUnder d with
  | none => (0x00, d)
  | some _ => assembleNibble ceiling 0 d

/-- The drive holds a WOZ image. -/
def holdsWoz (d : DriveSlot) : Bool :=
  match d.image with
  | some (.woz _) => true
  | some (.dsk _) => false
  | none => false

/-! ### The meanings -/

/-- R200: the result is the new image; no state is written. -/
def execLoadWoz (file : List Byte) (s : State) : Outcome :=
  answerOrFail (fun img => .image (.woz img)) (loadWozImage file) s

/-- R212; without a WOZ image there is no bit (notes/assumptions/9.md). -/
def execReadBit (k : DriveId) (s : State) : Outcome :=
  if holdsWoz (s.drive k) then
    answer (.bit (nextBit (s.drive k)).1) (s.setDrive k (nextBit (s.drive k)).2)
  else answer .absent s

/-- R213; without a WOZ image there is no nibble (notes/assumptions/9.md). -/
def execReadNibbleWoz (k : DriveId) (s : State) : Outcome :=
  if holdsWoz (s.drive k) then
    answer (.byte (nextWozNibble Config.maxNibbleShiftBits (s.drive k)).1)
      (s.setDrive k (nextWozNibble Config.maxNibbleShiftBits (s.drive k)).2)
  else answer .absent s

/-- R214. -/
def execGetTrackBitCount (k : DriveId) (q : Nat) (s : State) : Outcome :=
  if q < Config.wozSlots then answer (.count (trackBitCount (s.drive k).image q)) s else stuck

end Sys2Proof.Machine
end

