-- ==== Sys2Proof/Machine/Drive.lean ====
section
/-! DEFINITION. Drive operations (`44_drive_ops.md`): rotation, nibble read and write, head stepping, and the getters. -/

namespace Sys2Proof.Machine

/-! ### The functions -/

/-- `tracks` of an image: 35 for a sector image, 40 for a WOZ image (R25, R26). -/
def tracksOf : DiskImage → Nat
  | .dsk _ => Config.dskTracks
  | .woz _ => Config.wozTracks

/-- `trackLen(drive)` (R230). -/
def trackLen (d : DriveSlot) : Nat :=
  match d.image with
  | none => 0
  | some (.dsk _) => Config.trackNibbles
  | some (.woz img) =>
    match currentTrack img d.quarterTrack with
    | some T => T.bitCount
    | none => 0

/-- `advanceBitPosition(drive, elapsed)` (R233). -/
def advance (d : DriveSlot) (elapsed : Nat) : DriveSlot :=
  let n := nibblesElapsed elapsed
  let len := trackLen d
  if len = 0 then d
  else
    match d.image with
    | none => d
    | some (.dsk _) => { d with cursor := (d.cursor + n) % len }
    | some (.woz _) => { d with cursor := (d.cursor % len + 8 * n) % len }

/-- `readNibble(drive) -> u8` and the drive after it (R236, R237), with `MAX_NIBBLE_SHIFT_BITS = ceiling`. -/
def nextNibble (ceiling : Nat) (d : DriveSlot) : Byte × DriveSlot :=
  match d.image with
  | none => (0x00, d)
  | some (.dsk img) =>
    let t := trackOf d.quarterTrack
    let c := d.cursor % Config.trackNibbles
    ((trackBuffer img t).getD c 0,
      { d with image := some (.dsk (materialize img t)), cursor := (c + 1) % Config.trackNibbles })
  | some (.woz _) => nextWozNibble ceiling d

/-- The sector image after a nibble is put at `c` of track `t`: bit 7 forced, the track dirty (R240). -/
def putNibble (img : Dsk) (t c : Nat) (v : Byte) : Dsk :=
  (img.setCache t ((trackBuffer img t).set c (v ||| 0x80))).setDirty t true

/-- `writeNibble(drive, v)`: `WriteIgnored` is the drive unchanged (R240). -/
def storeNibble (d : DriveSlot) (v : Byte) : DriveSlot :=
  match d.image with
  | none => d
  | some (.woz _) => d
  | some (.dsk img) =>
    if d.writeProtect then d
    else
      let t := trackOf d.quarterTrack
      let c := d.cursor % Config.trackNibbles
      { d with image := some (.dsk (putNibble img t c v)), cursor := (c + 1) % Config.trackNibbles }

/-- `fixCursor(drive)` (R246). -/
def fixCursor (d : DriveSlot) : DriveSlot :=
  match d.image with
  | some (.woz _) => if 0 < trackLen d then { d with cursor := d.cursor % trackLen d } else d
  | some (.dsk _) => d
  | none => d

/-- `stepHead(drive, mask)` (R245). -/
def stepHead (d : DriveSlot) (mask : BitVec 4) : DriveSlot :=
  match d.image with
  | none => d
  | some image =>
    match magnetToPosition mask with
    | none => d
    | some p =>
      let q := clampHead ((d.quarterTrack : Int) + headDelta d.quarterTrack p) (tracksOf image * 4 - 1)
      fixCursor { d with quarterTrack := q }

/-- `hasQuarterTrack(image, q)` (R210). -/
def hasQuarterTrack (image : Option DiskImage) (q : Nat) : Bool :=
  match image with
  | none => false
  | some (.dsk _) => decide (trackOf q ≤ 34)
  | some (.woz img) => (currentTrack img q).isSome

/-- `getFormat` (R248). -/
def formatOf : DiskImage → ImageFormat
  | .dsk img =>
    match img.order with
    | .dos => .dskDos
    | .prodos => .dskProdos
  | .woz img =>
    match img.version with
    | .woz1 => .woz1
    | .woz2 => .woz2

/-- The getters of R248 and R214 for one drive and one quarter-track; with no image the neutral values of U25. -/
def metadataOf (d : DriveSlot) (q : Nat) : Metadata :=
  { isLoaded := d.image.isSome
    format := d.image.map formatOf
    trackCount := (d.image.map tracksOf).getD 0
    hasQuarterTrack := hasQuarterTrack d.image q
    trackBitCount := trackBitCount d.image q
    isWriteProtected := d.writeProtect }

/-! ### The meanings -/

/-- R233. -/
def execAdvanceBitPosition (k : DriveId) (elapsed : Cycle) (s : State) : Outcome :=
  answer .nothing (s.setDrive k (advance (s.drive k) elapsed.toNat))

/-- R236. -/
def execReadNibble (k : DriveId) (s : State) : Outcome :=
  answer (.byte (nextNibble Config.maxNibbleShiftBits (s.drive k)).1)
    (s.setDrive k (nextNibble Config.maxNibbleShiftBits (s.drive k)).2)

/-- R240: "the operation returns nothing in either case". -/
def execWriteNibble (k : DriveId) (v : Byte) (s : State) : Outcome :=
  answer .nothing (s.setDrive k (storeNibble (s.drive k) v))

/-- R245: the head step for a whole mask; the controller's `phase_mask` is not written
(notes/assumptions/18.md). -/
def execSetPhase (k : DriveId) (mask : BitVec 4) (s : State) : Outcome :=
  answer .nothing (s.setDrive k (stepHead (s.drive k) mask))

/-- R247. -/
def execGetQuarterTrack (k : DriveId) (s : State) : Outcome :=
  answer (.position (s.drive k).quarterTrack (trackOf (s.drive k).quarterTrack)) s

/-- R248. -/
def execGetters (k : DriveId) (q : Nat) (s : State) : Outcome :=
  if q < Config.wozSlots then answer (.metadata (metadataOf (s.drive k) q)) s else stuck

end Sys2Proof.Machine
end

