-- ==== Sys2Proof/Machine/Flags.lean ====
section
/-! DEFINITION. The status values of the block (`10_state.md` R28): the block has no arithmetic condition codes; its
status is whether a pending stop is due, whether the motor runs, what a bus read returns and what the write-protect
sense answers. -/

namespace Sys2Proof.Machine

/-- `motor_off_pending = 1 and cycle_now - motor_off_cycle >= 1023000` (R262). -/
def stopDue (s : State) : Bool :=
  s.motorOffPending && decide (Config.motorOffDelay ≤ elapsedSince s.cycleNow s.motorOffCycle)

/-- The motor line of observe (R308). -/
def motorObserved (s : State) : Bool := s.motorOn && !stopDue s

/-- The write-protect status as Q6H senses it (R276). -/
def senseValue (d : DriveSlot) : Byte := if d.writeProtect then 0x80 else 0x00

/-- `readValue(off)` (R279). -/
def readValue (off : BitVec 4) (s : State) : Byte :=
  if off.toNat % 2 = 0 then s.dataLatch
  else if off = 0xD ∧ s.q7 = false then s.dataLatch
  else 0x00

end Sys2Proof.Machine
end

