-- ==== Sys2Proof/Machine/Controller.lean ====
section
/-! DEFINITION. The controller state machine and its sixteen soft switches (`45_controller.md`). Each switch is an effect
inside the access procedure of R261, which is written once. -/

namespace Sys2Proof.Machine

/-! ### The access procedure -/

/-- `evalMotorTimeout()` (R262). -/
def evalMotorTimeout (s : State) : State :=
  if stopDue s then { s with motorOn := false, motorOffPending := false } else s

/-- What a bus access returns (R261 step 3). -/
def accessResult (off : BitVec 4) (a : Access) (s : State) : Result :=
  match a with
  | .read => .byte (readValue off s)
  | .write _ => .nothing

/-- What a bus access emits, "with `value` the byte returned for a read and the byte written for a write" (R261 step 4,
R342; notes/assumptions/5.md). -/
def accessEvent (off : BitVec 4) (a : Access) (s : State) : LogEvent :=
  match a with
  | .read => .access (ioBase + off.toNat) false (readValue off s)
  | .write v => .access (ioBase + off.toNat) true v

/-- The state after one access to offset `off` whose switch effect is `effect`: the four steps of R261, in order. -/
def accessed (off : BitVec 4) (a : Access) (effect : State → State) (s : State) : State :=
  let t := effect (evalMotorTimeout { s with emitted := [] })
  { t with result := accessResult off a t, emitted := t.emitted ++ [accessEvent off a t] }

/-- One bus access: "it is total (every offset is defined for reads and for writes)" (R260). -/
def busAccess (off : BitVec 4) (a : Access) (effect : State → State) (s : State) : Outcome :=
  .next (accessed off a effect s)

/-! ### The switch effects -/

/-- `phaseAccess(n, b)` (R263 to R270). -/
def phaseAccess (n : Nat) (b : Bool) (s : State) : State :=
  let s := { s with phaseMask := setMagnet s.phaseMask n b }
  if s.motorOn then s.setSelected (stepHead s.selected s.phaseMask) else s

/-- MOTOR_OFF (R271). -/
def motorOffEffect (s : State) : State :=
  if s.motorOn && !s.motorOffPending then { s with motorOffPending := true, motorOffCycle := s.cycleNow } else s

/-- A drive whose rotation is measured from `now` on. -/
def rebased (now : Cycle) (d : DriveSlot) : DriveSlot := { d with lastAccessCycle := now }

/-- MOTOR_ON (R272). -/
def motorOnEffect (s : State) : State :=
  if s.motorOn then { s with motorOffPending := false }
  else
    { s with
      motorOn := true
      motorOffPending := false
      driveSlot1 := rebased s.cycleNow s.driveSlot1
      driveSlot2 := rebased s.cycleNow s.driveSlot2 }

/-- DRIVE1_SEL and DRIVE2_SEL: a change of drive flushes the previously selected drive first (R273, R274). -/
def selectDrive (k : DriveId) (s : State) : State :=
  if s.selectedDrive = k then s
  else { s.setSelected (flushSlot s.selected) with selectedDrive := k }

/-- The nibble fetch of Q6L in read mode (R275). -/
def fetchNibble (s : State) : State :=
  if s.selected.image.isNone || !s.motorOn then { s with dataLatch := Config.notReady }
  else
    let d := rebased s.cycleNow (advance s.selected (elapsedSince s.cycleNow s.selected.lastAccessCycle))
    let r := nextNibble Config.maxNibbleShiftBits d
    let v := r.1 ||| 0x80
    let s := { s.setSelected r.2 with dataLatch := v }
    { s with emitted := s.emitted ++ [.nibbleRead v (trackOf r.2.quarterTrack) r.2.cursor] }

/-- Q6L (R275). -/
def q6lEffect (s : State) : State :=
  let s := { s with q6 := false }
  if s.q7 then s else fetchNibble s

/-- A bus write of Q6H in write mode: latch the value, write it unless the motor is off, re-base the timestamp
(R276). -/
def writeLatch (v : Byte) (s : State) : State :=
  let d := if s.motorOn then storeNibble s.selected v else s.selected
  { s.setSelected (rebased s.cycleNow d) with dataLatch := v }

/-- Q6H (R276). -/
def q6hEffect (a : Access) (s : State) : State :=
  let s := { s with q6 := true }
  if s.q7 then
    match a with
    | .read => s
    | .write v => writeLatch v s
  else { s with dataLatch := senseValue s.selected }

/-! ### The meanings -/

/-- PHASE0_OFF, offset 0x0 (R263). -/
def execPhase0Off (a : Access) (s : State) : Outcome := busAccess 0x0 a (phaseAccess 0 false) s

/-- PHASE0_ON, offset 0x1 (R264). -/
def execPhase0On (a : Access) (s : State) : Outcome := busAccess 0x1 a (phaseAccess 0 true) s

/-- PHASE1_OFF, offset 0x2 (R265). -/
def execPhase1Off (a : Access) (s : State) : Outcome := busAccess 0x2 a (phaseAccess 1 false) s

/-- PHASE1_ON, offset 0x3 (R266). -/
def execPhase1On (a : Access) (s : State) : Outcome := busAccess 0x3 a (phaseAccess 1 true) s

/-- PHASE2_OFF, offset 0x4 (R267). -/
def execPhase2Off (a : Access) (s : State) : Outcome := busAccess 0x4 a (phaseAccess 2 false) s

/-- PHASE2_ON, offset 0x5 (R268). -/
def execPhase2On (a : Access) (s : State) : Outcome := busAccess 0x5 a (phaseAccess 2 true) s

/-- PHASE3_OFF, offset 0x6 (R269). -/
def execPhase3Off (a : Access) (s : State) : Outcome := busAccess 0x6 a (phaseAccess 3 false) s

/-- PHASE3_ON, offset 0x7 (R270). -/
def execPhase3On (a : Access) (s : State) : Outcome := busAccess 0x7 a (phaseAccess 3 true) s

/-- MOTOR_OFF, offset 0x8 (R271). -/
def execMotorOff (a : Access) (s : State) : Outcome := busAccess 0x8 a motorOffEffect s

/-- MOTOR_ON, offset 0x9 (R272). -/
def execMotorOn (a : Access) (s : State) : Outcome := busAccess 0x9 a motorOnEffect s

/-- DRIVE1_SEL, offset 0xA (R273). -/
def execDrive1Sel (a : Access) (s : State) : Outcome := busAccess 0xA a (selectDrive .drive1) s

/-- DRIVE2_SEL, offset 0xB (R274). -/
def execDrive2Sel (a : Access) (s : State) : Outcome := busAccess 0xB a (selectDrive .drive2) s

/-- Q6L, offset 0xC (R275). -/
def execQ6l (a : Access) (s : State) : Outcome := busAccess 0xC a q6lEffect s

/-- Q6H, offset 0xD (R276). -/
def execQ6h (a : Access) (s : State) : Outcome := busAccess 0xD a (q6hEffect a) s

/-- Q7L, offset 0xE (R277). -/
def execQ7l (a : Access) (s : State) : Outcome := busAccess 0xE a (fun s => { s with q7 := false }) s

/-- Q7H, offset 0xF (R278). -/
def execQ7h (a : Access) (s : State) : Outcome := busAccess 0xF a (fun s => { s with q7 := true }) s

end Sys2Proof.Machine
end

