-- ==== Sys2Proof/Machine/HostOps.lean ====
section
/-! DEFINITION. Host operations (`46_host_ops.md`) and the two resets (`70_reset_and_hazards.md` R350, R351), with what
the block requires of the bus dispatcher (R310). -/

namespace Sys2Proof.Machine

/-! ### The functions -/

/-- The loader of insertDisk for a format (R303). -/
def loadImage (file : List Byte) : DiskFormat → Except FailureCode DiskImage
  | .dskDos => (loadSectorImage file .dos).map .dsk
  | .dskProdos => (loadSectorImage file .prodos).map .dsk
  | .woz => (loadWozImage file).map .woz

/-- "img is a Woz and img.info_write_protected" (R303). -/
def infoProtected : DiskImage → Bool
  | .dsk _ => false
  | .woz img => img.infoWriteProtected

/-- The drive with a new image inserted at `now` (R303). The old image, flushed by the rule, is discarded with its
bytes, so its flush leaves nothing behind (notes/assumptions/21.md). -/
def insertInto (d : DriveSlot) (image : DiskImage) (wp : Bool) (now : Cycle) : DriveSlot :=
  { image := some image
    writeProtect := wp || infoProtected image
    quarterTrack := min d.quarterTrack (tracksOf image * 4 - 1)
    cursor := 0
    lastAccessCycle := now }

/-- The sector bytes of a flushed image, none for a WOZ image (R304, R306). -/
def flushedSectors : DiskImage → Result
  | .dsk img => .sectorFile (flushDsk img).sectors
  | .woz _ => .absent

/-- The observation record (R308). -/
def observation (s : State) : Observation :=
  { quarterTrack := s.selected.quarterTrack
    track := trackOf s.selected.quarterTrack
    selectedDrive := s.selectedDrive
    motor := motorObserved s
    phaseMask := s.phaseMask
    dataLatch := s.dataLatch }

/-- What the block requires of the bus dispatcher (R310): an access in the `IO` window is the soft switch of its offset,
a read in the `ROM` window is a ROM read, a write there is ignored, "nothing else is delivered"
(notes/assumptions/19.md). -/
def routeBus (a : BitVec 16) (acc : Access) : Option Request :=
  if ioBase ≤ a.toNat ∧ a.toNat < ioBase + 16 then some (busRequest ((switchOffset a).setWidth 8) acc)
  else if romBase ≤ a.toNat ∧ a.toNat < romBase + 256 then
    match acc with
    | .read => some (encode (.romRead a))
    | .write _ => none
  else none

/-! ### The meanings -/

/-- R350. Each drive's image is flushed and then discarded with its bytes, so the flush leaves nothing behind
(notes/assumptions/21.md); the requests not yet performed belong to the agents outside and stay (notes/assumptions/1.md), and
so do the calls (notes/assumptions/24.md). -/
def execPowerCycle (s : State) : Outcome :=
  answer .nothing { State.reset with pending := s.pending, calls := s.calls }

/-- R351: "It changes no state of the block at all". -/
def execSoftReset (s : State) : Outcome := answer .nothing s

/-- R301: a decreasing count is refused with the state unchanged (notes/assumptions/20.md). -/
def execSetCycleCount (c : Cycle) (s : State) : Outcome :=
  if c < s.cycleNow then answer .countRefused s else answer .countTaken { s with cycleNow := c }

/-- R303. -/
def execInsertDisk (k : DriveId) (file : List Byte) (format : DiskFormat) (wp : Bool) (s : State) : Outcome :=
  match loadImage file format with
  | .error code => answer (.failed code) s
  | .ok image => answer .inserted (s.setDrive k (insertInto (s.drive k) image wp s.cycleNow))

/-- R304. -/
def execEjectDisk (k : DriveId) (s : State) : Outcome :=
  match (s.drive k).image with
  | none => answer .absent s
  | some image =>
    answer (flushedSectors image) (s.setDrive k { s.drive k with image := none, writeProtect := false })

/-- R306: `save` of a WOZ image or an empty drive returns none and changes nothing. -/
def execSave (k : DriveId) (s : State) : Outcome :=
  match (s.drive k).image with
  | none => answer .absent s
  | some image => answer (flushedSectors image) (s.setDrive k (flushSlot (s.drive k)))

/-- R308. -/
def execObserve (s : State) : Outcome := answer (.observation (observation s)) s

/-- R309. -/
def execRomRead (a : BitVec 16) (s : State) : Outcome := answer (.byte (Config.bootRom (romIndex a))) s

end Sys2Proof.Machine
end

