-- ==== Sys2Proof/Machine/Dispatch.lean ====
section
/-! DEFINITION. One arm per constructor of `Instr`, each one direct call of the operation's meaning. -/

namespace Sys2Proof.Machine

def exec (i : Instr) (s : State) : Host.Outcome State Fault Refusal :=
  match i with
  | .phase0Off a => Sys2Proof.Machine.execPhase0Off a s
  | .phase0On a => Sys2Proof.Machine.execPhase0On a s
  | .phase1Off a => Sys2Proof.Machine.execPhase1Off a s
  | .phase1On a => Sys2Proof.Machine.execPhase1On a s
  | .phase2Off a => Sys2Proof.Machine.execPhase2Off a s
  | .phase2On a => Sys2Proof.Machine.execPhase2On a s
  | .phase3Off a => Sys2Proof.Machine.execPhase3Off a s
  | .phase3On a => Sys2Proof.Machine.execPhase3On a s
  | .motorOff a => Sys2Proof.Machine.execMotorOff a s
  | .motorOn a => Sys2Proof.Machine.execMotorOn a s
  | .drive1Sel a => Sys2Proof.Machine.execDrive1Sel a s
  | .drive2Sel a => Sys2Proof.Machine.execDrive2Sel a s
  | .q6l a => Sys2Proof.Machine.execQ6l a s
  | .q6h a => Sys2Proof.Machine.execQ6h a s
  | .q7l a => Sys2Proof.Machine.execQ7l a s
  | .q7h a => Sys2Proof.Machine.execQ7h a s
  | .encode4and4 v => Sys2Proof.Machine.execEncode4and4 v s
  | .encode6and2 data => Sys2Proof.Machine.execEncode6and2 data s
  | .buildAddressField volume track sector => Sys2Proof.Machine.execBuildAddressField volume track sector s
  | .buildSector volume track sector data => Sys2Proof.Machine.execBuildSector volume track sector data s
  | .decode4and4 odd even => Sys2Proof.Machine.execDecode4and4 odd even s
  | .decode6and2 n => Sys2Proof.Machine.execDecode6and2 n s
  | .decodeAddressField buf idx => Sys2Proof.Machine.execDecodeAddressField buf idx s
  | .findDataField buf j0 => Sys2Proof.Machine.execFindDataField buf j0 s
  | .decodeSectorAt buf idx => Sys2Proof.Machine.execDecodeSectorAt buf idx s
  | .loadDsk file order => Sys2Proof.Machine.execLoadDsk file order s
  | .nibblizeTrack k t => Sys2Proof.Machine.execNibblizeTrack k t s
  | .materializeTrack k t => Sys2Proof.Machine.execMaterializeTrack k t s
  | .denibblizeTrack k t => Sys2Proof.Machine.execDenibblizeTrack k t s
  | .flush k => Sys2Proof.Machine.execFlush k s
  | .loadWoz file => Sys2Proof.Machine.execLoadWoz file s
  | .readBit k => Sys2Proof.Machine.execReadBit k s
  | .readNibbleWoz k => Sys2Proof.Machine.execReadNibbleWoz k s
  | .getTrackBitCount k q => Sys2Proof.Machine.execGetTrackBitCount k q s
  | .advanceBitPosition k elapsed => Sys2Proof.Machine.execAdvanceBitPosition k elapsed s
  | .readNibble k => Sys2Proof.Machine.execReadNibble k s
  | .writeNibble k v => Sys2Proof.Machine.execWriteNibble k v s
  | .setPhase k mask => Sys2Proof.Machine.execSetPhase k mask s
  | .getQuarterTrack k => Sys2Proof.Machine.execGetQuarterTrack k s
  | .getters k q => Sys2Proof.Machine.execGetters k q s
  | .powerCycle => Sys2Proof.Machine.execPowerCycle s
  | .softReset => Sys2Proof.Machine.execSoftReset s
  | .setCycleCount c => Sys2Proof.Machine.execSetCycleCount c s
  | .insertDisk k file format wp => Sys2Proof.Machine.execInsertDisk k file format wp s
  | .ejectDisk k => Sys2Proof.Machine.execEjectDisk k s
  | .save k => Sys2Proof.Machine.execSave k s
  | .observe => Sys2Proof.Machine.execObserve s
  | .romRead a => Sys2Proof.Machine.execRomRead a s

end Sys2Proof.Machine
end

