-- ==== Sys2Proof/Machine/Step.lean ====
section
/-! DEFINITION. One step: the next request of the bus or the host is taken, decoded and performed
(`20_memory.md` R69: one sequence, each operation complete before the next begins). The block "never acts
spontaneously" (`00_scope.md` R8), so with no request nothing changes (notes/assumptions/1.md). An agent reaches what its
interface reaches (R336); an internal operation is performed only when it is called, and a call is completed before the
next request (notes/assumptions/24.md). -/

namespace Sys2Proof.Machine

/-- Perform what was decoded, or refuse by name. -/
def perform (r : Except DecodeError Instr) (s : State) : Host.Outcome State Fault Refusal :=
  match r with
  | .error why => .refused (.undecodable why)
  | .ok i => exec i s

/-- One step of the block. -/
def step (s : State) : Host.Outcome State Fault Refusal :=
  match s.calls, s.pending with
  | c :: rest, _ => perform (decodeCall c) { s with calls := rest }
  | [], r :: rest => perform (decodeAgent r) { s with pending := rest }
  | [], [] => .next s

/-- The state with an opcode-table word placed so that the very next step performs it: an internal operation as a call
before every other, any other as a request before every other with no call left (notes/assumptions/1.md, 2.md, 24.md). -/
def State.withFetchWord (s : State) (nbits w : Nat) : State :=
  let r := tableRequest nbits w
  match r.port with
  | .internal => { s with calls := r.bytes :: s.calls }
  | .bus => { s with calls := [], pending := r :: s.pending }
  | .host => { s with calls := [], pending := r :: s.pending }

end Sys2Proof.Machine
end

