-- ==== Sys2Proof/Safety.lean ====
section
/-! DEFINITION. What counts as a good state and a safe step, in the terms the statements use: the invariants of
`10_state.md` R35, the canonical form of the sector store, and completion. -/

namespace Sys2Proof.Machine

/-- "Every element of a materialized sector-image track buffer has bit 7 set, and the buffer has exactly 6656 elements"
(R35 c). -/
structure TrackBufferOk (buf : List Nibble) : Prop where
  length  : buf.length = 6656
  nibbles : ∀ b ∈ buf, isNibble b

/-- A sector image as R25 and R35 (c), (f) have it. -/
structure Dsk.Ok (img : Dsk) : Prop where
  /-- the sector store is in its canonical form -/
  canonical : Memory.wf img.sectors
  /-- the sector store lists nothing outside its 143,360 addresses (R60) -/
  inside    : ∀ c ∈ img.sectors, c.1 < 143360
  buffers   : ∀ t buf, img.cacheAt t = some buf → TrackBufferOk buf
  /-- "`dirty[t] = 1` implies `cache[t]` is present" (R35 f) -/
  dirtyCached : ∀ t, img.dirtyAt t = true → (img.cacheAt t).isSome = true

/-- A bit-stream image as R26 has it: every index `tmap` names has a track, whose bits lie inside its bytes. -/
structure Woz.Ok (img : Woz) : Prop where
  tracks : ∀ (q : Nat) (i : Byte), img.tmap[q]? = some i → i ≠ 0xFF →
    ∃ T, trackData img i = some T ∧ T.bitCount ≤ 8 * T.bytes.length

/-- An image as its variant has it. -/
def DiskImage.Ok : DiskImage → Prop
  | .dsk img => img.Ok
  | .woz img => img.Ok

/-- A drive slot at cycle count `now`. -/
structure DriveSlot.Ok (now : Cycle) (d : DriveSlot) : Prop where
  /-- R35 (a) with a disk -/
  head      : ∀ image, d.image = some image → d.quarterTrack ≤ tracksOf image * 4 - 1
  /-- R35 (a) without a disk -/
  emptyHead : d.image = none → d.quarterTrack ≤ 159
  image     : ∀ image, d.image = some image → image.Ok
  /-- "a nibble index in 0..6655 for a sector image" (R24) -/
  cursor    : ∀ img, d.image = some (.dsk img) → d.cursor < 6656
  /-- "each of those fields only ever receives a past value of `cycle_now`" (R356) -/
  clock     : d.lastAccessCycle ≤ now
  /-- "a protected image is never dirty" (R306) -/
  clean     : d.writeProtect = true → ∀ img, d.image = some (.dsk img) → ∀ t, img.dirtyAt t = false

/-- The invariant of the block (R35, R356, R306). -/
structure State.Inv (s : State) : Prop where
  drive1  : s.driveSlot1.Ok s.cycleNow
  drive2  : s.driveSlot2.Ok s.cycleNow
  /-- R35 (e) -/
  pendingStop : s.motorOffPending = true → s.motorOn = true
  /-- R356 -/
  stopClock   : s.motorOffCycle ≤ s.cycleNow

/-- The step completes: it neither faults nor is refused. -/
def State.StepsSafely (s : State) : Prop := ∃ t, step s = .next t

end Sys2Proof.Machine
end

