-- ==== Sys2Proof/Certificates/Slice0/Obligations.lean ====
section
/-! DEFINITION. The statements for the provers. Tables and formulas a statement needs are written out here from the spec,
under `Sys2Proof.Claims`. Taken from the model are the translate table `t62` and its inverse `rev62` (R97), `isNibble`,
the operand layout (`decode`, `encode`, `natToBytes`), one byte of a store (`Memory.read`), one slot of an image
(`Dsk.cacheAt`, `Dsk.dirtyAt`, `trackData`, `currentTrack`), the invariant of `Safety.lean`, and `exec` itself. -/

namespace Sys2Proof.Claims

open Sys2Proof.Machine

/-! ### Bus accesses -/

/-- "motor_off_pending = 1 and cycle_now - motor_off_cycle >= 1023000" (R262). -/
def due (s : State) : Bool := s.motorOffPending && decide (1023000 ≤ (s.cycleNow - s.motorOffCycle).toNat)

/-- The state after step 1 of R261: a due stop takes effect and nothing else changes (R262). -/
def expired (s : State) : State :=
  { s with motorOn := s.motorOn && !due s, motorOffPending := s.motorOffPending && !due s }

/-- An access of kind `a` ends in the state `t` (R261 steps 3 and 4): a read returns `v`, a write returns nothing, and the
last thing emitted is one event of the access, after the `fetched` ones. What that event says is stated once for all
switches, in `Obligations.EveryAccessIsLogged`. -/
def Ends (r : Outcome) (a : Access) (v : Byte) (fetched : List LogEvent) (t : State) : Prop :=
  ∃ e : LogEvent,
    r = .next { t with
      result := (match a with | .read => .byte v | .write _ => .nothing)
      emitted := fetched ++ [e] }

/-- The five-bit word of R90 for a read and for a write of `off` selects the operation. -/
def Selects (off : Byte) (i : Access → Instr) : Prop :=
  decode { port := .bus, bytes := [off] } = .ok (i .read) ∧
    ∀ v, decode { port := .bus, bytes := [0x10 ||| off, v] } = .ok (i (.write v))

/-- The interface that reaches an operation (R336): "the bus reaches `BusRead`, `BusWrite` and `romRead` only; the host
reaches the operations of `46_host_ops.md` and the two resets"; the rest are internal. -/
def reachedBy : Instr → Port
  | .phase0Off _ | .phase0On _ | .phase1Off _ | .phase1On _ | .phase2Off _ | .phase2On _ | .phase3Off _ | .phase3On _
  | .motorOff _ | .motorOn _ | .drive1Sel _ | .drive2Sel _ | .q6l _ | .q6h _ | .q7l _ | .q7h _ | .romRead _ => .bus
  | .powerCycle | .softReset | .setCycleCount _ | .insertDisk .. | .ejectDisk _ | .save _ | .observe => .host
  | .encode4and4 _ | .encode6and2 _ | .buildAddressField .. | .buildSector ..
  | .decode4and4 .. | .decode6and2 _ | .decodeAddressField .. | .findDataField .. | .decodeSectorAt ..
  | .loadDsk .. | .nibblizeTrack .. | .materializeTrack .. | .denibblizeTrack .. | .flush _
  | .loadWoz _ | .readBit _ | .readNibbleWoz _ | .getTrackBitCount ..
  | .advanceBitPosition .. | .readNibble _ | .writeNibble .. | .setPhase .. | .getQuarterTrack _ | .getters .. => .internal

/-- The eight stepper switches by phase and new state of the magnet (R91). -/
def phaseSwitch : Fin 4 → Bool → Access → Instr
  | 0, false => .phase0Off
  | 0, true => .phase0On
  | 1, false => .phase1Off
  | 1, true => .phase1On
  | 2, false => .phase2Off
  | 2, true => .phase2On
  | 3, false => .phase3Off
  | 3, true => .phase3On

/-- The sixteen switches by offset (R91). -/
def switch (off : Fin 16) (a : Access) : Instr :=
  ([.phase0Off a, .phase0On a, .phase1Off a, .phase1On a, .phase2Off a, .phase2On a, .phase3Off a, .phase3On a,
    .motorOff a, .motorOn a, .drive1Sel a, .drive2Sel a, .q6l a, .q6h a, .q7l a, .q7h a] : List Instr).getD off.val
    (.phase0Off a)

/-! ### The head -/

/-- The valid masks and their positions (R101, V-R2). -/
def positions : List (BitVec 4 × Nat) :=
  [(0b0001, 0), (0b0011, 1), (0b0010, 2), (0b0110, 3), (0b0100, 4), (0b1100, 5), (0b1000, 6), (0b1001, 7)]

/-- The position-to-direction table of R245, rows `cur`, columns `p`. -/
def deltas : List (List Int) :=
  [[0, 1, 2, 3, 0, -3, -2, -1], [-1, 0, 1, 2, 3, 0, -3, -2], [-2, -1, 0, 1, 2, 3, 0, -3],
   [-3, -2, -1, 0, 1, 2, 3, 0]] ++
  [[0, -3, -2, -1, 0, 1, 2, 3], [3, 0, -3, -2, -1, 0, 1, 2], [2, 3, 0, -3, -2, -1, 0, 1],
   [1, 2, 3, 0, -3, -2, -1, 0]]

/-- The highest quarter-track of an image, `tracks*4 - 1` (R25, R26, R35). -/
def topQuarterTrack : DiskImage → Nat
  | .dsk _ => 139
  | .woz _ => 159

/-- `d'` is `d` after the head step of R245 for `mask`, with the cursor rule of R246. -/
def HeadStep (d : DriveSlot) (mask : BitVec 4) (d' : DriveSlot) : Prop :=
  match d.image, positions.lookup mask with
  | some image, some p =>
    (d'.quarterTrack : Int) =
        max 0 (min ((d.quarterTrack : Int) + (deltas.getD (d.quarterTrack % 8) []).getD p 0) (topQuarterTrack image)) ∧
      d'.cursor =
        (match image with
        | .dsk _ => d.cursor
        | .woz img =>
          match currentTrack img d'.quarterTrack with
          | some T => d.cursor % T.bitCount
          | none => d.cursor) ∧
      d'.image = d.image ∧ d'.writeProtect = d.writeProtect ∧ d'.lastAccessCycle = d.lastAccessCycle
  | _, _ => d' = d

/-! ### The codec -/

/-- `swap2` of 0, 1, 2, 3 is 0, 2, 1, 3 (R96). -/
def swapped (x : Nat) : Nat := [0, 2, 1, 3].getD x 0

/-- `buf[j]` of the 342 six-bit values of `d`, as a number (R96). -/
def sixBits (d : List Byte) (j : Nat) : Nat :=
  let at_ (i : Nat) : Nat := (d.getD i 0).toNat
  if j < 84 then swapped (at_ j % 4) + 4 * swapped (at_ (j + 86) % 4) + 16 * swapped (at_ (j + 172) % 4)
  else if j < 86 then swapped (at_ j % 4) + 4 * swapped (at_ (j + 86) % 4)
  else at_ (j - 86) / 4

/-- The number whose `T62` nibble stands at `j` of the 343 (R133): the chain, then its final value. -/
def chained (d : List Byte) (j : Nat) : Nat :=
  if j = 0 then sixBits d 0 else if j < 342 then sixBits d j ^^^ sixBits d (j - 1) else sixBits d 341

/-- The XOR of the six-bit values behind a list of nibbles (R134). -/
def xorOfValues (n : List Byte) : SixBit := n.foldl (fun x b => x ^^^ (rev62 b).getD 0) 0

/-- `buf[j]` of R152, as a number: the chain undone up to `j`. -/
def unchained (n : List Byte) (j : Nat) : Nat := (xorOfValues (n.take (j + 1))).toNat

/-- The byte 4-and-4 decoding gives, as a number (R150). -/
def pairValue (odd even : Byte) : Nat := (((2 * odd.toNat) ||| 1) &&& even.toNat) % 256

/-- `g(buf, i)` (`41_gcr_decoder.md`). -/
def g (buf : List Byte) (i : Nat) : Byte := buf.getD (i % buf.length) 0

/-- `D5 AA m` at circular index `i`. -/
def Prologue (buf : List Byte) (i : Nat) (m : Byte) : Prop :=
  g buf i = 0xD5 ∧ g buf (i + 1) = 0xAA ∧ g buf (i + 2) = m

/-! ### Sector images -/

/-- The interleave tables (R100). -/
def orderTable : SectorOrder → List Nat
  | .dos => [0, 7, 14, 6, 13, 5, 12, 4, 11, 3, 10, 2, 9, 1, 8, 15]
  | .prodos => [0, 8, 1, 9, 2, 10, 3, 11, 4, 12, 5, 13, 6, 14, 7, 15]

/-- Where the 256 bytes of physical sector `p` of track `t` start in the file (R172). -/
def sectorStart (img : Dsk) (t p : Nat) : Nat := (t * 16 + (orderTable img.order).getD p 0) * 256

/-- Those 256 bytes. -/
def sectorBytes (img : Dsk) (t p : Nat) : List Byte :=
  (List.range 256).map fun b => Memory.read img.sectors (sectorStart img t p + b)

/-- The drive with another sector image. -/
def withImage (s : State) (k : DriveId) (img : Dsk) : State :=
  s.setDrive k { s.drive k with image := some (.dsk img) }

/-! ### Bit streams -/

/-- Bit `c` of a circular bit-stream, most significant bit of each byte first (R211, R212). -/
def streamBit (T : WozTrack) (c : Nat) : Bool :=
  let i := c % T.bitCount
  (T.bytes.getD (i / 8) 0).toNat / 2 ^ (7 - i % 8) % 2 == 1

/-- The value of `n` bits from `c`, most significant first (R213). -/
def streamValue (T : WozTrack) (c : Nat) : Nat → Nat
  | 0 => 0
  | n + 1 => 2 * streamValue T c n + (if streamBit T (c + n) then 1 else 0)

/-- What one nibble read of R213 gives from stream position `c`: the byte and how many bits it took. Leading zeros are
skipped, eight bits are taken from the leading 1, and the ceiling bounds the whole. -/
def NibbleRead (T : WozTrack) (c : Nat) (v : Byte) (count : Nat) : Prop :=
  (∃ z, z < Config.maxNibbleShiftBits ∧ (∀ j, j < z → streamBit T (c + j) = false) ∧ streamBit T (c + z) = true ∧
      count = min (z + 8) Config.maxNibbleShiftBits ∧ v.toNat = streamValue T (c + z) (count - z)) ∨
    ((∀ j, j < Config.maxNibbleShiftBits → streamBit T (c + j) = false) ∧
      count = Config.maxNibbleShiftBits ∧ v = 0x00)

/-! ### WOZ files -/

/-- The ids `INFO`, `TMAP` and `TRKS` (R104). -/
def infoId : List Byte := [0x49, 0x4E, 0x46, 0x4F]
def tmapId : List Byte := [0x54, 0x4D, 0x41, 0x50]
def trksId : List Byte := [0x54, 0x52, 0x4B, 0x53]

/-- The first 12 bytes, for version byte `v` (R103). -/
def wozHeader (v : Byte) (crc : List Byte) : List Byte := [0x57, 0x4F, 0x5A, v, 0xFF, 0x0A, 0x0D, 0x0A] ++ crc

/-- A WOZ file of these chunks, each an id and a payload, and some bytes after the last one (R103, R104). -/
def wozFile (v : Byte) (crc : List Byte) (chunks : List (List Byte × List Byte)) (rest : List Byte) : List Byte :=
  wozHeader v crc ++ (chunks.flatMap fun c => c.1 ++ natToBytes 4 c.2.length ++ c.2) ++ rest

/-- The version is one of the two, and the parts fit their fields. The CRC bytes are any four (R201). -/
structure Framed (v : Byte) (crc : List Byte) (chunks : List (List Byte × List Byte)) : Prop where
  version : v = 0x31 ∨ v = 0x32
  crcSize : crc.length = 4
  fits    : ∀ c ∈ chunks, c.1.length = 4 ∧ c.2.length < 2 ^ 32

/-- The payloads that count: of each mandatory id the first chunk's, the chunks in any order, with any others (R202). -/
structure Carries (chunks : List (List Byte × List Byte)) (info tmap trks : List Byte) : Prop where
  info : chunks.lookup infoId = some info
  tmap : chunks.lookup tmapId = some tmap
  trks : chunks.lookup trksId = some trks

/-- INFO and TMAP are long enough and the disk is a 5.25 inch one (R203, R204). -/
structure Headed (info tmap : List Byte) : Prop where
  infoSize : 60 ≤ info.length
  diskType : info.getD 1 0 = 1
  tmapSize : 160 ≤ tmap.length

/-- The map names track-data index `i` at quarter-track `q` (R204 to R206). -/
def Maps (tmap : List Byte) (q : Nat) (i : Byte) : Prop := q < 160 ∧ tmap[q]? = some i ∧ i ≠ 0xFF

/-- The little-endian fields of 16 and of 32 bits at `o` (R63). -/
def field16 (xs : List Byte) (o : Nat) : Nat := (xs.getD o 0).toNat + 256 * (xs.getD (o + 1) 0).toNat
def field32 (xs : List Byte) (o : Nat) : Nat := field16 xs o + 65536 * field16 xs (o + 2)

/-- The bit count of record `i` of a WOZ1 TRKS payload (R107). -/
def recordBits (trks : List Byte) (i : Byte) : Nat := field16 trks (i.toNat * 6656 + 6648)

/-- The fields of entry `i` of a WOZ2 TRKS payload (R108). -/
def startingBlock (trks : List Byte) (i : Byte) : Nat := field16 trks (8 * i.toNat)
def blockCount (trks : List Byte) (i : Byte) : Nat := field16 trks (8 * i.toNat + 2)
def entryBits (trks : List Byte) (i : Byte) : Nat := field32 trks (8 * i.toNat + 4)

/-- An entry that is no track (R206). -/
def NoTrack (trks : List Byte) (i : Byte) : Prop := blockCount trks i = 0 ∨ entryBits trks i = 0

/-- The blocks of the entry lie inside the file (R206). -/
def BlocksInside (file trks : List Byte) (i : Byte) : Prop :=
  startingBlock trks i * 512 + blockCount trks i * 512 ≤ file.length

/-- Index `i` is read without a failure (R205, R206). -/
def Readable (v : Byte) (file trks : List Byte) (i : Byte) : Prop :=
  (v = 0x31 → (i.toNat + 1) * 6656 ≤ trks.length ∧ recordBits trks i ≤ 53168) ∧
    (v = 0x32 → i.toNat ≤ 159 ∧
      (NoTrack trks i ∨ (BlocksInside file trks i ∧ entryBits trks i ≤ blockCount trks i * 4096)))

end Sys2Proof.Claims

open Sys2Proof Sys2Proof.Machine Sys2Proof.Claims

/-! ## Encoding and the step -/

/-- Decoding an encoded well-formed operation gives it back, every operand included. The bus words are R90's, the codes
R113's; the layout of operand bytes is the model's (notes/assumptions/3.md). -/
def Obligations.DecodeOfEncodeIsTheOperation : Prop :=
  ∀ i : Instr, i.wellFormed = true → decode (encode i) = .ok i

/-- A request that decodes has one meaning: the operation is well formed and encodes to that very request
(notes/assumptions/3.md), and it came in by the interface that reaches the operation (R336). -/
def Obligations.EncodeOfDecodeIsTheRequest : Prop :=
  ∀ (r : Request) (i : Instr), decode r = .ok i → i.wellFormed = true ∧ encode i = r ∧ r.port = reachedBy i

/-- Seven words decode to the operations they stand for: four of the spec's traces (R112, P1 to P4) and three unit codes of
R113. The eighth, unit code 68, is in no table of the spec, and its rejection by name is the model's choice
(notes/assumptions/10.md), as are the operand bytes after a unit code, the drive byte of 65 among them
(notes/assumptions/3.md). -/
def Obligations.TraceWordsDecode : Prop :=
  decode ⟨.bus, [0x0C]⟩ = .ok (.q6l .read) ∧ decode ⟨.bus, [0x1D, 0x97]⟩ = .ok (.q6h (.write 0x97)) ∧
    decode ⟨.bus, [0x1F, 0xFF]⟩ = .ok (.q7h (.write 0xFF)) ∧ decode ⟨.bus, [0x09]⟩ = .ok (.motorOn .read) ∧
    decode ⟨.internal, [0x10, 0xFE]⟩ = .ok (.encode4and4 0xFE) ∧ decode ⟨.host, [0x60]⟩ = .ok .powerCycle ∧
    decode ⟨.host, [0x65, 0x00]⟩ = .ok (.save .drive1) ∧ decode ⟨.host, [0x68]⟩ = .error .unknownCode

/-- With no call outstanding a step takes the first request and performs the operation it decodes to on the state without
that request, an operation that the bus or the host reaches (R336); with no request nothing changes. That requests wait in a
state field is the model's choice (notes/assumptions/1.md), and so is that a request which is no operation is refused by
name (notes/assumptions/10.md). That an internal operation can be a step, as a call performed before any request, is the
form of notes/assumptions/24.md; R336 gives no agent such a call. -/
def Obligations.StepPerformsTheNextRequest : Prop :=
  ∀ s : State,
    (s.calls = [] → s.pending = [] → step s = .next s) ∧
    (∀ r rest, s.calls = [] → s.pending = r :: rest →
      (∀ i, r.port ≠ .internal → decode r = .ok i →
        reachedBy i ≠ .internal ∧ step s = exec i { s with pending := rest }) ∧
      (∀ e, r.port ≠ .internal → decode r = .error e → step s = .refused (.undecodable e)) ∧
      (r.port = .internal → step s = .refused (.undecodable .internalOnly))) ∧
    (∀ c rest, s.calls = c :: rest →
      (∀ i, decode ⟨.internal, c⟩ = .ok i → reachedBy i = .internal ∧ step s = exec i { s with calls := rest }) ∧
      (∀ e, decode ⟨.internal, c⟩ = .error e → step s = .refused (.undecodable e)))

/-- Every operation on arguments of its stated types completes, in every state: no failure, motor state, missing disk or
write protection stops the block (R12, R260, R332). None adds a request, and none leaves a call of an internal operation behind:
a rule performs its calls within its own step (R336; notes/assumptions/24.md). -/
def Obligations.EveryWellFormedOperationCompletes : Prop :=
  ∀ (i : Instr) (s : State), i.wellFormed = true →
    ∃ t, exec i s = .next t ∧ t.pending = s.pending ∧ t.calls = s.calls

/-- Arguments outside an operation's stated types have no transition (`93_implementation_defined.md` U26): the clauses on
list lengths, tracks and quarter-tracks. That the stop is the fault `argumentOutsideType` is, in every clause, the model's
choice of form (notes/assumptions/10.md). That an empty circular list counts as outside its type, the three clauses with
`xs = []`, is the model's reading and no rule of the spec (notes/assumptions/10.md). -/
def Obligations.ArgumentsOutsideTheirTypesAreStuck : Prop :=
  ∀ (s : State) (k : DriveId) (v t x : Byte) (xs : List Byte) (n : Nat),
    (xs.length ≠ 256 → exec (.encode6and2 xs) s = .fault .argumentOutsideType ∧
      exec (.buildSector v t x xs) s = .fault .argumentOutsideType) ∧
    (xs.length ≠ 343 → exec (.decode6and2 xs) s = .fault .argumentOutsideType) ∧
    (xs = [] → exec (.decodeAddressField xs n) s = .fault .argumentOutsideType ∧
      exec (.findDataField xs n) s = .fault .argumentOutsideType ∧
      exec (.decodeSectorAt xs n) s = .fault .argumentOutsideType) ∧
    (35 ≤ n → exec (.nibblizeTrack k n) s = .fault .argumentOutsideType ∧
      exec (.materializeTrack k n) s = .fault .argumentOutsideType ∧
      exec (.denibblizeTrack k n) s = .fault .argumentOutsideType) ∧
    (160 ≤ n → exec (.getTrackBitCount k n) s = .fault .argumentOutsideType ∧
      exec (.getters k n) s = .fault .argumentOutsideType)

/-! ## The codec -/

/-- R130, R131, R93: the pair's bits are the table's, no two adjacent bits are zero, neither nibble is D5, and no other
byte gives the same pair. -/
def Obligations.PairEncodingBits : Prop :=
  ∀ (v : Byte) (s : State), ∃ o e : Byte,
    exec (.encode4and4 v) s = .next (s.answered (.nibblePair o e)) ∧
    (∀ j, j < 4 → o.getLsbD (2 * j + 1) = true ∧ e.getLsbD (2 * j + 1) = true ∧
      o.getLsbD (2 * j) = v.getLsbD (2 * j + 1) ∧ e.getLsbD (2 * j) = v.getLsbD (2 * j)) ∧
    (∀ j, j < 7 → (o.getLsbD j = true ∨ o.getLsbD (j + 1) = true) ∧
      (e.getLsbD j = true ∨ e.getLsbD (j + 1) = true)) ∧
    o ≠ 0xD5 ∧ e ≠ 0xD5 ∧
    ∀ w, exec (.encode4and4 w) s = .next (s.answered (.nibblePair o e)) → w = v

/-- R150, R151: the formula, on every pair; on the pair of a byte it gives that byte. The formula on a pair that no byte
encodes to is the spec's choice, not the source's (R150, U2), and the model follows it (notes/assumptions/12.md). -/
def Obligations.PairDecodingInvertsEncoding : Prop :=
  ∀ s : State,
    (∀ o e : Byte, exec (.decode4and4 o e) s = .next (s.answered (.byte (BitVec.ofNat 8 (pairValue o e))))) ∧
    ∀ v : Byte, ∃ o e : Byte, exec (.encode4and4 v) s = .next (s.answered (.nibblePair o e)) ∧
      exec (.decode4and4 o e) s = .next (s.answered (.byte v))

/-- R133 with the buffer of R96 and the table of R97: nibble `j` is `T62` of the chained value `j`; R134, which the spec
marks as its own inference from R133: every nibble is legal, none is D5 or AA, and the values XOR to 0. -/
def Obligations.DataEncodingIsTheChain : Prop :=
  ∀ (d : List Byte) (s : State), d.length = 256 →
    ∃ n : List Byte, exec (.encode6and2 d) s = .next (s.answered (.bytes n)) ∧ n.length = 343 ∧
      (∀ j, j < 343 → n[j]? = t62[chained d j]?) ∧
      (∀ b ∈ n, b ∈ t62 ∧ isNibble b ∧ b ≠ 0xD5 ∧ b ≠ 0xAA) ∧ xorOfValues n = 0

/-- R153, R134: decoding what encoding gives, for all 256-byte payloads. -/
def Obligations.DataDecodingInvertsEncoding : Prop :=
  ∀ (d : List Byte) (s : State), d.length = 256 →
    ∃ n : List Byte, exec (.encode6and2 d) s = .next (s.answered (.bytes n)) ∧
      exec (.decode6and2 n) s = .next (s.answered (.bytes d))

/-- R152: an illegal nibble anywhere is reported first; with all 343 legal the decode fails exactly when the six-bit values
do not XOR to 0 (the chain's end is not the checksum), and else byte `i` is recombined from the unchained values. -/
def Obligations.DataDecodingChecksAndRecombines : Prop :=
  ∀ (n : List Byte) (s : State), n.length = 343 →
    ((∃ b ∈ n, b ∉ t62) → exec (.decode6and2 n) s = .next (s.answered (.failed .invalidNibble))) ∧
    ((∀ b ∈ n, b ∈ t62) → xorOfValues n ≠ 0 →
      exec (.decode6and2 n) s = .next (s.answered (.failed .checksumMismatch))) ∧
    ((∀ b ∈ n, b ∈ t62) → xorOfValues n = 0 →
      ∃ d : List Byte, exec (.decode6and2 n) s = .next (s.answered (.bytes d)) ∧ d.length = 256 ∧
        ∀ i, i < 256 → (d.getD i 0).toNat =
          4 * unchained n (86 + i) + swapped (unchained n (i % 86) / 4 ^ (i / 86) % 4))

/-- R153: one legal nibble replaced by another, in any position, is always detected. -/
def Obligations.SingleSubstitutionIsDetected : Prop :=
  ∀ (n d : List Byte) (s : State) (j : Nat) (b : Byte), n.length = 343 →
    exec (.decode6and2 n) s = .next (s.answered (.bytes d)) → j < 343 → b ∈ t62 → n[j]? ≠ some b →
      exec (.decode6and2 (n.set j b)) s = .next (s.answered (.failed .checksumMismatch))

/-- R135, R94: the fourteen nibbles. -/
def Obligations.AddressFieldNibbles : Prop :=
  ∀ (v t x : Byte) (s : State), ∃ ov ev ot et ox ex oc ec : Byte,
    exec (.encode4and4 v) s = .next (s.answered (.nibblePair ov ev)) ∧
    exec (.encode4and4 t) s = .next (s.answered (.nibblePair ot et)) ∧
    exec (.encode4and4 x) s = .next (s.answered (.nibblePair ox ex)) ∧
    exec (.encode4and4 (v ^^^ t ^^^ x)) s = .next (s.answered (.nibblePair oc ec)) ∧
    exec (.buildAddressField v t x) s =
      .next (s.answered (.bytes [0xD5, 0xAA, 0x96, ov, ev, ot, et, ox, ex, oc, ec, 0xDE, 0xAA, 0xEB]))

/-- R136, R92: the 389 nibbles of a sector, and that each prologue occurs in them exactly once. -/
def Obligations.SectorLayout : Prop :=
  ∀ (v t x : Byte) (d : List Byte) (s : State), d.length = 256 →
    ∃ out addr body : List Byte,
      exec (.buildAddressField v t x) s = .next (s.answered (.bytes addr)) ∧
      exec (.encode6and2 d) s = .next (s.answered (.bytes body)) ∧
      exec (.buildSector v t x d) s = .next (s.answered (.bytes out)) ∧
      out = List.replicate 20 0xFF ++ addr ++ List.replicate 6 0xFF ++ [0xD5, 0xAA, 0xAD] ++ body ++
        [0xDE, 0xAA, 0xEB] ∧
      out.length = 389 ∧
      ∀ i : Nat, out[i]? = some 0xD5 ↔ i = 20 ∨ i = 40

/-- R154: the four values by the formula of R150, the checksum the only check. R154 takes an index at which D5 AA 96
stands; that the answer is the same at any other index is the model's reading (notes/assumptions/11.md), and the formula on
pairs that no byte encodes to is the spec's choice which the model follows (U2, notes/assumptions/12.md). -/
def Obligations.AddressDecodingChecksTheSum : Prop :=
  ∀ (buf : List Byte) (i : Nat) (s : State), buf ≠ [] →
    ∃ v t x c : Byte,
      v.toNat = pairValue (g buf (i + 3)) (g buf (i + 4)) ∧ t.toNat = pairValue (g buf (i + 5)) (g buf (i + 6)) ∧
      x.toNat = pairValue (g buf (i + 7)) (g buf (i + 8)) ∧ c.toNat = pairValue (g buf (i + 9)) (g buf (i + 10)) ∧
      exec (.decodeAddressField buf i) s =
        .next (s.answered (if c = v ^^^ t ^^^ x then .addressField v t x else .failed .checksumMismatch))

/-- R155: the search answers the first data prologue within one turn and before any address prologue, and fails
`NoDataField` when there is none. That the search ends at the next address prologue is the spec's own reading (R155). -/
def Obligations.DataFieldSearch : Prop :=
  ∀ (buf : List Byte) (j0 : Nat) (s : State), buf ≠ [] →
    (∀ j, j0 ≤ j → j < j0 + buf.length → Prologue buf j 0xAD →
      (∀ m, j0 ≤ m → m < j → ¬ Prologue buf m 0xAD ∧ ¬ Prologue buf m 0x96) →
        exec (.findDataField buf j0) s = .next (s.answered (.count j))) ∧
    ((∀ j, j0 ≤ j → j < j0 + buf.length → Prologue buf j 0xAD → ∃ m, j0 ≤ m ∧ m < j ∧ Prologue buf m 0x96) →
        exec (.findDataField buf j0) s = .next (s.answered (.failed .noDataField)))

/-- R136, R137, R153, R156: the address decoder and the sector decoder at a built sector return all it was built from,
wherever the sector stands in a longer buffer and whatever that holds. The source states the address decoder's part
(R137); the data's follows from R153, which the spec marks as its own inference, and R156. -/
def Obligations.BuiltSectorDecodesInPlace : Prop :=
  ∀ (v t x : Byte) (d pre post : List Byte) (s : State), d.length = 256 →
    ∃ out : List Byte, exec (.buildSector v t x d) s = .next (s.answered (.bytes out)) ∧
      exec (.decodeAddressField (pre ++ out ++ post) (pre.length + 20)) s = .next (s.answered (.addressField v t x)) ∧
      exec (.decodeSectorAt (pre ++ out ++ post) (pre.length + 20)) s = .next (s.answered (.sector v t x d))

/-- R156: the first failure of a step, in the order written. -/
def Obligations.SectorDecodingReportsTheFirstFailure : Prop :=
  ∀ (buf : List Byte) (i : Nat) (s : State), buf ≠ [] →
    (exec (.decodeAddressField buf i) s = .next (s.answered (.failed .checksumMismatch)) →
      exec (.decodeSectorAt buf i) s = .next (s.answered (.failed .checksumMismatch))) ∧
    ∀ v t x, exec (.decodeAddressField buf i) s = .next (s.answered (.addressField v t x)) →
      (exec (.findDataField buf (i + 11)) s = .next (s.answered (.failed .noDataField)) →
        exec (.decodeSectorAt buf i) s = .next (s.answered (.failed .noDataField))) ∧
      ∀ j, exec (.findDataField buf (i + 11)) s = .next (s.answered (.count j)) →
        (∀ d, exec (.decode6and2 ((List.range 343).map fun m => g buf (j + 3 + m))) s =
            .next (s.answered (.bytes d)) →
          exec (.decodeSectorAt buf i) s = .next (s.answered (.sector v t x d))) ∧
        (∀ e, exec (.decode6and2 ((List.range 343).map fun m => g buf (j + 3 + m))) s =
            .next (s.answered (.failed e)) →
          exec (.decodeSectorAt buf i) s = .next (s.answered (.failed e)))

/-! ## Sector images -/

/-- R170: a file of any other length fails and changes nothing; 143,360 bytes load, byte for byte. -/
def Obligations.LoadDskTakesTheBytes : Prop :=
  ∀ (file : List Byte) (order : SectorOrder) (s : State),
    (file.length ≠ 143360 → exec (.loadDsk file order) s = .next (s.answered (.failed .loadErrorBadSize))) ∧
    (file.length = 143360 → ∃ img : Dsk,
      exec (.loadDsk file order) s = .next (s.answered (.image (.dsk img))) ∧ img.order = order ∧
      (∀ a, a < 143360 → Memory.read img.sectors a = file.getD a 0) ∧
      (∀ t, img.cacheAt t = none ∧ img.dirtyAt t = false) ∧ img.volume = 254 ∧ img.Ok)

/-- R173, R99, R172: the 6656 nibbles are sixteen 416-nibble slots, slot `p` the built sector of the bytes at
`ORDER[p]` and 27 sync nibbles; no state is written. -/
def Obligations.TrackLayout : Prop :=
  ∀ (k : DriveId) (t : Nat) (s : State) (img : Dsk), t < 35 → (s.drive k).image = some (.dsk img) →
    ∃ buf : List Byte, exec (.nibblizeTrack k t) s = .next (s.answered (.bytes buf)) ∧ buf.length = 6656 ∧
      ∀ p, p < 16 → ∃ sec : List Byte,
        exec (.buildSector img.volume (BitVec.ofNat 8 t) (BitVec.ofNat 8 p) (sectorBytes img t p)) s =
          .next (s.answered (.bytes sec)) ∧
        (buf.drop (416 * p)).take 416 = sec ++ List.replicate 27 0xFF

/-- R175: a synthesized track has exactly sixteen address prologues and sixteen data prologues, at these indices. -/
def Obligations.SixteenSectorsOnATrack : Prop :=
  ∀ (k : DriveId) (t : Nat) (s : State) (img : Dsk), t < 35 → (s.drive k).image = some (.dsk img) →
    ∃ buf : List Byte, exec (.nibblizeTrack k t) s = .next (s.answered (.bytes buf)) ∧
      ∀ i, i < 6656 → (Prologue buf i 0x96 ↔ ∃ p, p < 16 ∧ i = 416 * p + 20) ∧
        (Prologue buf i 0xAD ↔ ∃ p, p < 16 ∧ i = 416 * p + 40)

/-- R174: the buffer is the cached one or, the first time, the synthesized one, which is then cached; nothing else of
the image changes, and a second materialization changes nothing. -/
def Obligations.MaterializationCachesOnce : Prop :=
  ∀ (k : DriveId) (t : Nat) (s : State) (img : Dsk), t < 35 → (s.drive k).image = some (.dsk img) →
    ∃ (buf : List Byte) (img' : Dsk),
      exec (.materializeTrack k t) s = .next ((withImage s k img').answered (.bytes buf)) ∧
      (∀ old, img.cacheAt t = some old → buf = old ∧ img' = img) ∧
      (img.cacheAt t = none → exec (.nibblizeTrack k t) s = .next (s.answered (.bytes buf))) ∧
      (∀ u, img'.cacheAt u = if u = t then some buf else img.cacheAt u) ∧
      img'.dirty = img.dirty ∧ img'.sectors = img.sectors ∧ img'.order = img.order ∧ img'.volume = img.volume

/-- R178: for each sector number, the track's 256 bytes of it become those of the last address prologue of the buffer,
ascending from index 0, at which that sector of this track decodes; where none does they stay. Every byte outside the
track's 4096 stays, and the cache, the dirty flags, the order and the volume do. R178 takes the buffer as present; that
with no buffer nothing changes is the model's choice (notes/assumptions/9.md). -/
def Obligations.DenibblizeStoresTheLastDecodeOfEachSector : Prop :=
  ∀ (k : DriveId) (t : Nat) (s : State) (img : Dsk), t < 35 → (s.drive k).image = some (.dsk img) →
    ∃ img' : Dsk, exec (.denibblizeTrack k t) s = .next ((withImage s k img').answered .nothing) ∧
      (img.cacheAt t = none → img' = img) ∧
      (∀ (buf : List Byte) (x : Nat), img.cacheAt t = some buf → x < 16 →
        let Found (i : Nat) (d : List Byte) : Prop := i < buf.length ∧ Prologue buf i 0x96 ∧
          ∃ v, exec (.decodeSectorAt buf i) s =
            .next (s.answered (.sector v (BitVec.ofNat 8 t) (BitVec.ofNat 8 x) d))
        (∀ i d, Found i d → (∀ i' d', i < i' → ¬ Found i' d') → sectorBytes img' t x = d) ∧
          ((∀ i d, ¬ Found i d) → sectorBytes img' t x = sectorBytes img t x)) ∧
      (∀ a, a < 4096 * t ∨ 4096 * t + 4096 ≤ a → Memory.read img'.sectors a = Memory.read img.sectors a) ∧
      img'.cache = img.cache ∧ img'.dirty = img.dirty ∧ img'.order = img.order ∧ img'.volume = img.volume ∧
      (Memory.wf img.sectors → Memory.wf img'.sectors)

/-- R179, first sentence: denibblizing the synthesized track leaves every sector byte as it was, for both orders. -/
def Obligations.DenibblizeOfSynthesizedTrackIsIdentity : Prop :=
  ∀ (k : DriveId) (t : Nat) (s : State) (img : Dsk) (buf : List Byte), t < 35 →
    (s.drive k).image = some (.dsk img) → exec (.nibblizeTrack k t) s = .next (s.answered (.bytes buf)) →
    img.cacheAt t = some buf →
      ∃ img' : Dsk, exec (.denibblizeTrack k t) s = .next ((withImage s k img').answered .nothing) ∧
        ∀ a, Memory.read img'.sectors a = Memory.read img.sectors a

/-- R179, second sentence: with the 343 data-body nibbles of one physical sector overwritten by an encoded `d'`, the
denibblize stores `d'` at that sector's file position and changes no other byte. -/
def Obligations.RewrittenSectorReachesTheImage : Prop :=
  ∀ (k : DriveId) (t p : Nat) (s : State) (img : Dsk) (buf body d' : List Byte), t < 35 → p < 16 →
    d'.length = 256 → (s.drive k).image = some (.dsk img) →
    exec (.nibblizeTrack k t) s = .next (s.answered (.bytes buf)) →
    exec (.encode6and2 d') s = .next (s.answered (.bytes body)) →
    img.cacheAt t = some (buf.take (416 * p + 43) ++ body ++ buf.drop (416 * p + 386)) →
      ∃ img' : Dsk, exec (.denibblizeTrack k t) s = .next ((withImage s k img').answered .nothing) ∧
        (∀ b, b < 256 → Memory.read img'.sectors (sectorStart img t p + b) = d'.getD b 0) ∧
        ∀ a, a < sectorStart img t p ∨ sectorStart img t p + 256 ≤ a →
          Memory.read img'.sectors a = Memory.read img.sectors a

/-- R180, R73: after a flush no track is dirty, every buffer is kept, the bytes of a dirty track are those its
denibblize gives and the bytes of a clean track are as before; an image with no dirty track and a WOZ image are not
touched at all. -/
def Obligations.FlushDenibblizesTheDirtyTracks : Prop :=
  ∀ (k : DriveId) (s : State),
    (∀ img : Dsk, (s.drive k).image = some (.dsk img) →
      ∃ img' : Dsk, exec (.flush k) s = .next ((withImage s k img').answered .nothing) ∧
        (∀ t, img'.dirtyAt t = false) ∧ img'.cache = img.cache ∧ img'.order = img.order ∧
        img'.volume = img.volume ∧
        (∀ t imgT, t < 35 → img.dirtyAt t = true →
          exec (.denibblizeTrack k t) s = .next ((withImage s k imgT).answered .nothing) →
          ∀ a, 4096 * t ≤ a → a < 4096 * t + 4096 → Memory.read img'.sectors a = Memory.read imgT.sectors a) ∧
        (∀ t a, t < 35 → img.dirtyAt t = false → 4096 * t ≤ a → a < 4096 * t + 4096 →
          Memory.read img'.sectors a = Memory.read img.sectors a) ∧
        ((∀ t, img.dirtyAt t = false) → img' = img)) ∧
    ((∀ img : Dsk, (s.drive k).image ≠ some (.dsk img)) → exec (.flush k) s = .next (s.answered .nothing))

/-! ## WOZ images -/

/-- R200 to R206, every failure of a load and which comes first (R331). A short file, a wrong signature or a wrong fixed
byte fails whatever follows; then a chunk of any id whose payload runs past the end of the file; then a missing chunk;
then INFO, TMAP, TRKS. Of the mapped indices the one at the lowest quarter-track that cannot be read decides. -/
def Obligations.WozFilesAreChecked : Prop :=
  (∀ (file : List Byte) (s : State),
    (file.length < 12 ∨ (file.take 4 ≠ [0x57, 0x4F, 0x5A, 0x31] ∧ file.take 4 ≠ [0x57, 0x4F, 0x5A, 0x32]) ∨
      (file.drop 4).take 4 ≠ [0xFF, 0x0A, 0x0D, 0x0A]) →
        exec (.loadWoz file) s = .next (s.answered (.failed .loadErrorBadSignature))) ∧
  ∀ (v : Byte) (crc : List Byte) (chunks : List (List Byte × List Byte)) (rest : List Byte) (s : State),
    Framed v crc chunks →
    let Fails (tail : List Byte) (code : FailureCode) : Prop :=
      exec (.loadWoz (wozFile v crc chunks tail)) s = .next (s.answered (.failed code))
    (∀ (id payload : List Byte) (size : Nat), id.length = 4 → size < 2 ^ 32 → payload.length < size →
      Fails (id ++ natToBytes 4 size ++ payload) .loadErrorTruncatedChunk) ∧
    (rest.length < 8 →
      (chunks.lookup infoId = none ∨ chunks.lookup tmapId = none ∨ chunks.lookup trksId = none →
        Fails rest .loadErrorMissingChunk) ∧
      ∀ info tmap trks, Carries chunks info tmap trks →
        (info.length < 60 → Fails rest .loadErrorChunkTooSmall) ∧
        (60 ≤ info.length → info.getD 1 0 ≠ 1 → Fails rest .loadErrorUnsupportedDiskType) ∧
        (60 ≤ info.length → info.getD 1 0 = 1 → tmap.length < 160 → Fails rest .loadErrorChunkTooSmall) ∧
        (Headed info tmap → v = 0x32 → trks.length < 1280 → Fails rest .loadErrorChunkTooSmall) ∧
        (Headed info tmap → (v = 0x32 → 1280 ≤ trks.length) → ∀ q i, Maps tmap q i →
          (∀ q' i', q' < q → Maps tmap q' i' → Readable v (wozFile v crc chunks rest) trks i') →
          (v = 0x31 → trks.length < (i.toNat + 1) * 6656 ∨ 53168 < recordBits trks i →
            Fails rest .loadErrorBadTrack) ∧
          (v = 0x32 → 159 < i.toNat → Fails rest .loadErrorBadTrack) ∧
          (v = 0x32 → i.toNat ≤ 159 → ¬ NoTrack trks i →
            (¬ BlocksInside (wozFile v crc chunks rest) trks i → Fails rest .loadErrorTruncatedChunk) ∧
            (BlocksInside (wozFile v crc chunks rest) trks i → blockCount trks i * 4096 < entryBits trks i →
              Fails rest .loadErrorBadTrack))))

/-- R200 to R206, R107, R108: a WOZ1 or WOZ2 file all of whose mapped indices can be read loads, whatever the order of its
chunks, whatever chunks of other ids or second chunks of an id it has, whatever up to seven bytes follow the last and
whatever its CRC bytes: the map byte for byte, the write-protect byte, and for each mapped index its bit count and its
bytes, from the record in TRKS or from the 512-byte blocks of the file; an entry with no blocks or no bits is no track. -/
def Obligations.WozFilesLoad : Prop :=
  ∀ (v : Byte) (crc : List Byte) (chunks : List (List Byte × List Byte)) (rest info tmap trks : List Byte) (s : State),
    Framed v crc chunks → rest.length < 8 → Carries chunks info tmap trks → Headed info tmap →
    (v = 0x32 → 1280 ≤ trks.length) →
    (∀ q i, Maps tmap q i → Readable v (wozFile v crc chunks rest) trks i) →
      ∃ img : Woz, exec (.loadWoz (wozFile v crc chunks rest)) s = .next (s.answered (.image (.woz img))) ∧
        (v = 0x31 → img.version = .woz1) ∧ (v = 0x32 → img.version = .woz2) ∧
        img.infoWriteProtected = (info.getD 2 0 != 0) ∧
        (∀ q, q < 160 → img.tmap[q]? = tmap[q]?) ∧
        ∀ q i, Maps tmap q i →
          (v = 0x31 →
            trackData img i = some ⟨recordBits trks i, (trks.drop (i.toNat * 6656)).take 6646⟩) ∧
          (v = 0x32 → NoTrack trks i → trackData img i = some ⟨0, []⟩) ∧
          (v = 0x32 → ¬ NoTrack trks i → trackData img i =
            some ⟨entryBits trks i, ((wozFile v crc chunks rest).drop (startingBlock trks i * 512)).take
              (blockCount trks i * 512)⟩)

/-- R200, R321: a load answers an image all of whose mapped tracks lie inside their bytes, or a `LoadError`; either way
no state is written. -/
def Obligations.LoadedWozTracksLieInsideTheirBytes : Prop :=
  ∀ (file : List Byte) (s : State),
    (∃ img : Woz, exec (.loadWoz file) s = .next (s.answered (.image (.woz img))) ∧ img.Ok) ∨
    ∃ code, failureClass code = .loadError ∧ exec (.loadWoz file) s = .next (s.answered (.failed code))

/-- R212, R211: the bit at the cursor and the cursor past it; 0 and no change with no track under the head. Without a
WOZ image the operation answers none, the model's choice (notes/assumptions/9.md). -/
def Obligations.ReadBitTakesTheNextBit : Prop :=
  ∀ (k : DriveId) (s : State) (img : Woz), (s.drive k).image = some (.woz img) →
    (∀ T, currentTrack img (s.drive k).quarterTrack = some T →
      exec (.readBit k) s =
        .next ((s.setDrive k { s.drive k with cursor := ((s.drive k).cursor + 1) % T.bitCount }).answered
          (.bit (streamBit T (s.drive k).cursor)))) ∧
    (currentTrack img (s.drive k).quarterTrack = none → exec (.readBit k) s = .next (s.answered (.bit false)))

/-- R213, R237: leading zeros skipped, eight bits from the leading 1, bounded by `MAX_NIBBLE_SHIFT_BITS` whatever its
value; with no track 0x00 and the cursor unchanged. -/
def Obligations.ReadNibbleWozAssemblesANibble : Prop :=
  ∀ (k : DriveId) (s : State) (img : Woz), (s.drive k).image = some (.woz img) →
    (∀ T, currentTrack img (s.drive k).quarterTrack = some T →
      ∃ v count, NibbleRead T (s.drive k).cursor v count ∧ 8 ≤ count ∧ count ≤ Config.maxNibbleShiftBits ∧
        ∀ i, i = Instr.readNibbleWoz k ∨ i = Instr.readNibble k → exec i s =
          .next ((s.setDrive k { s.drive k with cursor := ((s.drive k).cursor + count) % T.bitCount }).answered
            (.byte v))) ∧
    (currentTrack img (s.drive k).quarterTrack = none →
      ∀ i, i = Instr.readNibbleWoz k ∨ i = Instr.readNibble k → exec i s = .next (s.answered (.byte 0x00)))

/-- R210, R214, R247, R248: the getters write no state and answer from the drive alone; the track under a quarter-track of
a WOZ image is the one its map names, bit count and bytes, and none where the map says 0xFF or the track has no bits. The
neutral answers with no image
are U25's; that one operation answers all of R248 for one quarter-track is the model's choice
(notes/assumptions/14.md). -/
def Obligations.GettersAnswerFromTheDrive : Prop :=
  ∀ (k : DriveId) (q : Nat) (s : State), q < 160 →
    exec (.getQuarterTrack k) s =
        .next (s.answered (.position (s.drive k).quarterTrack ((s.drive k).quarterTrack / 4))) ∧
    ∃ m : Metadata, exec (.getters k q) s = .next (s.answered (.metadata m)) ∧
      exec (.getTrackBitCount k q) s = .next (s.answered (.count m.trackBitCount)) ∧
      m.isWriteProtected = (s.drive k).writeProtect ∧
      match (s.drive k).image with
      | none => m.isLoaded = false ∧ m.format = none ∧ m.trackCount = 0 ∧ m.hasQuarterTrack = false ∧
          m.trackBitCount = 0
      | some (.dsk img) => m.isLoaded = true ∧
          m.format = some (match img.order with | .dos => .dskDos | .prodos => .dskProdos) ∧ m.trackCount = 35 ∧
          m.hasQuarterTrack = decide (q < 140) ∧ m.trackBitCount = 0
      | some (.woz img) => m.isLoaded = true ∧
          m.format = some (match img.version with | .woz1 => .woz1 | .woz2 => .woz2) ∧ m.trackCount = 40 ∧
          m.hasQuarterTrack = (currentTrack img q).isSome ∧
          ∀ i, img.tmap[q]? = some i →
            (i = 0xFF → currentTrack img q = none ∧ m.trackBitCount = 0) ∧
            ∀ T, i ≠ 0xFF → trackData img i = some T →
              currentTrack img q = (if T.bitCount = 0 then none else some T) ∧ m.trackBitCount = T.bitCount

/-! ## Drives -/

/-- R233, R230: whole nibble times by floor division, one cursor unit each on a sector image and eight bits each on a
WOZ track, modulo the track length; nothing without a track. -/
def Obligations.RotationAdvancesTheCursor : Prop :=
  ∀ (k : DriveId) (e : Cycle) (s : State),
    let d := s.drive k
    let n := e.toNat * 100 / 3074
    exec (.advanceBitPosition k e) s = .next ((s.setDrive k { d with cursor :=
      (match d.image with
      | none => d.cursor
      | some (.dsk _) => (d.cursor + n) % 6656
      | some (.woz img) =>
        match currentTrack img d.quarterTrack with
        | some T => (d.cursor + 8 * n) % T.bitCount
        | none => d.cursor) }).answered .nothing)

/-- R236: the nibble at the cursor of the materialized track, the cursor past it, no dirty flag; 0x00 and nothing with no
disk. -/
def Obligations.ReadNibbleTakesTheNextNibble : Prop :=
  ∀ (k : DriveId) (s : State),
    ((s.drive k).image = none → exec (.readNibble k) s = .next (s.answered (.byte 0x00))) ∧
    ∀ (img img' : Dsk) (buf : List Byte), (s.drive k).image = some (.dsk img) → (s.drive k).quarterTrack < 140 →
      exec (.materializeTrack k ((s.drive k).quarterTrack / 4)) s =
        .next ((withImage s k img').answered (.bytes buf)) →
      exec (.readNibble k) s =
        .next ((s.setDrive k { s.drive k with
          image := some (.dsk img')
          cursor := ((s.drive k).cursor + 1) % 6656 }).answered
            (.byte (buf.getD ((s.drive k).cursor % 6656) 0)))

/-- R240, R66: a write on an unprotected sector image stores `v | 0x80` at the cursor of the track under the head, marks
that track dirty and steps the cursor, and changes no other nibble, flag or sector byte; in every other case it is
silently dropped with no state change. -/
def Obligations.WriteNibbleStoresOrIsIgnored : Prop :=
  ∀ (k : DriveId) (v : Byte) (s : State),
    ((s.drive k).writeProtect = true ∨ (∀ img, (s.drive k).image ≠ some (.dsk img)) →
      exec (.writeNibble k v) s = .next (s.answered .nothing)) ∧
    ∀ (img img1 : Dsk) (buf : List Byte), (s.drive k).image = some (.dsk img) →
      (s.drive k).writeProtect = false → (s.drive k).quarterTrack < 140 →
      exec (.materializeTrack k ((s.drive k).quarterTrack / 4)) s =
        .next ((withImage s k img1).answered (.bytes buf)) →
      ∃ img' : Dsk,
        exec (.writeNibble k v) s =
          .next ((s.setDrive k { s.drive k with
            image := some (.dsk img')
            cursor := ((s.drive k).cursor + 1) % 6656 }).answered .nothing) ∧
        (∀ t, img'.cacheAt t = if t = (s.drive k).quarterTrack / 4
          then some (buf.set ((s.drive k).cursor % 6656) (v ||| 0x80)) else img.cacheAt t) ∧
        (∀ t, img'.dirtyAt t = (decide (t = (s.drive k).quarterTrack / 4) || img.dirtyAt t)) ∧
        img'.sectors = img.sectors ∧ img'.order = img.order ∧ img'.volume = img.volume

/-- R245, R246, R101: the head moves by the printed table for a valid mask, clamped to the image's range, and never for
an invalid mask or an empty drive; only the head and, on WOZ, the cursor change. That the operation takes the whole mask
and leaves `phase_mask` alone is the reading of notes/assumptions/18.md. -/
def Obligations.SetPhaseMovesTheHeadByTheTable : Prop :=
  ∀ (k : DriveId) (mask : BitVec 4) (s : State),
    ∃ d', HeadStep (s.drive k) mask d' ∧ exec (.setPhase k mask) s = .next ((s.setDrive k d').answered .nothing)

/-! ## The controller -/

/-- R263 to R270: the words, the new mask, the head step of the selected drive exactly when the motor is on after the
timeout, the value read, and nothing else. -/
def Obligations.PhaseSwitchesSetTheMaskAndStepTheHead : Prop :=
  ∀ (n : Fin 4) (b : Bool) (a : Access) (s : State),
    Selects (BitVec.ofNat 8 (2 * n.val + b.toNat)) (phaseSwitch n b) ∧
    ∃ (m : BitVec 4) (d' : DriveSlot),
      (∀ i, i < 4 → m.getLsbD i = if i = n.val then b else s.phaseMask.getLsbD i) ∧
      (if (expired s).motorOn then HeadStep s.selected m d' else d' = s.selected) ∧
      Ends (exec (phaseSwitch n b a) s) a (if b then 0x00 else s.dataLatch) []
        (({ expired s with phaseMask := m } : State).setSelected d')

/-- R271: the wait starts only with the motor on and no stop pending, and `motor_on` stays; R272: a pending stop is
cancelled and nothing else changes; from rest the motor starts and both timestamps are re-based. -/
def Obligations.MotorSwitches : Prop :=
  Selects 0x08 .motorOff ∧ Selects 0x09 .motorOn ∧ ∀ (a : Access) (s : State),
    Ends (exec (.motorOff a) s) a s.dataLatch []
      (if (expired s).motorOn = true ∧ (expired s).motorOffPending = false then
        { expired s with motorOffPending := true, motorOffCycle := s.cycleNow }
      else expired s) ∧
    Ends (exec (.motorOn a) s) a 0x00 []
      (if (expired s).motorOn = true then { expired s with motorOffPending := false }
      else { expired s with
        motorOn := true
        motorOffPending := false
        driveSlot1 := { s.driveSlot1 with lastAccessCycle := s.cycleNow }
        driveSlot2 := { s.driveSlot2 with lastAccessCycle := s.cycleNow } })

/-- R262 over all sixteen switches: a due stop takes effect at the access, except that MOTOR_ON restarts the motor with
both timestamps re-based; a stop that is not due leaves the motor as it was, except for MOTOR_ON. -/
def Obligations.DueStopTakesEffectAtTheNextAccess : Prop :=
  ∀ (off : Fin 16) (a : Access) (s : State), ∃ t, exec (switch off a) s = .next t ∧
    (due s = true → off ≠ 9 → t.motorOn = false ∧ t.motorOffPending = false) ∧
    (due s = true → off = 9 → t.motorOn = true ∧ t.motorOffPending = false ∧
      ∀ k, (t.drive k).lastAccessCycle = s.cycleNow) ∧
    (due s = false → off ≠ 9 → t.motorOn = s.motorOn)

/-- R273, R274: a change of drive flushes the drive that was selected and selects the other; selecting the drive already
selected changes nothing. -/
def Obligations.DriveSelectFlushesOnAChange : Prop :=
  Selects 0x0A .drive1Sel ∧ Selects 0x0B .drive2Sel ∧
  ∀ (a : Access) (s t : State), exec (.flush s.selectedDrive) s = .next t →
    Ends (exec (.drive1Sel a) s) a s.dataLatch []
      (if s.selectedDrive = .drive1 then expired s
      else { expired s with
        driveSlot1 := t.driveSlot1, driveSlot2 := t.driveSlot2, selectedDrive := .drive1 }) ∧
    Ends (exec (.drive2Sel a) s) a 0x00 []
      (if s.selectedDrive = .drive2 then expired s
      else { expired s with
        driveSlot1 := t.driveSlot1, driveSlot2 := t.driveSlot2, selectedDrive := .drive2 })

/-- R275, the cases with no fetch: in write mode only `q6` is cleared and a read returns the latch as it was; in read
mode with no disk or the motor off the latch becomes 0x00 and neither cursor nor timestamp changes. -/
def Obligations.Q6LWithoutAFetch : Prop :=
  Selects 0x0C .q6l ∧ ∀ (a : Access) (s : State),
    (s.q7 = true → Ends (exec (.q6l a) s) a s.dataLatch [] { expired s with q6 := false }) ∧
    (s.q7 = false → s.selected.image = none ∨ (expired s).motorOn = false →
      Ends (exec (.q6l a) s) a 0x00 [] { expired s with q6 := false, dataLatch := 0x00 })

/-- R275 on a sector image: elapsed time turns the disk by whole nibble times, the nibble under the head is latched with
bit 7 forced, the cursor steps past it, the timestamp becomes `now`; the fetch is logged (R342) before the access. -/
def Obligations.Q6LFetchesFromASectorImage : Prop :=
  ∀ (a : Access) (s : State) (img img' : Dsk) (buf : List Byte), s.q7 = false → (expired s).motorOn = true →
    s.selected.image = some (.dsk img) → s.selected.quarterTrack < 140 →
    exec (.materializeTrack s.selectedDrive (s.selected.quarterTrack / 4)) s =
      .next ((withImage s s.selectedDrive img').answered (.bytes buf)) →
    let n := (s.cycleNow - s.selected.lastAccessCycle).toNat * 100 / 3074
    let c := (s.selected.cursor + n) % 6656
    let v := buf.getD c 0 ||| 0x80
    Ends (exec (.q6l a) s) a v [.nibbleRead v (s.selected.quarterTrack / 4) ((c + 1) % 6656)]
      (({ expired s with q6 := false, dataLatch := v } : State).setSelected
        { s.selected with
          image := some (.dsk img')
          cursor := (c + 1) % 6656
          lastAccessCycle := s.cycleNow })

/-- R275 with R213, R233 on a WOZ image: the same on a bit-stream; with no track under the head the latch becomes 0x80
and the cursor stays. -/
def Obligations.Q6LFetchesFromAWozImage : Prop :=
  ∀ (a : Access) (s : State) (img : Woz), s.q7 = false → (expired s).motorOn = true →
    s.selected.image = some (.woz img) →
    (∀ T, currentTrack img s.selected.quarterTrack = some T →
      ∃ v count c', NibbleRead T
          (s.selected.cursor + 8 * ((s.cycleNow - s.selected.lastAccessCycle).toNat * 100 / 3074)) v count ∧
        c' = (s.selected.cursor + 8 * ((s.cycleNow - s.selected.lastAccessCycle).toNat * 100 / 3074) + count) %
          T.bitCount ∧
        Ends (exec (.q6l a) s) a (v ||| 0x80) [.nibbleRead (v ||| 0x80) (s.selected.quarterTrack / 4) c']
          (({ expired s with q6 := false, dataLatch := v ||| 0x80 } : State).setSelected
            { s.selected with cursor := c', lastAccessCycle := s.cycleNow })) ∧
    (currentTrack img s.selected.quarterTrack = none →
      Ends (exec (.q6l a) s) a 0x80 [.nibbleRead 0x80 (s.selected.quarterTrack / 4) s.selected.cursor]
        (({ expired s with q6 := false, dataLatch := 0x80 } : State).setSelected
          { s.selected with lastAccessCycle := s.cycleNow }))

/-- R276: in read mode the write-protect status goes into the latch and on the bus; in write mode a read only sets `q6`
and a write latches the value, writes the nibble with the motor on and re-bases the timestamp. -/
def Obligations.Q6HSensesOrWrites : Prop :=
  Selects 0x0D .q6h ∧ ∀ (s t : State) (v : Byte), exec (.writeNibble s.selectedDrive v) s = .next t →
    (s.q7 = false → ∀ a, Ends (exec (.q6h a) s) a (if s.selected.writeProtect then 0x80 else 0x00) []
      { expired s with q6 := true, dataLatch := if s.selected.writeProtect then 0x80 else 0x00 }) ∧
    (s.q7 = true → Ends (exec (.q6h .read) s) .read 0x00 [] { expired s with q6 := true }) ∧
    (s.q7 = true → Ends (exec (.q6h (.write v)) s) (.write v) 0x00 []
      (({ expired s with q6 := true, dataLatch := v } : State).setSelected
        { (if (expired s).motorOn then t.selected else s.selected) with lastAccessCycle := s.cycleNow }))

/-- R277, R278: Q7L and Q7H write `q7` only; a data byte is ignored. -/
def Obligations.Q7SelectsTheMode : Prop :=
  Selects 0x0E .q7l ∧ Selects 0x0F .q7h ∧ ∀ (a : Access) (s : State),
    Ends (exec (.q7l a) s) a s.dataLatch [] { expired s with q7 := false } ∧
    Ends (exec (.q7h a) s) a 0x00 [] { expired s with q7 := true }

/-- R342: after whatever the fetch emits, each access emits its bus address, whether it wrote, and the byte returned for a
read or written for a write. That the address is `0xC080 + SLOT*16 + off` (R61), and that the emissions stand in a state
field, are the model's choice (notes/assumptions/5.md). -/
def Obligations.EveryAccessIsLogged : Prop :=
  ∀ (off : Fin 16) (a : Access) (s : State), ∃ (t : State) (fetched : List LogEvent) (v : Byte),
    exec (switch off a) s = .next t ∧
    t.emitted = fetched ++ [.access (0xC080 + Config.slot * 16 + off.val) (decide (a ≠ .read)) v] ∧
    (a = .read → t.result = .byte v) ∧ (∀ w, a = .write w → v = w ∧ t.result = .nothing) ∧
    (off ≠ 12 → fetched = []) ∧ fetched.length ≤ 1

/-- R279 over all sixteen switches, on the state the access leaves. -/
def Obligations.ReadConvention : Prop :=
  ∀ (off : Fin 16) (s : State), ∃ t, exec (switch off .read) s = .next t ∧
    t.result = .byte (if off.val % 2 = 0 ∨ (off = 13 ∧ t.q7 = false) then t.dataLatch else 0x00)

/-- R280: which offsets can change which factor of the state. -/
def Obligations.TransitionSummary : Prop :=
  ∀ (off : Fin 16) (a : Access) (s : State), ∃ t, exec (switch off a) s = .next t ∧
    (8 ≤ off.val → t.phaseMask = s.phaseMask) ∧
    (off ≠ 9 → due s = false → t.motorOn = s.motorOn) ∧
    (off ≠ 8 → off ≠ 9 → due s = false → t.motorOffPending = s.motorOffPending) ∧
    (off ≠ 8 → t.motorOffCycle = s.motorOffCycle) ∧
    (off ≠ 10 → off ≠ 11 → t.selectedDrive = s.selectedDrive) ∧
    (off ≠ 12 → off ≠ 13 → t.q6 = s.q6) ∧
    (off ≠ 14 → off ≠ 15 → t.q7 = s.q7) ∧
    (¬(off = 12 ∧ s.q7 = false) → ¬(off = 13 ∧ (s.q7 = false ∨ a ≠ .read)) → t.dataLatch = s.dataLatch) ∧
    t.cycleNow = s.cycleNow ∧ t.pending = s.pending ∧ t.calls = s.calls ∧
    ∀ k, (t.drive k).writeProtect = (s.drive k).writeProtect ∧
      (8 ≤ off.val ∨ (expired s).motorOn = false ∨ (s.drive k).image = none ∨ k ≠ s.selectedDrive →
        (t.drive k).quarterTrack = (s.drive k).quarterTrack) ∧
      (off ≠ 12 → off ≠ 13 → (8 ≤ off.val ∨ ∀ img, (s.drive k).image ≠ some (.woz img)) →
        (t.drive k).cursor = (s.drive k).cursor) ∧
      (off ≠ 9 → off ≠ 12 → off ≠ 13 → (t.drive k).lastAccessCycle = (s.drive k).lastAccessCycle) ∧
      (off.val < 10 ∨ 14 ≤ off.val → (t.drive k).image = (s.drive k).image)

/-- R30, R65, U21: a read and a write of one offset, and writes of any two data bytes, leave the same block state, except
at Q6H in write mode; what is returned and logged differs. -/
def Obligations.AccessNotValueOperatesASwitch : Prop :=
  ∀ (off : Fin 16) (a b : Access) (s : State), off ≠ 13 ∨ s.q7 = false →
    ∃ t u, exec (switch off a) s = .next t ∧ exec (switch off b) s = .next u ∧
      { t with result := u.result, emitted := u.emitted } = u

/-- R339: an access acts on the selected drive only, except that MOTOR_ON re-bases both timestamps. -/
def Obligations.UnselectedDriveIsUntouched : Prop :=
  ∀ (off : Fin 16) (a : Access) (s : State) (k : DriveId), k ≠ s.selectedDrive →
    ∃ t, exec (switch off a) s = .next t ∧
      (off ≠ 9 → t.drive k = s.drive k) ∧
      { t.drive k with lastAccessCycle := (s.drive k).lastAccessCycle } = s.drive k

/-! ## The host -/

/-- R301: the count is taken if it does not decrease, else refused with the state unchanged; neither the motor nor a
disk is touched. That a refusal is a next state with the answer `countRefused` is the model's choice
(notes/assumptions/20.md). -/
def Obligations.CycleCountIsPushed : Prop :=
  ∀ (c : Cycle) (s : State),
    (s.cycleNow.toNat ≤ c.toNat → exec (.setCycleCount c) s =
      .next (({ s with cycleNow := c } : State).answered .countTaken)) ∧
    (c.toNat < s.cycleNow.toNat → exec (.setCycleCount c) s = .next (s.answered .countRefused))

/-- R303: with the loader of the format, insertion replaces the image, sets the flag, clamps the head, zeroes the cursor
and re-bases the timestamp; when the load fails that failure is returned and no state changes. -/
def Obligations.InsertDiskLoadsOrChangesNothing : Prop :=
  ∀ (k : DriveId) (file : List Byte) (format : DiskFormat) (wp : Bool) (s : State),
    let loader : Instr := match format with
      | .dskDos => .loadDsk file .dos
      | .dskProdos => .loadDsk file .prodos
      | .woz => .loadWoz file
    (∃ image, exec loader s = .next (s.answered (.image image)) ∧
      exec (.insertDisk k file format wp) s = .next ((s.setDrive k
        { image := some image
          writeProtect := wp || (match image with | .dsk _ => false | .woz img => img.infoWriteProtected)
          quarterTrack := min (s.drive k).quarterTrack (topQuarterTrack image)
          cursor := 0
          lastAccessCycle := s.cycleNow }).answered .inserted)) ∨
    ∃ code, failureClass code = .loadError ∧ exec loader s = .next (s.answered (.failed code)) ∧
      exec (.insertDisk k file format wp) s = .next (s.answered (.failed code))

/-- R304, R306: eject and save return the sector bytes a flush leaves (none for a WOZ image or an empty drive); eject
empties the drive and clears its flag and nothing else, save keeps the flushed image in the drive. -/
def Obligations.EjectAndSaveReturnTheFlushedSectors : Prop :=
  ∀ (k : DriveId) (s t : State), exec (.flush k) s = .next t →
    (∀ img : Dsk, (t.drive k).image = some (.dsk img) →
      exec (.ejectDisk k) s = .next ((s.setDrive k
        { s.drive k with image := none, writeProtect := false }).answered (.sectorFile img.sectors)) ∧
      exec (.save k) s = .next (t.answered (.sectorFile img.sectors))) ∧
    (∀ img : Woz, (s.drive k).image = some (.woz img) →
      exec (.ejectDisk k) s = .next ((s.setDrive k
        { s.drive k with image := none, writeProtect := false }).answered .absent) ∧
      exec (.save k) s = .next (s.answered .absent)) ∧
    ((s.drive k).image = none →
      exec (.ejectDisk k) s = .next (s.answered .absent) ∧ exec (.save k) s = .next (s.answered .absent))

/-- R308: the record, no side effect, and agreement about the motor with a bus access at the same `cycle_now` (a Q7L
access, which does not touch the motor itself); R309: the ROM byte of the low eight address bits, whatever the ROM holds,
with no state written. -/
def Obligations.ObservationAndRomReadWriteNoState : Prop :=
  ∀ s : State,
    (∃ (o : Observation) (t : State), exec .observe s = .next (s.answered (.observation o)) ∧
      exec (.q7l .read) s = .next t ∧ o.motor = t.motorOn ∧
      o.quarterTrack = s.selected.quarterTrack ∧ o.track = s.selected.quarterTrack / 4 ∧
      o.selectedDrive = s.selectedDrive ∧ o.phaseMask = s.phaseMask ∧ o.dataLatch = s.dataLatch) ∧
    ∀ a : BitVec 16,
      exec (.romRead a) s = .next (s.answered (.byte (Config.bootRom (BitVec.ofNat 8 (a.toNat % 256)))))

/-- R350, R351: power-cycle sets every piece of the block's state to its reset value from any state; soft reset changes
none. -/
def Obligations.PowerCycleResetsAndSoftResetDoesNot : Prop :=
  ∀ s : State, exec .softReset s = .next (s.answered .nothing) ∧
    ∃ t, exec .powerCycle s = .next t ∧
      t.motorOn = false ∧ t.motorOffPending = false ∧ t.motorOffCycle = 0 ∧ t.selectedDrive = .drive1 ∧
      t.q6 = false ∧ t.q7 = false ∧ t.dataLatch = 0x00 ∧ t.phaseMask = 0b0000 ∧ t.cycleNow = 0 ∧
      (∀ k, (t.drive k).image = none ∧ (t.drive k).writeProtect = false ∧ (t.drive k).quarterTrack = 0 ∧
        (t.drive k).cursor = 0 ∧ (t.drive k).lastAccessCycle = 0)

/-! ## Invariants and whole-machine rules -/

/-- The reset state meets the invariant of `Sys2Proof.Machine.State.Inv`. -/
def Obligations.ResetMeetsTheInvariant : Prop := State.reset.Inv

/-- R35 (a), (c), (e), (f), with R306, R356 and the canonical form of the sector store: every step keeps them, whatever
is requested. -/
def Obligations.EveryStepKeepsTheInvariant : Prop :=
  ∀ s t : State, s.Inv → step s = .next t → t.Inv

/-- R26, R72 (e): the bit-streams are never written: whatever the operation, a WOZ image in a drive stays as it is, or
leaves the drive by power-cycle, eject or another insertion. -/
def Obligations.WozImagesAreNeverWritten : Prop :=
  ∀ (i : Instr) (s t : State) (k : DriveId) (img : Woz), exec i s = .next t →
    (s.drive k).image = some (.woz img) → (t.drive k).image = some (.woz img) ∨ i = .powerCycle ∨
      i = .ejectDisk k ∨ ∃ file format wp, i = .insertDisk k file format wp

/-- R356: no operation but power-cycle decreases `cycle_now`. -/
def Obligations.CycleCountNeverDecreases : Prop :=
  ∀ (i : Instr) (s t : State), exec i s = .next t → i ≠ .powerCycle → s.cycleNow.toNat ≤ t.cycleNow.toNat

/-- R249: an operation other than power-cycle and insertion moves a head that is in its image's range by at most three
quarter-tracks, and keeps it in that range. -/
def Obligations.HeadMovesAtMostThreeQuarterTracks : Prop :=
  ∀ (i : Instr) (s t : State) (k : DriveId), exec i s = .next t → i ≠ .powerCycle →
    (∀ file format wp, i ≠ .insertDisk k file format wp) →
    (∀ image, (s.drive k).image = some image → (s.drive k).quarterTrack ≤ topQuarterTrack image) →
      (t.drive k).quarterTrack ≤ (s.drive k).quarterTrack + 3 ∧
      (s.drive k).quarterTrack ≤ (t.drive k).quarterTrack + 3 ∧
      ∀ image, (s.drive k).image = some image → (t.drive k).quarterTrack ≤ topQuarterTrack image
end

