-- ==== Sys2Proof/Laws/Memory.lean ====
section
/-! SUPPORT. The laws of the byte store: a read after a write, and that every operation keeps the canonical form. -/

namespace Sys2Proof.Machine

@[simp] theorem Memory.read_nil (a : Nat) : Memory.read [] a = Memory.unlisted := rfl

theorem Memory.read_cons (k : Nat) (v : Byte) (r : Memory) (a : Nat) :
    Memory.read ((k, v) :: r) a = if k = a then v else Memory.read r a := rfl

/-- An address no cell lists reads as the unlisted value. -/
theorem Memory.read_of_notMem (m : Memory) (a : Nat) (h : ∀ c ∈ m, c.1 ≠ a) : Memory.read m a = Memory.unlisted := by
  induction m with
  | nil => rfl
  | cons c r ih =>
    have hc : c.1 ≠ a := h c (by simp)
    simp only [Memory.read, if_neg hc]
    exact ih fun d hd => h d (by simp [hd])

theorem Memory.wf_nil : Memory.wf [] := by simp [Memory.wf]

theorem Memory.wf_tail {c : Host.Cell} {r : Memory} (h : Memory.wf (c :: r)) : Memory.wf r :=
  ⟨(List.pairwise_cons.mp h.1).2, fun d hd => h.2 d (by simp [hd])⟩

/-- In the canonical form every later cell lies above the first. -/
theorem Memory.lt_of_wf {c : Host.Cell} {r : Memory} (h : Memory.wf (c :: r)) : ∀ d ∈ r, c.1 < d.1 :=
  (List.pairwise_cons.mp h.1).1

/-! ### One byte -/

theorem Memory.mem_write {m : Memory} {a : Nat} {v : Byte} {c : Host.Cell} (h : c ∈ Memory.write m a v) :
    c = (a, v) ∧ v ≠ Memory.unlisted ∨ c ∈ m := by
  induction m with
  | nil =>
    simp only [Memory.write] at h
    split at h <;> simp_all
  | cons d r ih =>
    obtain ⟨k, w⟩ := d
    simp only [Memory.write] at h
    split at h
    · split at h
      · exact .inr h
      · rcases List.mem_cons.mp h with h | h
        · exact .inl ⟨h, ‹_›⟩
        · exact .inr h
    · split at h
      · split at h
        · exact .inr (by simp [h])
        · rcases List.mem_cons.mp h with h | h
          · exact .inl ⟨h, ‹_›⟩
          · exact .inr (by simp [h])
      · rcases List.mem_cons.mp h with h | h
        · exact .inr (by simp [h])
        · rcases ih h with h | h
          · exact .inl h
          · exact .inr (by simp [h])

/-- A write keeps the canonical form. -/
theorem Memory.wf_write {m : Memory} (hm : Memory.wf m) (a : Nat) (v : Byte) : Memory.wf (Memory.write m a v) := by
  refine ⟨?_, fun c hc => ?_⟩
  · induction m with
    | nil => simp only [Memory.write]; split <;> simp
    | cons d r ih =>
      obtain ⟨k, w⟩ := d
      have hlt := Memory.lt_of_wf hm
      have hr := (Memory.wf_tail hm)
      simp only [Memory.write]
      split
      · next h =>
        split
        · exact hm.1
        · refine List.pairwise_cons.mpr ⟨fun c hc => ?_, hm.1⟩
          rcases List.mem_cons.mp hc with rfl | hc
          · exact h
          · exact Nat.lt_trans h (hlt c hc)
      · split
        · next h =>
          split
          · exact hr.1
          · exact List.pairwise_cons.mpr ⟨fun c hc => by simpa [h] using hlt c hc, hr.1⟩
        · refine List.pairwise_cons.mpr ⟨fun c hc => ?_, ih hr⟩
          rcases Memory.mem_write hc with ⟨rfl, _⟩ | hc
          · simp only; omega
          · exact hlt c hc
  · rcases Memory.mem_write hc with ⟨rfl, h⟩ | h
    · exact h
    · exact hm.2 c h

/-- A read of the address written gives the value written. -/
theorem Memory.read_write_same {m : Memory} (hm : Memory.wf m) (a : Nat) (v : Byte) :
    Memory.read (Memory.write m a v) a = v := by
  induction m with
  | nil => simp only [Memory.write]; split <;> simp_all [Memory.read]
  | cons d r ih =>
    obtain ⟨k, w⟩ := d
    have hlt := Memory.lt_of_wf hm
    simp only [Memory.write]
    split
    · next h =>
      split
      · next hv =>
        rw [Memory.read_of_notMem, hv]
        intro c hc
        rcases List.mem_cons.mp hc with rfl | hc
        · exact Nat.ne_of_gt h
        · exact Nat.ne_of_gt (Nat.lt_trans h (hlt c hc))
      · simp [Memory.read]
    · split
      · next h =>
        split
        · next hv =>
          rw [Memory.read_of_notMem, hv]
          intro c hc
          rw [h]
          exact Nat.ne_of_gt (hlt c hc)
        · simp [Memory.read]
      · next h1 h2 => simp only [Memory.read, if_neg (Ne.symm h2)]; exact ih (Memory.wf_tail hm)

/-- A write leaves every other address alone. -/
theorem Memory.read_write_other (m : Memory) {a b : Nat} (h : b ≠ a) (v : Byte) :
    Memory.read (Memory.write m a v) b = Memory.read m b := by
  induction m with
  | nil => simp only [Memory.write]; split <;> simp [Memory.read, Ne.symm h]
  | cons d r ih =>
    obtain ⟨k, w⟩ := d
    simp only [Memory.write]
    split
    · split
      · rfl
      · simp [Memory.read, Ne.symm h]
    · split
      · next hk =>
        subst hk
        split <;> simp [Memory.read, Ne.symm h]
      · simp only [Memory.read, ih]

/-! ### Runs of bytes -/

theorem Memory.ofBytes_nil (base : Nat) : Memory.ofBytes base [] = [] := rfl

theorem Memory.ofBytes_cons (base : Nat) (b : Byte) (bs : List Byte) :
    Memory.ofBytes base (b :: bs) =
      if b = Memory.unlisted then Memory.ofBytes (base + 1) bs else (base, b) :: Memory.ofBytes (base + 1) bs := by
  simp only [Memory.ofBytes, List.zipIdx_cons, List.filterMap_cons]
  by_cases h : b = Memory.unlisted <;> simp [h]

/-- The cells of a run lie inside it and none is listed with the unlisted value. -/
theorem Memory.mem_ofBytes {bs : List Byte} {base : Nat} {c : Host.Cell} (h : c ∈ Memory.ofBytes base bs) :
    base ≤ c.1 ∧ c.1 < base + bs.length ∧ c.2 ≠ Memory.unlisted := by
  induction bs generalizing base with
  | nil => simp [Memory.ofBytes_nil] at h
  | cons b bs ih =>
    rw [Memory.ofBytes_cons] at h
    have step (h : c ∈ Memory.ofBytes (base + 1) bs) : base ≤ c.1 ∧ c.1 < base + (b :: bs).length ∧
        c.2 ≠ Memory.unlisted := by
      obtain ⟨h1, h2, h3⟩ := ih h
      simp only [List.length_cons]
      exact ⟨by omega, by omega, h3⟩
    split at h
    · exact step h
    · rcases List.mem_cons.mp h with rfl | h
      · exact ⟨Nat.le_refl _, by simp, ‹_›⟩
      · exact step h

/-- A store made of bytes is canonical. -/
theorem Memory.wf_ofBytes (base : Nat) (bs : List Byte) : Memory.wf (Memory.ofBytes base bs) := by
  refine ⟨?_, fun c hc => (Memory.mem_ofBytes hc).2.2⟩
  induction bs generalizing base with
  | nil => exact .nil
  | cons b bs ih =>
    rw [Memory.ofBytes_cons]
    split
    · exact ih _
    · exact List.pairwise_cons.mpr ⟨fun c hc => (Memory.mem_ofBytes hc).1, ih _⟩

/-- The byte at an address of a run. -/
theorem Memory.read_ofBytes (base : Nat) (bs : List Byte) (i : Nat) :
    Memory.read (Memory.ofBytes base bs) (base + i) = bs.getD i Memory.unlisted := by
  induction bs generalizing base i with
  | nil => simp [Memory.ofBytes_nil]
  | cons b bs ih =>
    rw [Memory.ofBytes_cons]
    cases i with
    | zero =>
      split
      · next h =>
        rw [Memory.read_of_notMem]
        · simp [h]
        · intro c hc
          have := (Memory.mem_ofBytes hc).1
          omega
      · simp [Memory.read]
    | succ i =>
      have hi : base + (i + 1) = base + 1 + i := by omega
      have hne : base ≠ base + 1 + i := by omega
      split
      · rw [hi, ih]; simp
      · rw [hi, Memory.read, if_neg hne, ih]; simp

theorem Memory.read_append (m n : Memory) (a : Nat) (h : ∀ c ∈ m, c.1 ≠ a) :
    Memory.read (m ++ n) a = Memory.read n a := by
  induction m with
  | nil => rfl
  | cons c r ih =>
    have hc : c.1 ≠ a := h c (by simp)
    simp only [List.cons_append, Memory.read, if_neg hc]
    exact ih fun d hd => h d (by simp [hd])

theorem Memory.read_append_left (m n : Memory) (a : Nat) (h : ∀ c ∈ n, c.1 ≠ a) :
    Memory.read (m ++ n) a = Memory.read m a := by
  induction m with
  | nil => simpa using Memory.read_of_notMem n a h
  | cons c r ih => simp only [List.cons_append, Memory.read, ih]

/-- Filtering by a test on addresses keeps what reads at an address that passes it. -/
theorem Memory.read_filter (m : Memory) (p : Nat → Bool) (a : Nat) (h : p a = true) :
    Memory.read (m.filter fun c => p c.1) a = Memory.read m a := by
  induction m with
  | nil => rfl
  | cons c r ih =>
    obtain ⟨k, v⟩ := c
    by_cases hk : p k = true
    · simp only [List.filter_cons, hk, if_true, Memory.read, ih]
    · have : k ≠ a := fun e => hk (e ▸ h)
      simp only [List.filter_cons, hk, Memory.read, if_neg this]
      simpa using ih

/-- A run written is canonical again. -/
theorem Memory.wf_writeBytes {m : Memory} (hm : Memory.wf m) (base : Nat) (bs : List Byte) :
    Memory.wf (Memory.writeBytes m base bs) := by
  refine ⟨?_, fun c hc => ?_⟩
  · simp only [Memory.writeBytes, List.append_assoc]
    refine List.pairwise_append.mpr ⟨hm.1.filter _, List.pairwise_append.mpr
      ⟨(Memory.wf_ofBytes base bs).1, hm.1.filter _, fun c hc d hd => ?_⟩, fun c hc d hd => ?_⟩
    · have := Memory.mem_ofBytes hc
      have := (List.mem_filter.mp hd).2
      simp only [decide_eq_true_eq] at this
      omega
    · have h1 := (List.mem_filter.mp hc).2
      simp only [decide_eq_true_eq] at h1
      rcases List.mem_append.mp hd with hd | hd
      · have := Memory.mem_ofBytes hd
        omega
      · have := (List.mem_filter.mp hd).2
        simp only [decide_eq_true_eq] at this
        omega
  · simp only [Memory.writeBytes, List.mem_append] at hc
    rcases hc with (hc | hc) | hc
    · exact hm.2 c (List.mem_filter.mp hc).1
    · exact (Memory.mem_ofBytes hc).2.2
    · exact hm.2 c (List.mem_filter.mp hc).1

/-- What a run write leaves listed. -/
theorem Memory.mem_writeBytes {m : Memory} {base : Nat} {bs : List Byte} {c : Host.Cell}
    (h : c ∈ Memory.writeBytes m base bs) : c ∈ m ∨ base ≤ c.1 ∧ c.1 < base + bs.length := by
  simp only [Memory.writeBytes, List.mem_append] at h
  rcases h with (h | h) | h
  · exact .inl (List.mem_filter.mp h).1
  · exact .inr ⟨(Memory.mem_ofBytes h).1, (Memory.mem_ofBytes h).2.1⟩
  · exact .inl (List.mem_filter.mp h).1

/-- A read inside a run written gives the byte written. -/
theorem Memory.read_writeBytes_inside (m : Memory) (base : Nat) (bs : List Byte) {i : Nat} (hi : i < bs.length) :
    Memory.read (Memory.writeBytes m base bs) (base + i) = bs.getD i Memory.unlisted := by
  simp only [Memory.writeBytes, List.append_assoc]
  rw [Memory.read_append, Memory.read_append_left, Memory.read_ofBytes]
  · intro c hc
    have := (List.mem_filter.mp hc).2
    simp only [decide_eq_true_eq] at this
    omega
  · intro c hc
    have := (List.mem_filter.mp hc).2
    simp only [decide_eq_true_eq] at this
    omega

/-- A run write leaves every address outside the run alone. -/
theorem Memory.read_writeBytes_outside (m : Memory) (base : Nat) (bs : List Byte) {a : Nat}
    (h : a < base ∨ base + bs.length ≤ a) :
    Memory.read (Memory.writeBytes m base bs) a = Memory.read m a := by
  simp only [Memory.writeBytes, List.append_assoc]
  rcases h with h | h
  · rw [Memory.read_append_left, Memory.read_filter m (fun k => decide (k < base)) a (by simpa using h)]
    intro c hc
    rcases List.mem_append.mp hc with hc | hc
    · have := Memory.mem_ofBytes hc
      omega
    · have := (List.mem_filter.mp hc).2
      simp only [decide_eq_true_eq] at this
      omega
  · rw [Memory.read_append, Memory.read_append,
      Memory.read_filter m (fun k => decide (base + bs.length ≤ k)) a (by simpa using h)]
    · intro c hc
      have := Memory.mem_ofBytes hc
      omega
    · intro c hc
      have := (List.mem_filter.mp hc).2
      simp only [decide_eq_true_eq] at this
      omega

@[simp] theorem Memory.readBytes_length (m : Memory) (base n : Nat) : (Memory.readBytes m base n).length = n := by
  simp [Memory.readBytes]

/-- A run read is its bytes one by one. -/
theorem Memory.readBytes_eq (m : Memory) (base n : Nat) :
    Memory.readBytes m base n = (List.range n).map fun i => Memory.read m (base + i) := by
  refine List.map_congr_left fun i hi => ?_
  have hi := List.mem_range.mp hi
  exact Memory.read_filter m (fun k => decide (base ≤ k) && decide (k < base + n)) (base + i) (by simp; omega)

end Sys2Proof.Machine
end

