-- ==== Sys2Proof/Laws/Codec.lean ====
section
/-! SUPPORT. Lengths, membership and search: what the codec functions and the synthesizer always give. -/

namespace Sys2Proof.Machine

/-! ### The translate table (R97) -/

theorem translate_mem_t62 (x : SixBit) : translate x ∈ t62 := by revert x; decide

theorem rev62_translate (x : SixBit) : rev62 (translate x) = some x := by revert x; decide

theorem isNibble_translate (x : SixBit) : isNibble (translate x) := by revert x; decide

theorem logicalSector_lt (order : SectorOrder) (p : Nat) : logicalSector order p < 16 := by
  simp only [logicalSector]
  rcases Nat.lt_or_ge p 16 with h | h
  · cases order <;> interval_cases p <;> decide
  · cases order <;> simp [interleave, List.getD, h]

/-! ### Lengths -/

@[simp] theorem sixBitBuffer_length (d : List Byte) : (sixBitBuffer d).length = 86 + d.length := by
  simp [sixBitBuffer]

@[simp] theorem chainFrom_length (prev : SixBit) (xs : List SixBit) : (chainFrom prev xs).length = xs.length + 1 := by
  induction xs generalizing prev with
  | nil => rfl
  | cons x xs ih => simp [chainFrom, ih]

theorem encodeData_length {d : List Byte} (h : d.length = 256) : (encodeData d).length = 343 := by
  simp [encodeData, h]

@[simp] theorem addressField_length (v t s : Byte) : (addressField v t s).length = 14 := rfl

theorem sectorNibbles_length (v t s : Byte) {d : List Byte} (h : d.length = 256) :
    (sectorNibbles v t s d).length = 389 := by
  simp [sectorNibbles, encodeData_length h, gap1, gap2, dataPrologue, epilogue]

@[simp] theorem sectorData_length (img : Dsk) (t p : Nat) : (sectorData img t p).length = 256 := by
  simp [sectorData]

@[simp] theorem sectorSlot_length (img : Dsk) (t p : Nat) : (sectorSlot img t p).length = 416 := by
  simp [sectorSlot, sectorNibbles_length, gap3]

@[simp] theorem padTrack_length (out : List Nibble) : (padTrack out).length = 6656 := by
  simp only [padTrack, List.length_take, List.length_append, List.length_replicate, Config.trackNibbles]
  omega

@[simp] theorem nibblize_length (img : Dsk) (t : Nat) : (nibblize img t).length = 6656 := by
  simp [nibblize]

@[simp] theorem unchainFrom_length (prev : SixBit) (xs : List SixBit) :
    (unchainFrom prev xs).length = xs.length := by
  induction xs generalizing prev with
  | nil => rfl
  | cons x xs ih => simp [unchainFrom, ih]

@[simp] theorem circSlice_length (buf : List Byte) (i n : Nat) : (circSlice buf i n).length = n := by
  simp [circSlice]

/-- A decoded data field has 256 bytes. -/
theorem decodeData_length {n d : List Byte} (h : decodeData n = .ok d) : d.length = 256 := by
  simp only [decodeData] at h
  split at h
  · split at h
    · cases h; simp
    · cases h
  · cases h

/-! ### The data of a sector found on a track -/

theorem decodeSector_length {buf : List Byte} {i : Nat} {v t s : Byte} {d : List Byte}
    (h : decodeSector buf i = .ok (v, t, s, d)) : d.length = 256 := by
  simp only [decodeSector] at h
  split at h
  · cases h
  · split at h
    · cases h
    · split at h
      · cases h
      · next hd => cases h; exact decodeData_length hd

/-- The candidate loop stores nothing, or one sector of the track inside the track's own bytes. -/
theorem storeCandidate_cases (buf : List Nibble) (t : Nat) (img : Dsk) (i : Nat) :
    storeCandidate buf t img i = img ∨
    ∃ l d, l < 16 ∧ d.length = 256 ∧
      storeCandidate buf t img i = { img with sectors := Memory.writeBytes img.sectors (sectorOffset t l) d } := by
  simp only [storeCandidate]
  split
  · exact .inl rfl
  · next hd =>
    split
    · exact .inr ⟨_, _, logicalSector_lt _ _, decodeSector_length hd, rfl⟩
    · exact .inl rfl

/-- A sector's 256 bytes lie inside its track's 4096. -/
theorem sectorOffset_bounds {t l : Nat} (h : l < 16) :
    t * 4096 ≤ sectorOffset t l ∧ sectorOffset t l + 256 ≤ t * 4096 + 4096 := by
  simp only [sectorOffset, Config.dskSectors, Config.sectorBytes]
  omega

/-! ### Searching -/

/-- What the search of R155 finds: the first data prologue of its range, with no prologue of either kind before it. -/
theorem findDataFrom_ok {buf : List Byte} {turns j k : Nat} (h : findDataFrom buf turns j = .ok k) :
    j ≤ k ∧ k < j + turns ∧ prologueAt buf k dataMark = true ∧
      ∀ m, j ≤ m → m < k → prologueAt buf m addressMark = false ∧ prologueAt buf m dataMark = false := by
  induction turns generalizing j with
  | zero => cases h
  | succ turns ih =>
    simp only [findDataFrom] at h
    split at h
    · cases h
    · next ha =>
      split at h
      · next hd => cases h; exact ⟨Nat.le_refl _, by omega, hd, fun m h1 h2 => by omega⟩
      · next hd =>
        obtain ⟨h1, h2, h3, h4⟩ := ih h
        refine ⟨by omega, by omega, h3, fun m hm1 hm2 => ?_⟩
        rcases Nat.eq_or_lt_of_le hm1 with rfl | hlt
        · exact ⟨by simpa using ha, by simpa using hd⟩
        · exact h4 m hlt hm2

theorem mem_addressStarts {buf : List Nibble} {i : Nat} :
    i ∈ addressStarts buf ↔ i < buf.length ∧ prologueAt buf i addressMark = true := by
  simp only [addressStarts, List.mem_map, List.mem_filter, List.mem_zipIdx_iff_getElem?, Bool.and_eq_true,
    Prod.exists, exists_eq_right]
  constructor
  · rintro ⟨b, hb, -, hp⟩
    exact ⟨(List.getElem?_eq_some_iff.mp hb).1, hp⟩
  · rintro ⟨hi, hp⟩
    refine ⟨buf[i], List.getElem?_eq_getElem hi, ?_, hp⟩
    have h := hp
    simp only [prologueAt, Bool.and_eq_true, circAt, Nat.mod_eq_of_lt hi] at h
    simpa [List.getD, List.getElem?_eq_getElem hi] using h.1.1

end Sys2Proof.Machine
end

