-- ==== Sys2Proof/Laws/State.lean ====
section
/-! SUPPORT. What each named update of a state, a drive slot or a sector image does to each field. -/

namespace Sys2Proof.Machine

/-! ### Reading and writing a drive slot -/

@[simp] theorem State.drive_drive1 (s : State) : s.drive .drive1 = s.driveSlot1 := rfl
@[simp] theorem State.drive_drive2 (s : State) : s.drive .drive2 = s.driveSlot2 := rfl
@[simp] theorem State.setDrive_drive1 (s : State) (d : DriveSlot) :
    s.setDrive .drive1 d = { s with driveSlot1 := d } := rfl
@[simp] theorem State.setDrive_drive2 (s : State) (d : DriveSlot) :
    s.setDrive .drive2 d = { s with driveSlot2 := d } := rfl
@[simp] theorem State.drive_setDrive_same (s : State) (k : DriveId) (d : DriveSlot) :
    (s.setDrive k d).drive k = d := by cases k <;> rfl
@[simp] theorem State.setDrive_drive (s : State) (k : DriveId) : s.setDrive k (s.drive k) = s := by cases k <;> rfl
@[simp] theorem State.setDrive_setDrive (s : State) (k : DriveId) (d e : DriveSlot) :
    (s.setDrive k d).setDrive k e = s.setDrive k e := by cases k <;> rfl

theorem State.drive_setDrive_other (s : State) {k j : DriveId} (h : j ≠ k) (d : DriveSlot) :
    (s.setDrive k d).drive j = s.drive j := by
  cases k <;> cases j <;> first | rfl | exact absurd rfl h

/-! ### `setDrive` and the other fields -/

@[simp] theorem State.setDrive_motorOn (s : State) (k : DriveId) (d : DriveSlot) : (s.setDrive k d).motorOn = s.motorOn := by cases k <;> rfl
@[simp] theorem State.setDrive_selectedDrive (s : State) (k : DriveId) (d : DriveSlot) : (s.setDrive k d).selectedDrive = s.selectedDrive := by cases k <;> rfl
@[simp] theorem State.setDrive_q6 (s : State) (k : DriveId) (d : DriveSlot) : (s.setDrive k d).q6 = s.q6 := by cases k <;> rfl
@[simp] theorem State.setDrive_q7 (s : State) (k : DriveId) (d : DriveSlot) : (s.setDrive k d).q7 = s.q7 := by cases k <;> rfl
@[simp] theorem State.setDrive_dataLatch (s : State) (k : DriveId) (d : DriveSlot) : (s.setDrive k d).dataLatch = s.dataLatch := by cases k <;> rfl
@[simp] theorem State.setDrive_phaseMask (s : State) (k : DriveId) (d : DriveSlot) : (s.setDrive k d).phaseMask = s.phaseMask := by cases k <;> rfl
@[simp] theorem State.setDrive_motorOffPending (s : State) (k : DriveId) (d : DriveSlot) : (s.setDrive k d).motorOffPending = s.motorOffPending := by cases k <;> rfl
@[simp] theorem State.setDrive_motorOffCycle (s : State) (k : DriveId) (d : DriveSlot) : (s.setDrive k d).motorOffCycle = s.motorOffCycle := by cases k <;> rfl
@[simp] theorem State.setDrive_cycleNow (s : State) (k : DriveId) (d : DriveSlot) : (s.setDrive k d).cycleNow = s.cycleNow := by cases k <;> rfl
@[simp] theorem State.setDrive_pending (s : State) (k : DriveId) (d : DriveSlot) : (s.setDrive k d).pending = s.pending := by cases k <;> rfl
@[simp] theorem State.setDrive_calls (s : State) (k : DriveId) (d : DriveSlot) : (s.setDrive k d).calls = s.calls := by cases k <;> rfl
@[simp] theorem State.setDrive_result (s : State) (k : DriveId) (d : DriveSlot) : (s.setDrive k d).result = s.result := by cases k <;> rfl
@[simp] theorem State.setDrive_emitted (s : State) (k : DriveId) (d : DriveSlot) : (s.setDrive k d).emitted = s.emitted := by cases k <;> rfl

/-! ### `setSelected` and the other fields -/

@[simp] theorem State.setSelected_motorOn (s : State) (d : DriveSlot) : (s.setSelected d).motorOn = s.motorOn := by simp [State.setSelected]
@[simp] theorem State.setSelected_selectedDrive (s : State) (d : DriveSlot) : (s.setSelected d).selectedDrive = s.selectedDrive := by simp [State.setSelected]
@[simp] theorem State.setSelected_q6 (s : State) (d : DriveSlot) : (s.setSelected d).q6 = s.q6 := by simp [State.setSelected]
@[simp] theorem State.setSelected_q7 (s : State) (d : DriveSlot) : (s.setSelected d).q7 = s.q7 := by simp [State.setSelected]
@[simp] theorem State.setSelected_dataLatch (s : State) (d : DriveSlot) : (s.setSelected d).dataLatch = s.dataLatch := by simp [State.setSelected]
@[simp] theorem State.setSelected_phaseMask (s : State) (d : DriveSlot) : (s.setSelected d).phaseMask = s.phaseMask := by simp [State.setSelected]
@[simp] theorem State.setSelected_motorOffPending (s : State) (d : DriveSlot) : (s.setSelected d).motorOffPending = s.motorOffPending := by simp [State.setSelected]
@[simp] theorem State.setSelected_motorOffCycle (s : State) (d : DriveSlot) : (s.setSelected d).motorOffCycle = s.motorOffCycle := by simp [State.setSelected]
@[simp] theorem State.setSelected_cycleNow (s : State) (d : DriveSlot) : (s.setSelected d).cycleNow = s.cycleNow := by simp [State.setSelected]
@[simp] theorem State.setSelected_pending (s : State) (d : DriveSlot) : (s.setSelected d).pending = s.pending := by simp [State.setSelected]
@[simp] theorem State.setSelected_calls (s : State) (d : DriveSlot) : (s.setSelected d).calls = s.calls := by simp [State.setSelected]
@[simp] theorem State.setSelected_result (s : State) (d : DriveSlot) : (s.setSelected d).result = s.result := by simp [State.setSelected]
@[simp] theorem State.setSelected_emitted (s : State) (d : DriveSlot) : (s.setSelected d).emitted = s.emitted := by simp [State.setSelected]

@[simp] theorem State.selected_setSelected (s : State) (d : DriveSlot) : (s.setSelected d).selected = d := by
  simp [State.selected, State.setSelected]

/-! ### The answer of an operation -/

@[simp] theorem State.answered_motorOn (s : State) (r : Result) : (s.answered r).motorOn = s.motorOn := rfl
@[simp] theorem State.answered_selectedDrive (s : State) (r : Result) : (s.answered r).selectedDrive = s.selectedDrive := rfl
@[simp] theorem State.answered_q6 (s : State) (r : Result) : (s.answered r).q6 = s.q6 := rfl
@[simp] theorem State.answered_q7 (s : State) (r : Result) : (s.answered r).q7 = s.q7 := rfl
@[simp] theorem State.answered_dataLatch (s : State) (r : Result) : (s.answered r).dataLatch = s.dataLatch := rfl
@[simp] theorem State.answered_phaseMask (s : State) (r : Result) : (s.answered r).phaseMask = s.phaseMask := rfl
@[simp] theorem State.answered_motorOffPending (s : State) (r : Result) : (s.answered r).motorOffPending = s.motorOffPending := rfl
@[simp] theorem State.answered_motorOffCycle (s : State) (r : Result) : (s.answered r).motorOffCycle = s.motorOffCycle := rfl
@[simp] theorem State.answered_cycleNow (s : State) (r : Result) : (s.answered r).cycleNow = s.cycleNow := rfl
@[simp] theorem State.answered_driveSlot1 (s : State) (r : Result) : (s.answered r).driveSlot1 = s.driveSlot1 := rfl
@[simp] theorem State.answered_driveSlot2 (s : State) (r : Result) : (s.answered r).driveSlot2 = s.driveSlot2 := rfl
@[simp] theorem State.answered_pending (s : State) (r : Result) : (s.answered r).pending = s.pending := rfl
@[simp] theorem State.answered_calls (s : State) (r : Result) : (s.answered r).calls = s.calls := rfl
@[simp] theorem State.answered_result (s : State) (r : Result) : (s.answered r).result = r := rfl
@[simp] theorem State.answered_emitted (s : State) (r : Result) : (s.answered r).emitted = [] := rfl

@[simp] theorem State.answered_drive (s : State) (r : Result) (k : DriveId) : (s.answered r).drive k = s.drive k := by
  cases k <;> rfl

/-! ### The motor timeout (R262: "Nothing else changes at expiry") -/

@[simp] theorem evalMotorTimeout_selectedDrive (s : State) : (evalMotorTimeout s).selectedDrive = s.selectedDrive := by simp only [evalMotorTimeout]; split <;> rfl
@[simp] theorem evalMotorTimeout_q6 (s : State) : (evalMotorTimeout s).q6 = s.q6 := by simp only [evalMotorTimeout]; split <;> rfl
@[simp] theorem evalMotorTimeout_q7 (s : State) : (evalMotorTimeout s).q7 = s.q7 := by simp only [evalMotorTimeout]; split <;> rfl
@[simp] theorem evalMotorTimeout_dataLatch (s : State) : (evalMotorTimeout s).dataLatch = s.dataLatch := by simp only [evalMotorTimeout]; split <;> rfl
@[simp] theorem evalMotorTimeout_phaseMask (s : State) : (evalMotorTimeout s).phaseMask = s.phaseMask := by simp only [evalMotorTimeout]; split <;> rfl
@[simp] theorem evalMotorTimeout_motorOffCycle (s : State) : (evalMotorTimeout s).motorOffCycle = s.motorOffCycle := by simp only [evalMotorTimeout]; split <;> rfl
@[simp] theorem evalMotorTimeout_cycleNow (s : State) : (evalMotorTimeout s).cycleNow = s.cycleNow := by simp only [evalMotorTimeout]; split <;> rfl
@[simp] theorem evalMotorTimeout_driveSlot1 (s : State) : (evalMotorTimeout s).driveSlot1 = s.driveSlot1 := by simp only [evalMotorTimeout]; split <;> rfl
@[simp] theorem evalMotorTimeout_driveSlot2 (s : State) : (evalMotorTimeout s).driveSlot2 = s.driveSlot2 := by simp only [evalMotorTimeout]; split <;> rfl
@[simp] theorem evalMotorTimeout_pending (s : State) : (evalMotorTimeout s).pending = s.pending := by simp only [evalMotorTimeout]; split <;> rfl
@[simp] theorem evalMotorTimeout_calls (s : State) : (evalMotorTimeout s).calls = s.calls := by simp only [evalMotorTimeout]; split <;> rfl
@[simp] theorem evalMotorTimeout_result (s : State) : (evalMotorTimeout s).result = s.result := by simp only [evalMotorTimeout]; split <;> rfl
@[simp] theorem evalMotorTimeout_emitted (s : State) : (evalMotorTimeout s).emitted = s.emitted := by simp only [evalMotorTimeout]; split <;> rfl

@[simp] theorem evalMotorTimeout_drive (s : State) (k : DriveId) : (evalMotorTimeout s).drive k = s.drive k := by
  cases k <;> simp
@[simp] theorem evalMotorTimeout_selected (s : State) : (evalMotorTimeout s).selected = s.selected := by
  simp [State.selected]

/-! ### Drive slots -/

@[simp] theorem rebased_image (now : Cycle) (d : DriveSlot) : (rebased now d).image = d.image := rfl
@[simp] theorem rebased_writeProtect (now : Cycle) (d : DriveSlot) : (rebased now d).writeProtect = d.writeProtect := rfl
@[simp] theorem rebased_quarterTrack (now : Cycle) (d : DriveSlot) : (rebased now d).quarterTrack = d.quarterTrack := rfl
@[simp] theorem rebased_cursor (now : Cycle) (d : DriveSlot) : (rebased now d).cursor = d.cursor := rfl
@[simp] theorem rebased_lastAccessCycle (now : Cycle) (d : DriveSlot) : (rebased now d).lastAccessCycle = now := rfl
@[simp] theorem flushSlot_image (d : DriveSlot) : (flushSlot d).image = d.image.map flushImage := rfl
@[simp] theorem flushSlot_writeProtect (d : DriveSlot) : (flushSlot d).writeProtect = d.writeProtect := rfl
@[simp] theorem flushSlot_quarterTrack (d : DriveSlot) : (flushSlot d).quarterTrack = d.quarterTrack := rfl
@[simp] theorem flushSlot_cursor (d : DriveSlot) : (flushSlot d).cursor = d.cursor := rfl
@[simp] theorem flushSlot_lastAccessCycle (d : DriveSlot) : (flushSlot d).lastAccessCycle = d.lastAccessCycle := rfl
@[simp] theorem withSectorImage_image (d : DriveSlot) (img : Dsk) : (withSectorImage d img).image = some (.dsk img) := rfl
@[simp] theorem withSectorImage_writeProtect (d : DriveSlot) (img : Dsk) : (withSectorImage d img).writeProtect = d.writeProtect := rfl
@[simp] theorem withSectorImage_quarterTrack (d : DriveSlot) (img : Dsk) : (withSectorImage d img).quarterTrack = d.quarterTrack := rfl
@[simp] theorem withSectorImage_cursor (d : DriveSlot) (img : Dsk) : (withSectorImage d img).cursor = d.cursor := rfl
@[simp] theorem withSectorImage_lastAccessCycle (d : DriveSlot) (img : Dsk) : (withSectorImage d img).lastAccessCycle = d.lastAccessCycle := rfl

/-! ### Sector images -/

@[simp] theorem Dsk.setCache_order (img : Dsk) (t : Nat) (buf : List Nibble) : (img.setCache t buf).order = img.order := rfl
@[simp] theorem Dsk.setCache_sectors (img : Dsk) (t : Nat) (buf : List Nibble) : (img.setCache t buf).sectors = img.sectors := rfl
@[simp] theorem Dsk.setCache_dirty (img : Dsk) (t : Nat) (buf : List Nibble) : (img.setCache t buf).dirty = img.dirty := rfl
@[simp] theorem Dsk.setCache_volume (img : Dsk) (t : Nat) (buf : List Nibble) : (img.setCache t buf).volume = img.volume := rfl
@[simp] theorem Dsk.setDirty_order (img : Dsk) (t : Nat) (b : Bool) : (img.setDirty t b).order = img.order := rfl
@[simp] theorem Dsk.setDirty_sectors (img : Dsk) (t : Nat) (b : Bool) : (img.setDirty t b).sectors = img.sectors := rfl
@[simp] theorem Dsk.setDirty_cache (img : Dsk) (t : Nat) (b : Bool) : (img.setDirty t b).cache = img.cache := rfl
@[simp] theorem Dsk.setDirty_volume (img : Dsk) (t : Nat) (b : Bool) : (img.setDirty t b).volume = img.volume := rfl

/-- `cache[t] <- buf` and a later read of `cache[u]`. -/
theorem Dsk.cacheAt_setCache (img : Dsk) {t : Nat} (ht : t < 35) (u : Nat) (buf : List Nibble) :
    (img.setCache t buf).cacheAt u = if u = t then some buf else img.cacheAt u := by
  simp only [Dsk.cacheAt, Dsk.setCache, Vector.getElem?_setIfInBounds]
  by_cases h : t = u
  · subst h; simp [ht]
  · simp [h, Ne.symm h]

/-- `dirty[t] <- b` and a later read of `dirty[u]`. -/
theorem Dsk.dirtyAt_setDirty (img : Dsk) {t : Nat} (ht : t < 35) (u : Nat) (b : Bool) :
    (img.setDirty t b).dirtyAt u = if u = t then b else img.dirtyAt u := by
  simp only [Dsk.dirtyAt, Dsk.setDirty, Vector.getElem?_setIfInBounds]
  by_cases h : t = u
  · subst h; simp [ht]
  · simp [h, Ne.symm h]

@[simp] theorem Dsk.dirtyAt_setCache (img : Dsk) (t u : Nat) (buf : List Nibble) :
    (img.setCache t buf).dirtyAt u = img.dirtyAt u := rfl
@[simp] theorem Dsk.cacheAt_setDirty (img : Dsk) (t u : Nat) (b : Bool) :
    (img.setDirty t b).cacheAt u = img.cacheAt u := rfl

/-- There are thirty-five slots: beyond them nothing is cached and nothing is dirty. -/
theorem Dsk.cacheAt_of_ge (img : Dsk) {t : Nat} (ht : 35 ≤ t) : img.cacheAt t = none := by
  simp [Dsk.cacheAt, Vector.getElem?_eq_none ht]

theorem Dsk.dirtyAt_of_ge (img : Dsk) {t : Nat} (ht : 35 ≤ t) : img.dirtyAt t = false := by
  simp [Dsk.dirtyAt, Vector.getElem?_eq_none ht]

end Sys2Proof.Machine
end

