-- ==== Sys2Proof/Laws/Drive.lean ====
section
/-! SUPPORT. What each operation on a drive slot or its image can do. -/

namespace Sys2Proof.Machine

/-! ### The track cache (R174) -/

theorem trackBuffer_cached {img : Dsk} {t : Nat} {buf : List Nibble} (h : img.cacheAt t = some buf) :
    trackBuffer img t = buf := by
  simp [trackBuffer, h]

theorem trackBuffer_absent {img : Dsk} {t : Nat} (h : img.cacheAt t = none) : trackBuffer img t = nibblize img t := by
  simp [trackBuffer, h]

theorem materialize_cached {img : Dsk} {t : Nat} {buf : List Nibble} (h : img.cacheAt t = some buf) :
    materialize img t = img := by
  simp [materialize, h]

/-- After materialization the track's buffer is present, and every other slot is as before. -/
theorem cacheAt_materialize (img : Dsk) {t : Nat} (ht : t < 35) (u : Nat) :
    (materialize img t).cacheAt u = if u = t then some (trackBuffer img t) else img.cacheAt u := by
  cases h : img.cacheAt t with
  | none => simp [materialize, trackBuffer, h, Dsk.cacheAt_setCache img ht]
  | some buf =>
    rw [materialize_cached h, trackBuffer_cached h]
    split
    · next e => rw [e, h]
    · rfl

/-- Materialization writes no sector byte and no dirty flag (R174). -/
theorem materialize_sectors (img : Dsk) (t : Nat) : (materialize img t).sectors = img.sectors := by
  simp only [materialize]; split <;> rfl

theorem materialize_dirty (img : Dsk) (t : Nat) : (materialize img t).dirty = img.dirty := by
  simp only [materialize]; split <;> rfl

theorem materialize_order (img : Dsk) (t : Nat) : (materialize img t).order = img.order := by
  simp only [materialize]; split <;> rfl

theorem materialize_volume (img : Dsk) (t : Nat) : (materialize img t).volume = img.volume := by
  simp only [materialize]; split <;> rfl

/-! ### Head arithmetic (R245) -/

/-- "yielding a ±1..±3 quarter-track delta" or no motion. -/
theorem headDelta_bounds (q p : Nat) : -3 ≤ headDelta q p ∧ headDelta q p ≤ 3 := by
  simp only [headDelta]
  split
  · omega
  · split <;> omega

theorem clampHead_le (x : Int) (hi : Nat) : clampHead x hi ≤ hi := by
  simp only [clampHead]
  split
  · omega
  · split <;> omega

/-- `clampHead` is the clamp of R10. -/
theorem clampHead_eq (x : Int) (hi : Nat) : clampHead x hi = (max 0 (min x hi)).toNat := by
  simp only [clampHead]
  split
  · omega
  · split <;> omega

theorem magnetToPosition_lt {mask : BitVec 4} {p : Nat} (h : magnetToPosition mask = some p) : p < 8 := by
  have all : ∀ m : BitVec 4, ∀ q ∈ magnetToPosition m, q < 8 := by decide
  exact all mask p h

/-! ### Drive slots -/

/-- `fixCursor` writes at most the cursor (R246). -/
theorem fixCursor_eq (d : DriveSlot) : fixCursor d = { d with cursor := (fixCursor d).cursor } := by
  simp only [fixCursor]
  split
  · split <;> rfl
  · rfl
  · rfl

/-- `advanceBitPosition` writes at most the cursor (R233). -/
theorem advance_eq (d : DriveSlot) (e : Nat) : advance d e = { d with cursor := (advance d e).cursor } := by
  simp only [advance]
  split
  · rfl
  · split <;> rfl

/-- A head step does nothing, or it moves the head of a drive with a disk by the delta of a valid mask, clamped. -/
theorem stepHead_cases (d : DriveSlot) (mask : BitVec 4) :
    ((d.image = none ∨ magnetToPosition mask = none) ∧ stepHead d mask = d) ∨
    ∃ image p q, d.image = some image ∧ magnetToPosition mask = some p ∧
      q = clampHead ((d.quarterTrack : Int) + headDelta d.quarterTrack p) (tracksOf image * 4 - 1) ∧
      stepHead d mask = fixCursor { d with quarterTrack := q } := by
  cases hi : d.image with
  | none => exact .inl ⟨.inl rfl, by simp [stepHead, hi]⟩
  | some image =>
    cases hp : magnetToPosition mask with
    | none => exact .inl ⟨.inr rfl, by simp [stepHead, hi, hp]⟩
    | some p => exact .inr ⟨image, p, _, rfl, rfl, rfl, by simp [stepHead, hi, hp]⟩

/-- A bit read writes at most the cursor (R212). -/
theorem nextBit_eq (d : DriveSlot) : (nextBit d).2 = { d with cursor := (nextBit d).2.cursor } := by
  simp only [nextBit]; split <;> rfl

/-- So does the assembly of a nibble (R213). -/
theorem assembleNibble_eq (n : Nat) (acc : Byte) (d : DriveSlot) :
    (assembleNibble n acc d).2 = { d with cursor := (assembleNibble n acc d).2.cursor } := by
  induction n generalizing acc d with
  | zero => rfl
  | succ n ih =>
    simp only [assembleNibble]
    split
    · rfl
    · rw [ih, nextBit_eq d]

theorem nextWozNibble_eq (n : Nat) (d : DriveSlot) :
    (nextWozNibble n d).2 = { d with cursor := (nextWozNibble n d).2.cursor } := by
  simp only [nextWozNibble]
  split
  · rfl
  · exact assembleNibble_eq n 0 d

/-- A nibble write is ignored, or it stores one nibble of the track under the head and steps the cursor (R240). -/
theorem storeNibble_cases (d : DriveSlot) (v : Byte) :
    (storeNibble d v = d ∧ (d.writeProtect = true ∨ ∀ img, d.image ≠ some (.dsk img))) ∨
    ∃ img, d.image = some (.dsk img) ∧ d.writeProtect = false ∧
      storeNibble d v =
        { d with
          image := some (.dsk (putNibble img (trackOf d.quarterTrack) (d.cursor % 6656) v))
          cursor := (d.cursor % 6656 + 1) % 6656 } := by
  cases hi : d.image with
  | none => exact .inl ⟨by simp [storeNibble, hi], .inr (by simp)⟩
  | some image =>
    cases image with
    | woz img => exact .inl ⟨by simp [storeNibble, hi], .inr (by simp)⟩
    | dsk img =>
      cases hw : d.writeProtect
      · exact .inr ⟨img, rfl, rfl, by simp [storeNibble, hi, hw]⟩
      · exact .inl ⟨by simp [storeNibble, hi, hw], .inl rfl⟩

/-- The sector image after a nibble is put: one buffer element and one dirty flag (R240). -/
theorem putNibble_cacheAt (img : Dsk) {t : Nat} (ht : t < 35) (c : Nat) (v : Byte) (u : Nat) :
    (putNibble img t c v).cacheAt u =
      if u = t then some ((trackBuffer img t).set c (v ||| 0x80)) else img.cacheAt u := by
  simp [putNibble, Dsk.cacheAt_setCache img ht]

theorem putNibble_dirtyAt (img : Dsk) {t : Nat} (ht : t < 35) (c : Nat) (v : Byte) (u : Nat) :
    (putNibble img t c v).dirtyAt u = if u = t then true else img.dirtyAt u := by
  simp [putNibble, Dsk.dirtyAt_setDirty _ ht]

end Sys2Proof.Machine
end

