-- ==== Sys2Proof/Laws/Flush.lean ====
section
/-! SUPPORT. Denibblizing and flushing write the sector bytes and the dirty flags of a sector image, and nothing else of
it (R178, R180). -/

namespace Sys2Proof.Machine

/-- An image that differs from another in its sector bytes alone. -/
def SectorsOnly (img img' : Dsk) : Prop :=
  img'.order = img.order ∧ img'.cache = img.cache ∧ img'.dirty = img.dirty ∧ img'.volume = img.volume

theorem SectorsOnly.refl (img : Dsk) : SectorsOnly img img := ⟨rfl, rfl, rfl, rfl⟩

theorem SectorsOnly.trans {a b c : Dsk} (h : SectorsOnly a b) (h' : SectorsOnly b c) : SectorsOnly a c :=
  ⟨h'.1.trans h.1, h'.2.1.trans h.2.1, h'.2.2.1.trans h.2.2.1, h'.2.2.2.trans h.2.2.2⟩

theorem storeCandidate_sectorsOnly (buf : List Nibble) (t : Nat) (img : Dsk) (i : Nat) :
    SectorsOnly img (storeCandidate buf t img i) := by
  rcases storeCandidate_cases buf t img i with h | ⟨l, d, -, -, h⟩
  · rw [h]; exact .refl img
  · rw [h]; exact ⟨rfl, rfl, rfl, rfl⟩

theorem denibblize_sectorsOnly (img : Dsk) (t : Nat) : SectorsOnly img (denibblize img t) := by
  simp only [denibblize]
  split
  · exact .refl img
  · next buf _ =>
    have loop : ∀ (is : List Nat) (j : Dsk), SectorsOnly j (is.foldl (storeCandidate buf t) j) := by
      intro is
      induction is with
      | nil => exact fun j => .refl j
      | cons i is ih => exact fun j => (storeCandidate_sectorsOnly buf t j i).trans (ih _)
    exact loop _ img

/-- One turn of the flush loop: a clean track is left alone. -/
theorem flushOne_cases (img : Dsk) (t : Nat) :
    (img.dirtyAt t = false ∧ flushOne img t = img) ∨
    (img.dirtyAt t = true ∧ flushOne img t = (denibblize img t).setDirty t false) := by
  cases h : img.dirtyAt t
  · exact .inl ⟨rfl, by simp [flushOne, h]⟩
  · exact .inr ⟨rfl, by simp [flushOne, h]⟩

/-- The buffers, the order and the volume are kept by a turn of the loop. -/
theorem flushOne_kept (img : Dsk) (t : Nat) :
    (flushOne img t).cache = img.cache ∧ (flushOne img t).order = img.order ∧
      (flushOne img t).volume = img.volume := by
  rcases flushOne_cases img t with ⟨-, h⟩ | ⟨-, h⟩
  · rw [h]; exact ⟨rfl, rfl, rfl⟩
  · obtain ⟨h1, h2, -, h4⟩ := denibblize_sectorsOnly img t
    rw [h]; exact ⟨h2, h1, h4⟩

/-- A WOZ image is never changed by a flush (R180). -/
theorem flushImage_woz (img : Woz) : flushImage (.woz img) = .woz img := rfl

theorem flushImage_dsk (img : Dsk) : flushImage (.dsk img) = .dsk (flushDsk img) := rfl

end Sys2Proof.Machine
end

