-- ==== Sys2Proof/Laws/Ops.lean ====
section
/-! SUPPORT. Everything the shared operations can do: how an operation ends, and the access procedure around a switch
effect. -/

namespace Sys2Proof.Machine

/-! ### Ending an operation -/

theorem answer_eq (r : Result) (s : State) : answer r s = .next (s.answered r) := rfl

/-- An operation that can fail ends in a next state either way. -/
theorem answerOrFail_eq {α : Type} (ok : α → Result) (r : Except FailureCode α) (s : State) :
    answerOrFail ok r s = .next (s.answered (match r with | .ok a => ok a | .error code => .failed code)) := by
  cases r <;> rfl

theorem answerOrFail_ok {α : Type} (ok : α → Result) (a : α) (s : State) :
    answerOrFail ok (.ok a) s = .next (s.answered (ok a)) := rfl

theorem answerOrFail_error {α : Type} (ok : α → Result) (code : FailureCode) (s : State) :
    answerOrFail ok (.error code) s = .next (s.answered (.failed code)) := rfl

/-! ### The motor timeout (R262) -/

theorem stopDue_eq (s : State) :
    stopDue s = (s.motorOffPending && decide (1023000 ≤ (s.cycleNow - s.motorOffCycle).toNat)) := rfl

theorem evalMotorTimeout_motorOn (s : State) : (evalMotorTimeout s).motorOn = (s.motorOn && !stopDue s) := by
  simp only [evalMotorTimeout]
  split <;> simp_all

theorem evalMotorTimeout_motorOffPending (s : State) :
    (evalMotorTimeout s).motorOffPending = (s.motorOffPending && !stopDue s) := by
  simp only [evalMotorTimeout]
  split <;> simp_all

/-! ### The access procedure (R261) -/

theorem busAccess_eq (off : BitVec 4) (a : Access) (effect : State → State) (s : State) :
    busAccess off a effect s = .next (accessed off a effect s) := rfl

/-- Steps 1 and 2: outside the answer and the emissions, an access is its effect on the state after the timeout. -/
theorem accessed_eq (off : BitVec 4) (a : Access) (effect : State → State) (s : State) :
    accessed off a effect s =
      { effect (evalMotorTimeout { s with emitted := [] }) with
        result := accessResult off a (effect (evalMotorTimeout { s with emitted := [] }))
        emitted := (effect (evalMotorTimeout { s with emitted := [] })).emitted ++
          [accessEvent off a (effect (evalMotorTimeout { s with emitted := [] }))] } := rfl

/-- A bus read of an even offset returns the latch, of an odd offset 0x00, but for Q6H in read mode (R279). -/
theorem readValue_even {off : BitVec 4} (h : off.toNat % 2 = 0) (s : State) : readValue off s = s.dataLatch := by
  simp [readValue, h]

theorem readValue_odd {off : BitVec 4} (h : off.toNat % 2 = 1) (hq : off ≠ 0xD) (s : State) :
    readValue off s = 0x00 := by
  have hq' : ¬(off = 0xD ∧ s.q7 = false) := fun e => hq e.1
  simp only [readValue, h, if_neg hq', Nat.one_ne_zero, if_false]

/-! ### The switch effects -/

/-- A phase access writes the mask, and with the motor on the selected drive's head; nothing else. -/
theorem phaseAccess_cases (n : Nat) (b : Bool) (s : State) :
    (s.motorOn = true ∧ phaseAccess n b s =
      ({ s with phaseMask := setMagnet s.phaseMask n b } : State).setSelected
        (stepHead s.selected (setMagnet s.phaseMask n b))) ∨
    (s.motorOn = false ∧ phaseAccess n b s = { s with phaseMask := setMagnet s.phaseMask n b }) := by
  cases h : s.motorOn
  · exact .inr ⟨rfl, by simp [phaseAccess, h]⟩
  · refine .inl ⟨rfl, ?_⟩
    simp only [phaseAccess, h, if_true, State.selected]
    cases s.selectedDrive <;> rfl

/-- Selecting the drive already selected does nothing; a change flushes the other one first. -/
theorem selectDrive_cases (k : DriveId) (s : State) :
    (s.selectedDrive = k ∧ selectDrive k s = s) ∨
    (s.selectedDrive ≠ k ∧ selectDrive k s = { s.setSelected (flushSlot s.selected) with selectedDrive := k }) := by
  by_cases h : s.selectedDrive = k
  · exact .inl ⟨h, by simp [selectDrive, h]⟩
  · exact .inr ⟨h, by simp [selectDrive, h]⟩

/-- A fetch is not ready, and writes the latch alone, or it turns the disk, reads one nibble and latches it. -/
theorem fetchNibble_cases (s : State) :
    ((s.selected.image = none ∨ s.motorOn = false) ∧ fetchNibble s = { s with dataLatch := 0x00 }) ∨
    (s.selected.image ≠ none ∧ s.motorOn = true ∧
      ∃ r, r = nextNibble Config.maxNibbleShiftBits
          (rebased s.cycleNow (advance s.selected (elapsedSince s.cycleNow s.selected.lastAccessCycle))) ∧
        fetchNibble s =
          { s.setSelected r.2 with
            dataLatch := r.1 ||| 0x80
            emitted := s.emitted ++ [.nibbleRead (r.1 ||| 0x80) (trackOf r.2.quarterTrack) r.2.cursor] }) := by
  by_cases hi : s.selected.image = none
  · exact .inl ⟨.inl hi, by simp [fetchNibble, hi, Config.notReady]⟩
  · cases hm : s.motorOn
    · exact .inl ⟨.inr rfl, by simp [fetchNibble, hm, Config.notReady]⟩
    · refine .inr ⟨hi, rfl, _, rfl, ?_⟩
      have : s.selected.image.isNone = false := by
        cases h : s.selected.image with
        | none => exact absurd h hi
        | some _ => rfl
      simp [fetchNibble, hm, this]

end Sys2Proof.Machine
end

