-- ==== Sys2Proof/Laws/PerInstr.lean ====
section
/-! SUPPORT. One lemma per constructor of `Instr`: the request of every operation carries, in its first byte, the match
of the operation's row of spec/opcode_table.json under the row's mask, on the interface that reaches it (R336). -/

set_option Elab.async false

namespace Sys2Proof.Laws.RequestHead

/-- Interface (R336), match and mask of a row of spec/opcode_table.json. -/
def tableRow : Instr → Port × Byte × Byte
  | .phase0Off _ => (.bus, 0x00, 0x0F)
  | .phase0On _ => (.bus, 0x01, 0x0F)
  | .phase1Off _ => (.bus, 0x02, 0x0F)
  | .phase1On _ => (.bus, 0x03, 0x0F)
  | .phase2Off _ => (.bus, 0x04, 0x0F)
  | .phase2On _ => (.bus, 0x05, 0x0F)
  | .phase3Off _ => (.bus, 0x06, 0x0F)
  | .phase3On _ => (.bus, 0x07, 0x0F)
  | .motorOff _ => (.bus, 0x08, 0x0F)
  | .motorOn _ => (.bus, 0x09, 0x0F)
  | .drive1Sel _ => (.bus, 0x0A, 0x0F)
  | .drive2Sel _ => (.bus, 0x0B, 0x0F)
  | .q6l _ => (.bus, 0x0C, 0x0F)
  | .q6h _ => (.bus, 0x0D, 0x0F)
  | .q7l _ => (.bus, 0x0E, 0x0F)
  | .q7h _ => (.bus, 0x0F, 0x0F)
  | .encode4and4 _ => (.internal, 0x10, 0xFF)
  | .encode6and2 _ => (.internal, 0x11, 0xFF)
  | .buildAddressField _ _ _ => (.internal, 0x12, 0xFF)
  | .buildSector _ _ _ _ => (.internal, 0x13, 0xFF)
  | .decode4and4 _ _ => (.internal, 0x20, 0xFF)
  | .decode6and2 _ => (.internal, 0x21, 0xFF)
  | .decodeAddressField _ _ => (.internal, 0x22, 0xFF)
  | .findDataField _ _ => (.internal, 0x23, 0xFF)
  | .decodeSectorAt _ _ => (.internal, 0x24, 0xFF)
  | .loadDsk _ _ => (.internal, 0x30, 0xFF)
  | .nibblizeTrack _ _ => (.internal, 0x31, 0xFF)
  | .materializeTrack _ _ => (.internal, 0x32, 0xFF)
  | .denibblizeTrack _ _ => (.internal, 0x33, 0xFF)
  | .flush _ => (.internal, 0x34, 0xFF)
  | .loadWoz _ => (.internal, 0x40, 0xFF)
  | .readBit _ => (.internal, 0x41, 0xFF)
  | .readNibbleWoz _ => (.internal, 0x42, 0xFF)
  | .getTrackBitCount _ _ => (.internal, 0x43, 0xFF)
  | .advanceBitPosition _ _ => (.internal, 0x50, 0xFF)
  | .readNibble _ => (.internal, 0x51, 0xFF)
  | .writeNibble _ _ => (.internal, 0x52, 0xFF)
  | .setPhase _ _ => (.internal, 0x53, 0xFF)
  | .getQuarterTrack _ => (.internal, 0x54, 0xFF)
  | .getters _ _ => (.internal, 0x55, 0xFF)
  | .powerCycle => (.host, 0x60, 0xFF)
  | .softReset => (.host, 0x61, 0xFF)
  | .setCycleCount _ => (.host, 0x62, 0xFF)
  | .insertDisk _ _ _ _ => (.host, 0x63, 0xFF)
  | .ejectDisk _ => (.host, 0x64, 0xFF)
  | .save _ => (.host, 0x65, 0xFF)
  | .observe => (.host, 0x66, 0xFF)
  | .romRead _ => (.bus, 0x67, 0xFF)

/-- The request of `i` begins as its table row says. -/
def Statement (i : Instr) : Prop :=
  (encode i).port = (tableRow i).1 ∧
    (encode i).bytes.head?.map (· &&& (tableRow i).2.2) = some (tableRow i).2.1

theorem phase0Off (a : Access) : Statement (.phase0Off a) := by
  cases a <;> simp [Statement, encode, busRequest, tableRow]
theorem phase0On (a : Access) : Statement (.phase0On a) := by
  cases a <;> simp [Statement, encode, busRequest, tableRow]
theorem phase1Off (a : Access) : Statement (.phase1Off a) := by
  cases a <;> simp [Statement, encode, busRequest, tableRow]
theorem phase1On (a : Access) : Statement (.phase1On a) := by
  cases a <;> simp [Statement, encode, busRequest, tableRow]
theorem phase2Off (a : Access) : Statement (.phase2Off a) := by
  cases a <;> simp [Statement, encode, busRequest, tableRow]
theorem phase2On (a : Access) : Statement (.phase2On a) := by
  cases a <;> simp [Statement, encode, busRequest, tableRow]
theorem phase3Off (a : Access) : Statement (.phase3Off a) := by
  cases a <;> simp [Statement, encode, busRequest, tableRow]
theorem phase3On (a : Access) : Statement (.phase3On a) := by
  cases a <;> simp [Statement, encode, busRequest, tableRow]
theorem motorOff (a : Access) : Statement (.motorOff a) := by
  cases a <;> simp [Statement, encode, busRequest, tableRow]
theorem motorOn (a : Access) : Statement (.motorOn a) := by
  cases a <;> simp [Statement, encode, busRequest, tableRow]
theorem drive1Sel (a : Access) : Statement (.drive1Sel a) := by
  cases a <;> simp [Statement, encode, busRequest, tableRow]
theorem drive2Sel (a : Access) : Statement (.drive2Sel a) := by
  cases a <;> simp [Statement, encode, busRequest, tableRow]
theorem q6l (a : Access) : Statement (.q6l a) := by
  cases a <;> simp [Statement, encode, busRequest, tableRow]
theorem q6h (a : Access) : Statement (.q6h a) := by
  cases a <;> simp [Statement, encode, busRequest, tableRow]
theorem q7l (a : Access) : Statement (.q7l a) := by
  cases a <;> simp [Statement, encode, busRequest, tableRow]
theorem q7h (a : Access) : Statement (.q7h a) := by
  cases a <;> simp [Statement, encode, busRequest, tableRow]
theorem encode4and4 (v : Byte) : Statement (.encode4and4 v) := by
  simp [Statement, encode, unitRequest, interfaceOf, tableRow]
theorem encode6and2 (data : List Byte) : Statement (.encode6and2 data) := by
  simp [Statement, encode, unitRequest, interfaceOf, tableRow]
theorem buildAddressField (volume track sector : Byte) : Statement (.buildAddressField volume track sector) := by
  simp [Statement, encode, unitRequest, interfaceOf, tableRow]
theorem buildSector (volume track sector : Byte) (data : List Byte) : Statement (.buildSector volume track sector data) := by
  simp [Statement, encode, unitRequest, interfaceOf, tableRow]
theorem decode4and4 (odd even : Byte) : Statement (.decode4and4 odd even) := by
  simp [Statement, encode, unitRequest, interfaceOf, tableRow]
theorem decode6and2 (n : List Byte) : Statement (.decode6and2 n) := by
  simp [Statement, encode, unitRequest, interfaceOf, tableRow]
theorem decodeAddressField (buf : List Byte) (i : Nat) : Statement (.decodeAddressField buf i) := by
  simp [Statement, encode, unitRequest, interfaceOf, tableRow]
theorem findDataField (buf : List Byte) (j0 : Nat) : Statement (.findDataField buf j0) := by
  simp [Statement, encode, unitRequest, interfaceOf, tableRow]
theorem decodeSectorAt (buf : List Byte) (i : Nat) : Statement (.decodeSectorAt buf i) := by
  simp [Statement, encode, unitRequest, interfaceOf, tableRow]
theorem loadDsk (file : List Byte) (order : SectorOrder) : Statement (.loadDsk file order) := by
  simp [Statement, encode, unitRequest, interfaceOf, tableRow]
theorem nibblizeTrack (k : DriveId) (t : Nat) : Statement (.nibblizeTrack k t) := by
  simp [Statement, encode, unitRequest, interfaceOf, tableRow]
theorem materializeTrack (k : DriveId) (t : Nat) : Statement (.materializeTrack k t) := by
  simp [Statement, encode, unitRequest, interfaceOf, tableRow]
theorem denibblizeTrack (k : DriveId) (t : Nat) : Statement (.denibblizeTrack k t) := by
  simp [Statement, encode, unitRequest, interfaceOf, tableRow]
theorem flush (k : DriveId) : Statement (.flush k) := by
  simp [Statement, encode, unitRequest, interfaceOf, tableRow]
theorem loadWoz (file : List Byte) : Statement (.loadWoz file) := by
  simp [Statement, encode, unitRequest, interfaceOf, tableRow]
theorem readBit (k : DriveId) : Statement (.readBit k) := by
  simp [Statement, encode, unitRequest, interfaceOf, tableRow]
theorem readNibbleWoz (k : DriveId) : Statement (.readNibbleWoz k) := by
  simp [Statement, encode, unitRequest, interfaceOf, tableRow]
theorem getTrackBitCount (k : DriveId) (q : Nat) : Statement (.getTrackBitCount k q) := by
  simp [Statement, encode, unitRequest, interfaceOf, tableRow]
theorem advanceBitPosition (k : DriveId) (elapsed : Cycle) : Statement (.advanceBitPosition k elapsed) := by
  simp [Statement, encode, unitRequest, interfaceOf, tableRow]
theorem readNibble (k : DriveId) : Statement (.readNibble k) := by
  simp [Statement, encode, unitRequest, interfaceOf, tableRow]
theorem writeNibble (k : DriveId) (v : Byte) : Statement (.writeNibble k v) := by
  simp [Statement, encode, unitRequest, interfaceOf, tableRow]
theorem setPhase (k : DriveId) (mask : BitVec 4) : Statement (.setPhase k mask) := by
  simp [Statement, encode, unitRequest, interfaceOf, tableRow]
theorem getQuarterTrack (k : DriveId) : Statement (.getQuarterTrack k) := by
  simp [Statement, encode, unitRequest, interfaceOf, tableRow]
theorem getters (k : DriveId) (q : Nat) : Statement (.getters k q) := by
  simp [Statement, encode, unitRequest, interfaceOf, tableRow]
theorem powerCycle : Statement .powerCycle := by
  simp [Statement, encode, unitRequest, interfaceOf, tableRow]
theorem softReset : Statement .softReset := by
  simp [Statement, encode, unitRequest, interfaceOf, tableRow]
theorem setCycleCount (c : Cycle) : Statement (.setCycleCount c) := by
  simp [Statement, encode, unitRequest, interfaceOf, tableRow]
theorem insertDisk (k : DriveId) (file : List Byte) (format : DiskFormat) (wp : Bool) : Statement (.insertDisk k file format wp) := by
  simp [Statement, encode, unitRequest, interfaceOf, tableRow]
theorem ejectDisk (k : DriveId) : Statement (.ejectDisk k) := by
  simp [Statement, encode, unitRequest, interfaceOf, tableRow]
theorem save (k : DriveId) : Statement (.save k) := by
  simp [Statement, encode, unitRequest, interfaceOf, tableRow]
theorem observe : Statement .observe := by
  simp [Statement, encode, unitRequest, interfaceOf, tableRow]
theorem romRead (a : BitVec 16) : Statement (.romRead a) := by
  simp [Statement, encode, unitRequest, interfaceOf, tableRow]

end Sys2Proof.Laws.RequestHead
end

