-- ==== Sys2Proof/Laws/Woz.lean ====
section
/-! SUPPORT. Everything the WOZ container reader can do, function by function (R200 to R206): what the walk does at one chunk,
and which index decides a read of the tracks. -/

namespace Sys2Proof.Machine

/-! ### Slices and fields of a file that is laid out in parts -/

theorem slice_append_right (pre xs : List Byte) (o n : Nat) : slice (pre ++ xs) (pre.length + o) n = slice xs o n := by
  simp [slice]

theorem slice_append_left {xs : List Byte} {o n : Nat} (post : List Byte) (h : o + n ≤ xs.length) :
    slice (xs ++ post) o n = slice xs o n := by
  simp only [slice]
  rw [List.drop_append_of_le_length (by omega), List.take_append_of_le_length (by simp; omega)]

theorem byteAt_append_right (pre xs : List Byte) (o : Nat) : byteAt (pre ++ xs) (pre.length + o) = byteAt xs o := by
  simp [byteAt, List.getElem?_append_right (Nat.le_add_right ..)]

theorem byteAt_append_left {xs : List Byte} {o : Nat} (post : List Byte) (h : o < xs.length) :
    byteAt (xs ++ post) o = byteAt xs o := by
  simp [byteAt, List.getElem?_append_left h]

theorem le16_append_right (pre xs : List Byte) (o : Nat) : le16 (pre ++ xs) (pre.length + o) = le16 xs o := by
  simp only [le16, byteAt_append_right, Nat.add_assoc]

theorem le16_append_left {xs : List Byte} {o : Nat} (post : List Byte) (h : o + 2 ≤ xs.length) :
    le16 (xs ++ post) o = le16 xs o := by
  simp only [le16]
  rw [byteAt_append_left post (by omega), byteAt_append_left post (by omega)]

theorem le32_append_right (pre xs : List Byte) (o : Nat) : le32 (pre ++ xs) (pre.length + o) = le32 xs o := by
  simp only [le32, le16_append_right, Nat.add_assoc]

theorem le32_append_left {xs : List Byte} {o : Nat} (post : List Byte) (h : o + 4 ≤ xs.length) :
    le32 (xs ++ post) o = le32 xs o := by
  simp only [le32]
  rw [le16_append_left post (by omega), le16_append_left post (by omega)]

theorem length_natToBytes (k n : Nat) : (natToBytes k n).length = k := by
  induction k generalizing n with
  | zero => rfl
  | succ k ih => simp [natToBytes, ih]

/-- `LE32` reads back the four bytes of a number. -/
theorem le32_natToBytes {n : Nat} (h : n < 2 ^ 32) : le32 (natToBytes 4 n) 0 = n := by
  simp only [le32, le16, byteAt, natToBytes, List.getD_cons_zero, List.getD_cons_succ, Nat.zero_add, Nat.reduceAdd,
    BitVec.toNat_ofNat]
  omega

/-! ### The walk (R202) -/

/-- A chunk as the file holds it: the id, the size, the payload. -/
def chunkBytes (id payload : List Byte) : List Byte := id ++ natToBytes 4 payload.length ++ payload

theorem length_chunkBytes {id : List Byte} (hid : id.length = 4) (payload : List Byte) :
    (chunkBytes id payload).length = 8 + payload.length := by
  simp [chunkBytes, hid, length_natToBytes]
  omega

/-- What a chunk header at `pre.length` says: its id and its size. -/
theorem header_at {pre id post : List Byte} {size : Nat} (hid : id.length = 4) (hs : size < 2 ^ 32) :
    slice (pre ++ (id ++ natToBytes 4 size ++ post)) pre.length 4 = id ∧
      le32 (pre ++ (id ++ natToBytes 4 size ++ post)) (pre.length + 4) = size := by
  constructor
  · rw [← Nat.add_zero pre.length, slice_append_right, List.append_assoc,
      slice_append_left _ (by omega), ← hid, slice, List.drop_zero, List.take_length]
  · have := le32_append_right id (natToBytes 4 size ++ post) 0
    rw [le32_append_left post (by simp [length_natToBytes]), le32_natToBytes hs, hid, Nat.add_zero] at this
    rw [le32_append_right, List.append_assoc, this]

/-- At a whole chunk the walk notes it and goes on behind it. -/
theorem walkChunksFrom_chunk {id payload : List Byte} (pre post : List Byte) (turns : Nat) (chunks : ChunkTable)
    (hid : id.length = 4) (hp : payload.length < 2 ^ 32) :
    walkChunksFrom (pre ++ (chunkBytes id payload ++ post)) (turns + 1) pre.length chunks =
      walkChunksFrom (pre ++ (chunkBytes id payload ++ post)) turns (pre.length + (chunkBytes id payload).length)
        (noteChunk chunks id ⟨pre.length + 8, payload.length⟩) := by
  have h := header_at (pre := pre) (post := payload ++ post) hid hp
  have e : chunkBytes id payload ++ post = id ++ natToBytes 4 payload.length ++ (payload ++ post) := by
    simp [chunkBytes]
  have l := length_chunkBytes hid payload
  have fl : (pre ++ (chunkBytes id payload ++ post)).length = pre.length + (8 + payload.length) + post.length := by
    simp [l]; omega
  rw [l, walkChunksFrom, if_pos (by omega)]
  simp only [e, h.1, h.2]
  rw [← e, if_neg (by omega), Nat.add_assoc]

/-- At a chunk that states more bytes than the file has the walk fails. -/
theorem walkChunksFrom_truncated {id payload : List Byte} {size : Nat} (pre : List Byte) (turns : Nat)
    (chunks : ChunkTable) (hid : id.length = 4) (hs : size < 2 ^ 32) (hp : payload.length < size) :
    walkChunksFrom (pre ++ (id ++ natToBytes 4 size ++ payload)) (turns + 1) pre.length chunks =
      .error .loadErrorTruncatedChunk := by
  have h := header_at (pre := pre) (post := payload) hid hs
  have fl : (pre ++ (id ++ natToBytes 4 size ++ payload)).length = pre.length + 8 + payload.length := by
    simp [hid, length_natToBytes]; omega
  rw [walkChunksFrom, if_pos (by omega)]
  simp only [h.2]
  rw [if_pos (by omega)]

/-- Fewer than eight bytes left over end the walk. -/
theorem walkChunksFrom_end {file : List Byte} {pos : Nat} (turns : Nat) (chunks : ChunkTable) (h : file.length < pos + 8) :
    walkChunksFrom file turns pos chunks = .ok chunks := by
  cases turns with
  | zero => rfl
  | succ n => rw [walkChunksFrom, if_neg (by omega)]

/-- A chunk reference stands for a payload of the file, or both are absent. -/
def Located (file : List Byte) (c : Option ChunkRef) (payload : Option (List Byte)) : Prop :=
  (c = none ∧ payload = none) ∨
    ∃ pre p post, file = pre ++ (p ++ post) ∧ c = some ⟨pre.length, p.length⟩ ∧ payload = some p

/-- The table a walk adds to: what was noted stays, and else the first payload of the id counts. -/
def Noted (file : List Byte) (chunks : List (List Byte × List Byte)) (t t' : ChunkTable) : Prop :=
  ∃ info tmap trks, t' = ⟨t.info.or info, t.tmap.or tmap, t.trks.or trks⟩ ∧
    Located file info (chunks.lookup [0x49, 0x4E, 0x46, 0x4F]) ∧
    Located file tmap (chunks.lookup [0x54, 0x4D, 0x41, 0x50]) ∧
    Located file trks (chunks.lookup [0x54, 0x52, 0x4B, 0x53])

/-- `noteChunk` adds one chunk in front of those the walk notes later. -/
theorem noted_cons {pre id payload post : List Byte} {chunks : List (List Byte × List Byte)} {t t' : ChunkTable}
    (hid : id.length = 4)
    (h : Noted (pre ++ (chunkBytes id payload ++ post)) chunks (noteChunk t id ⟨pre.length + 8, payload.length⟩) t') :
    Noted (pre ++ (chunkBytes id payload ++ post)) ((id, payload) :: chunks) t t' := by
  obtain ⟨info, tmap, trks, rfl, h1, h2, h3⟩ := h
  have here : Located (pre ++ (chunkBytes id payload ++ post)) (some ⟨pre.length + 8, payload.length⟩) (some payload) :=
    .inr ⟨pre ++ (id ++ natToBytes 4 payload.length), payload, post, by simp [chunkBytes],
      by simp [hid, length_natToBytes], rfl⟩
  by_cases e1 : id = [0x49, 0x4E, 0x46, 0x4F]
  · subst e1
    exact ⟨some ⟨pre.length + 8, payload.length⟩, tmap, trks, by simp [noteChunk], by simpa using here,
      by simpa [List.lookup_cons] using h2, by simpa [List.lookup_cons] using h3⟩
  by_cases e2 : id = [0x54, 0x4D, 0x41, 0x50]
  · subst e2
    exact ⟨info, some ⟨pre.length + 8, payload.length⟩, trks, by simp [noteChunk],
      by simpa [List.lookup_cons] using h1, by simpa using here, by simpa [List.lookup_cons] using h3⟩
  by_cases e3 : id = [0x54, 0x52, 0x4B, 0x53]
  · subst e3
    exact ⟨info, tmap, some ⟨pre.length + 8, payload.length⟩, by simp [noteChunk],
      by simpa [List.lookup_cons] using h1, by simpa [List.lookup_cons] using h2, by simpa using here⟩
  refine ⟨info, tmap, trks, by simp only [noteChunk, if_neg e1, if_neg e2, if_neg e3], ?_, ?_, ?_⟩ <;>
    rw [List.lookup_cons]
  · rwa [beq_false_of_ne (Ne.symm e1)]
  · rwa [beq_false_of_ne (Ne.symm e2)]
  · rwa [beq_false_of_ne (Ne.symm e3)]

/-- Over whole chunks the walk notes the first of each mandatory id and skips every other chunk (R202). -/
theorem walkChunksFrom_chunks (chunks : List (List Byte × List Byte)) (pre post : List Byte) (turns : Nat)
    (t : ChunkTable) (fits : ∀ c ∈ chunks, c.1.length = 4 ∧ c.2.length < 2 ^ 32) :
    let body := chunks.flatMap fun c => chunkBytes c.1 c.2
    ∃ t', Noted (pre ++ (body ++ post)) chunks t t' ∧
      walkChunksFrom (pre ++ (body ++ post)) (chunks.length + turns) pre.length t =
        walkChunksFrom (pre ++ (body ++ post)) turns (pre.length + body.length) t' := by
  induction chunks generalizing pre t with
  | nil => exact ⟨t, ⟨none, none, none, by simp, .inl ⟨rfl, rfl⟩, .inl ⟨rfl, rfl⟩, .inl ⟨rfl, rfl⟩⟩, by simp⟩
  | cons c chunks ih =>
    obtain ⟨id, payload⟩ := c
    obtain ⟨hid, hp⟩ := fits (id, payload) (by simp)
    obtain ⟨t', hn, hw⟩ := ih (pre ++ chunkBytes id payload) (noteChunk t id ⟨pre.length + 8, payload.length⟩)
      fun c hc => fits c (by simp [hc])
    rw [List.length_append] at hw
    simp only [List.append_assoc] at hn hw
    refine ⟨t', ?_, ?_⟩ <;> simp only [List.flatMap_cons, List.append_assoc]
    · exact noted_cons hid hn
    · rw [List.length_cons, show chunks.length + 1 + turns = chunks.length + turns + 1 by omega,
        walkChunksFrom_chunk pre _ _ t hid hp, hw, List.length_append, Nat.add_assoc]

/-- There are more turns than chunks. -/
theorem chunks_lt_turns {chunks : List (List Byte × List Byte)} {pre : List Byte} (post : List Byte)
    (hpre : pre.length = 12) (fits : ∀ c ∈ chunks, c.1.length = 4 ∧ c.2.length < 2 ^ 32) :
    ∃ k, (pre ++ ((chunks.flatMap fun c => chunkBytes c.1 c.2) ++ post)).length / 8 + 1 = chunks.length + (k + 1) := by
  have h : 8 * chunks.length ≤ (chunks.flatMap fun c => chunkBytes c.1 c.2).length := by
    clear hpre
    induction chunks with
    | nil => simp
    | cons c chunks ih =>
      have := ih fun c hc => fits c (by simp [hc])
      rw [List.flatMap_cons, List.length_append, length_chunkBytes (fits c (by simp)).1, List.length_cons]
      omega
  refine ⟨(pre ++ ((chunks.flatMap fun c => chunkBytes c.1 c.2) ++ post)).length / 8 - chunks.length, ?_⟩
  simp only [List.length_append]
  omega

/-- The walk of a file of whole chunks and fewer than eight bytes more (R202). -/
theorem walkChunks_ok {chunks : List (List Byte × List Byte)} {pre rest : List Byte} (hpre : pre.length = 12)
    (fits : ∀ c ∈ chunks, c.1.length = 4 ∧ c.2.length < 2 ^ 32) (hr : rest.length < 8) :
    let file := pre ++ ((chunks.flatMap fun c => chunkBytes c.1 c.2) ++ rest)
    ∃ t, Noted file chunks ⟨none, none, none⟩ t ∧ walkChunks file = .ok t := by
  obtain ⟨k, hk⟩ := chunks_lt_turns rest hpre fits
  obtain ⟨t, hn, hw⟩ := walkChunksFrom_chunks chunks pre rest (k + 1) ⟨none, none, none⟩ fits
  refine ⟨t, hn, ?_⟩
  rw [walkChunks, hk, ← hpre, hw, walkChunksFrom_end]
  simp only [List.length_append]
  omega

/-- The walk of a file whose last chunk states more bytes than it has (R202). -/
theorem walkChunks_truncated {chunks : List (List Byte × List Byte)} {pre id payload : List Byte} {size : Nat}
    (hpre : pre.length = 12) (fits : ∀ c ∈ chunks, c.1.length = 4 ∧ c.2.length < 2 ^ 32)
    (hid : id.length = 4) (hs : size < 2 ^ 32) (hp : payload.length < size) :
    walkChunks (pre ++ ((chunks.flatMap fun c => chunkBytes c.1 c.2) ++ (id ++ natToBytes 4 size ++ payload))) =
      .error .loadErrorTruncatedChunk := by
  obtain ⟨k, hk⟩ := chunks_lt_turns (id ++ natToBytes 4 size ++ payload) hpre fits
  obtain ⟨t, -, hw⟩ := walkChunksFrom_chunks chunks pre (id ++ natToBytes 4 size ++ payload) (k + 1)
    ⟨none, none, none⟩ fits
  rw [walkChunks, hk, ← hpre, hw, ← List.length_append, ← List.append_assoc,
    walkChunksFrom_truncated _ k t hid hs hp]

/-! ### The payloads (R203 to R206): each reader looks at its payload only, wherever that stands in the file -/

theorem readInfo_at {pre p post : List Byte} (h : 60 ≤ p.length) :
    readInfo (pre ++ (p ++ post)) ⟨pre.length, p.length⟩ =
      if byteAt p 1 ≠ 1 then .error .loadErrorUnsupportedDiskType else .ok (byteAt p 2 != 0) := by
  simp only [readInfo]
  rw [if_neg (by omega), byteAt_append_right, byteAt_append_right, byteAt_append_left _ (by omega),
    byteAt_append_left _ (by omega)]

theorem readTmap_at {pre p post : List Byte} (h : 160 ≤ p.length) :
    ∃ m, readTmap (pre ++ (p ++ post)) ⟨pre.length, p.length⟩ = .ok m ∧ ∀ q, q < 160 → m[q]? = p[q]? := by
  refine ⟨_, by rw [readTmap, if_neg (by simp; omega)], fun q hq => ?_⟩
  rw [Vector.getElem?_ofFn, dif_pos hq, byteAt_append_right, byteAt_append_left _ (by omega), byteAt,
    List.getElem?_eq_getElem (by omega), List.getD_eq_getElem _ _ (by omega)]

theorem wozTrack1_at {pre p post : List Byte} {i : Byte} (h : (i.toNat + 1) * 6656 ≤ p.length) :
    wozTrack1 (pre ++ (p ++ post)) ⟨pre.length, p.length⟩ i =
      if 53168 < le16 p (i.toNat * 6656 + 6648) then .error .loadErrorBadTrack
      else .ok ⟨le16 p (i.toNat * 6656 + 6648), slice p (i.toNat * 6656) 6646⟩ := by
  simp only [wozTrack1]
  rw [if_neg (by omega), Nat.add_assoc, le16_append_right, le16_append_left _ (by omega), slice_append_right,
    slice_append_left _ (by omega)]

/-- The blocks are those of the file, not of the payload. -/
theorem wozTrack2_at {pre p post : List Byte} {i : Byte} (hp : 1280 ≤ p.length) (h : i.toNat ≤ 159) :
    wozTrack2 (pre ++ (p ++ post)) ⟨pre.length, p.length⟩ i =
      let first := le16 p (8 * i.toNat)
      let count := le16 p (8 * i.toNat + 2)
      let bits := le32 p (8 * i.toNat + 4)
      if count = 0 ∨ bits = 0 then .ok ⟨0, []⟩
      else if (pre ++ (p ++ post)).length < first * 512 + count * 512 then .error .loadErrorTruncatedChunk
      else if count * 4096 < bits then .error .loadErrorBadTrack
      else .ok ⟨bits, slice (pre ++ (p ++ post)) (first * 512) (count * 512)⟩ := by
  rw [wozTrack2, if_neg (by omega)]
  simp only [Nat.add_assoc, le16_append_right, le32_append_right]
  rw [le16_append_left _ (by omega), le16_append_left _ (by omega), le32_append_left _ (by omega)]

/-! ### The tracks (R205, R206) -/

/-- The map names exactly the indices other than 0xFF. -/
theorem mem_namedIndices {tmap : Vector Byte 160} {i : Byte} :
    i ∈ namedIndices tmap ↔ i ∈ tmap.toList ∧ i ≠ 0xFF := by
  simp [namedIndices, List.mem_eraseDups]

/-- With every index readable the read answers each index with its track. -/
theorem readTracks_ok {one : Byte → Except FailureCode WozTrack} {is : List Byte}
    (h : ∀ i ∈ is, ∃ T, one i = .ok T) :
    ∃ ts, readTracks one is = .ok ts ∧ ∀ i ∈ is, ∀ T, one i = .ok T → ts.lookup i = some T := by
  induction is with
  | nil => exact ⟨[], rfl, by simp⟩
  | cons i is ih =>
    obtain ⟨T, hT⟩ := h i (by simp)
    obtain ⟨ts, hts, hl⟩ := ih fun j hj => h j (by simp [hj])
    refine ⟨(i, T) :: ts, by simp [readTracks, hT, hts], fun j hj U hU => ?_⟩
    by_cases hji : j = i
    · subst hji
      rw [hT] at hU
      cases hU
      simp
    · rw [List.lookup_cons, beq_false_of_ne hji]
      exact hl j (by simpa [hji] using hj) U hU

/-- The first index that cannot be read decides (R331). -/
theorem readTracks_error {one : Byte → Except FailureCode WozTrack} {before after : List Byte} {i : Byte}
    {e : FailureCode} (hb : ∀ j ∈ before, ∃ T, one j = .ok T) (hi : one i = .error e) :
    readTracks one (before ++ i :: after) = .error e := by
  induction before with
  | nil => simp [readTracks, hi]
  | cons j before ih =>
    obtain ⟨T, hT⟩ := hb j (by simp)
    simp [readTracks, hT, ih fun k hk => hb k (by simp [hk])]

/-- An index stands in `namedIndices` behind none but those the map names at an earlier quarter-track. -/
theorem namedIndices_split {tmap : Vector Byte 160} {q : Nat} {i : Byte} (hq : tmap.toList[q]? = some i)
    (hi : i ≠ 0xFF) (first : ∀ q', q' < q → tmap.toList[q']? ≠ some i) :
    ∃ before after, namedIndices tmap = before ++ i :: after ∧
      ∀ j ∈ before, j ≠ 0xFF ∧ ∃ q', q' < q ∧ tmap.toList[q']? = some j := by
  have hlt : q < tmap.toList.length := (List.getElem?_eq_some_iff.mp hq).1
  have split : tmap.toList = tmap.toList.take q ++ i :: tmap.toList.drop (q + 1) := by
    rw [← (List.getElem?_eq_some_iff.mp hq).2, List.getElem_cons_drop, List.take_append_drop]
  have earlier : ∀ j ∈ tmap.toList.take q, ∃ q', q' < q ∧ tmap.toList[q']? = some j := fun j hj => by
    obtain ⟨n, hn, e⟩ := List.mem_iff_getElem.mp hj
    rw [List.length_take] at hn
    exact ⟨n, by omega, by rw [List.getElem?_eq_some_iff]; exact ⟨by omega, by rw [← e, List.getElem_take]⟩⟩
  have notIn : i ∉ tmap.toList.take q := fun h => by
    obtain ⟨q', h1, h2⟩ := earlier i h
    exact first q' h1 h2
  have key : ∃ after, namedIndices tmap = ((tmap.toList.take q).filter (· != 0xFF)).eraseDups ++ i :: after := by
    have named : namedIndices tmap =
        ((tmap.toList.take q ++ i :: tmap.toList.drop (q + 1)).filter (· != 0xFF)).eraseDups := by
      rw [← split, namedIndices]
    rw [named, List.filter_append, List.filter_cons, if_pos (by simpa using hi), List.eraseDups_append, List.removeAll,
      List.filter_cons, if_pos (by simp [notIn]), List.eraseDups_cons]
    exact ⟨_, rfl⟩
  obtain ⟨after, key⟩ := key
  refine ⟨_, after, key, fun j hj => ?_⟩
  rw [List.mem_eraseDups, List.mem_filter] at hj
  exact ⟨by simpa using hj.2, earlier j hj.1⟩

end Sys2Proof.Machine
end

