-- ==== Sys2Proof/Tests/Slice0.lean ====
section
/-! SUPPORT. Tests and witnesses. Words are written out from `30_encoding.md` R90, R91, R113; expected values are those of
`95_test_vectors.md` (named V-... and P...) or of the worked examples of the rule named. The witness of a statement with
hypotheses shows a concrete state and operands that meet them. -/

set_option Elab.async false

namespace Sys2Proof.Tests

open Sys2Proof.Machine Sys2Proof.Claims

/-! ### States -/

/-- What an operation returned, none if it stopped. -/
def resultOf : Outcome → Option Result
  | .next t => some t.result
  | .fault _ => none
  | .refused _ => none

/-- The state after an operation. -/
def after (i : Instr) (s : State) : State :=
  match exec i s with
  | .next t => t
  | .fault _ => State.reset
  | .refused _ => State.reset

/-- The zero image of `95_test_vectors.md`. -/
def zero : Dsk :=
  { order := .dos, sectors := [], cache := Vector.replicate 35 none, dirty := Vector.replicate 35 false, volume := 254 }

/-- The motor running, this image in drive 1. -/
def running (image : DiskImage) : State :=
  { State.reset with motorOn := true, driveSlot1 := { DriveSlot.powerUp with image := some image } }

/-- A zero image whose track 0 begins with three known nibbles. -/
def threeNibbles : Dsk := zero.setCache 0 [0xD5, 0xAA, 0x96]

/-- The bit-stream image of program P5. -/
def p5Image : Woz :=
  { version := .woz2
    infoWriteProtected := false
    tmap := Vector.ofFn fun q : Fin 160 => if q.val < 2 then 0x00 else 0xFF
    trk := [(0x00, ⟨52, [0xFF, 0x3F, 0xCD, 0x5A, 0xA9, 0x6A, 0xD0]⟩)] }

/-- The three chunks of a WOZ file. -/
def threeChunks (info tmap trks : List Byte) : List (List Byte × List Byte) :=
  [(infoId, info), (tmapId, tmap), (trksId, trks)]

/-- The payloads of program P5. -/
def p5Info : List Byte := [0x02, 0x01, 0x00] ++ List.replicate 57 0
def p5Tmap : List Byte := [0, 0] ++ List.replicate 158 0xFF
def p5Trks : List Byte :=
  [0x03, 0x00, 0x01, 0x00, 0x34, 0x00, 0x00, 0x00] ++ List.replicate 1272 0 ++
    [0xFF, 0x3F, 0xCD, 0x5A, 0xA9, 0x6A, 0xD0] ++ List.replicate 505 0

/-- The file of program P5, its last block cut to the seven bytes in use and padded as the text says. -/
def p5File : List Byte := wozFile 0x32 [0, 0, 0, 0] (threeChunks p5Info p5Tmap p5Trks) []

/-- The same chunks in another order with a chunk of another id in front and a second INFO, write-protected, at the end. -/
def p5Shuffled : List (List Byte × List Byte) :=
  [([0x4D, 0x45, 0x54, 0x41], [0x09]), (trksId, p5Trks), (tmapId, p5Tmap), (infoId, p5Info), (infoId, p5Info.set 2 1)]

/-- Drive 1 of a state at another quarter-track and cursor. -/
def placed (s : State) (q c : Nat) : State :=
  { s with driveSlot1 := { s.driveSlot1 with quarterTrack := q, cursor := c } }

/-- 256 bytes of one value. -/
def fill (v : Byte) : List Byte := List.replicate 256 v

/-- The 256 bytes 00 to FF (V-E4). -/
def ramp : List Byte := (List.range 256).map (BitVec.ofNat 8)

/-- One built sector as a track: physical sector 1 of track 0, its data all A5 (V-T3). -/
def oneSector : List Byte := sectorNibbles 254 0 1 (fill 0xA5)

/-- The zero image with that track, written to. -/
def written : Dsk := (zero.setCache 0 oneSector).setDirty 0 true

/-- A zero image but for one byte, its track 0 dirty and holding nothing that decodes (R178: such a track changes
nothing). -/
def stray : Dsk := ({ zero with sectors := [(5, 0x11)] }.setCache 0 [0xFF, 0xD5]).setDirty 0 true

/-- The body of address field (254, 0, 0), up to its checksum. -/
def address0 : List Byte := [0xD5, 0xAA, 0x96, 0xFF, 0xFE, 0xAA, 0xAA, 0xAA, 0xAA, 0xFF, 0xFE]

/-- 343 legal nibbles: 256 zero bytes and, but for the checksum, `x` = 0 (V-E2, V-D3). -/
def legal (x : SixBit) : List Byte := List.replicate 342 0x96 ++ [Machine.translate x]

/-- An address field, a data prologue and 343 nibbles. -/
def field (body : List Byte) : List Byte := address0 ++ [0xD5, 0xAA, 0xAD] ++ body

theorem ok_of_toOption {α : Type} {r : Except FailureCode α} {a : α} (h : r.toOption = some a) : r = .ok a := by
  cases r with
  | error e => simp [Except.toOption] at h
  | ok b => simp only [Except.toOption, Option.some.injEq] at h; rw [h]

/-- V-E2 decoded. -/
theorem decoded_legal : decodeData (legal 0) = .ok (fill 0) := ok_of_toOption (by decide +kernel)

theorem slice_field : circSlice (field (legal 0)) 14 343 = legal 0 := by decide +kernel

theorem decoded_field : decodeSector (field (legal 0)) 0 = .ok (254, 0, 0, fill 0) := by
  have ha : decodeAddress (field (legal 0)) 0 = .ok (254, 0, 0) := ok_of_toOption (by decide +kernel)
  have hf : findData (field (legal 0)) (0 + 11) = .ok 11 := ok_of_toOption (by decide +kernel)
  simp only [decodeSector, ha, hf]
  rw [show 11 + 3 = 14 from rfl, slice_field, decoded_legal]

/-! ### Well-formedness: each check refuses an ill-formed term -/

theorem test_illformed_lengths :
    (Instr.encode6and2 []).wellFormed = false ∧ (Instr.buildSector 0 0 0 [0]).wellFormed = false ∧
    (Instr.decode6and2 [0x96]).wellFormed = false := by decide

theorem test_illformed_empty_buffers :
    (Instr.decodeAddressField [] 0).wellFormed = false ∧ (Instr.findDataField [] 0).wellFormed = false ∧
    (Instr.decodeSectorAt [] 0).wellFormed = false := by decide

theorem test_illformed_indices :
    (Instr.decodeAddressField [0] (2 ^ 32)).wellFormed = false ∧ (Instr.findDataField [0] (2 ^ 32)).wellFormed = false ∧
    (Instr.decodeSectorAt [0] (2 ^ 32)).wellFormed = false := by decide

theorem test_illformed_long_buffers :
    ∀ buf : List Byte, buf.length = 65537 → (Instr.decodeAddressField buf 0).wellFormed = false ∧
      (Instr.findDataField buf 0).wellFormed = false ∧ (Instr.decodeSectorAt buf 0).wellFormed = false := by
  intro buf h
  simp [Instr.wellFormed, bufferFits, h]

theorem test_illformed_long_files :
    ∀ file : List Byte, file.length = 4294967296 → (Instr.loadDsk file .dos).wellFormed = false ∧
      (Instr.loadWoz file).wellFormed = false ∧ (Instr.insertDisk .drive1 file .woz true).wellFormed = false := by
  intro file h
  simp [Instr.wellFormed, fileFits, h]

theorem test_illformed_tracks :
    (Instr.nibblizeTrack .drive1 35).wellFormed = false ∧ (Instr.materializeTrack .drive1 35).wellFormed = false ∧
    (Instr.denibblizeTrack .drive2 35).wellFormed = false ∧ (Instr.getTrackBitCount .drive1 160).wellFormed = false ∧
    (Instr.getters .drive2 160).wellFormed = false := by decide

/-! ### Decoding: every operation, from words written out -/

/-- The instruction a request decodes to. -/
def reads (port : Port) (bytes : List Byte) : Option Instr := (decode { port := port, bytes := bytes }).toOption

theorem test_decode_phases :
    reads .bus [0x00] = some (.phase0Off .read) ∧ reads .bus [0x01] = some (.phase0On .read) ∧
    reads .bus [0x02] = some (.phase1Off .read) ∧ reads .bus [0x03] = some (.phase1On .read) ∧
    reads .bus [0x04] = some (.phase2Off .read) ∧ reads .bus [0x05] = some (.phase2On .read) ∧
    reads .bus [0x06] = some (.phase3Off .read) ∧ reads .bus [0x17, 0xAB] = some (.phase3On (.write 0xAB)) := by decide

theorem test_decode_controller :
    reads .bus [0x08] = some (.motorOff .read) ∧ reads .bus [0x19, 0x55] = some (.motorOn (.write 0x55)) ∧
    reads .bus [0x0A] = some (.drive1Sel .read) ∧ reads .bus [0x0B] = some (.drive2Sel .read) ∧
    reads .bus [0x0C] = some (.q6l .read) ∧ reads .bus [0x1D, 0x97] = some (.q6h (.write 0x97)) ∧
    reads .bus [0x0E] = some (.q7l .read) ∧ reads .bus [0x1F, 0xFF] = some (.q7h (.write 0xFF)) := by decide

theorem test_decode_encoder :
    reads .internal [0x10, 0xFE] = some (.encode4and4 0xFE) ∧ reads .internal (0x11 :: fill 7) = some (.encode6and2 (fill 7)) ∧
    reads .internal [0x12, 0xFE, 0x11, 0x05] = some (.buildAddressField 0xFE 0x11 0x05) ∧
    reads .internal (0x13 :: 1 :: 2 :: 3 :: fill 7) = some (.buildSector 1 2 3 (fill 7)) := by decide +kernel

theorem test_decode_decoder :
    reads .internal [0x20, 0xFF, 0xFE] = some (.decode4and4 0xFF 0xFE) ∧
    reads .internal (0x21 :: List.replicate 343 0x96) = some (.decode6and2 (List.replicate 343 0x96)) ∧
    reads .internal [0x22, 0x01, 0, 0, 0, 0x01, 0, 0xD5, 0xAA] = some (.decodeAddressField [0xD5, 0xAA] 1) ∧
    reads .internal [0x23, 0x01, 0x01, 0, 0, 0x01, 0, 0xD5, 0xAA] = some (.findDataField [0xD5, 0xAA] 257) ∧
    reads .internal [0x24, 0x02, 0, 0, 0, 0, 0, 0xD5] = some (.decodeSectorAt [0xD5] 2) := by decide +kernel

theorem test_decode_synthesizer :
    reads .internal [0x30, 0x01, 0x02, 0, 0, 0, 0x0A, 0x0B] = some (.loadDsk [0x0A, 0x0B] .prodos) ∧
    reads .internal [0x31, 0x00, 0x11] = some (.nibblizeTrack .drive1 17) ∧
    reads .internal [0x32, 0x01, 0x22] = some (.materializeTrack .drive2 34) ∧
    reads .internal [0x33, 0x00, 0x00] = some (.denibblizeTrack .drive1 0) ∧
    reads .internal [0x34, 0x01] = some (.flush .drive2) := by decide

theorem test_decode_woz_reader :
    reads .internal [0x40, 0x01, 0, 0, 0, 0x57] = some (.loadWoz [0x57]) ∧ reads .internal [0x41, 0x00] = some (.readBit .drive1) ∧
    reads .internal [0x42, 0x01] = some (.readNibbleWoz .drive2) ∧
    reads .internal [0x43, 0x00, 0x9F] = some (.getTrackBitCount .drive1 159) := by decide

theorem test_decode_drive_operations :
    reads .internal [0x50, 0x01, 0x02, 0x0C, 0, 0, 0, 0, 0, 0] = some (.advanceBitPosition .drive2 3074) ∧
    reads .internal [0x51, 0x00] = some (.readNibble .drive1) ∧ reads .internal [0x52, 0x00, 0x17] = some (.writeNibble .drive1 0x17) ∧
    reads .internal [0x53, 0x01, 0x06] = some (.setPhase .drive2 0b0110) ∧
    reads .internal [0x54, 0x00] = some (.getQuarterTrack .drive1) ∧ reads .internal [0x55, 0x01, 0x46] = some (.getters .drive2 70) := by
  decide

theorem test_decode_host_operations :
    reads .host [0x60] = some .powerCycle ∧ reads .host [0x61] = some .softReset ∧
    reads .host [0x62, 0xF6, 0x0D, 0, 0, 0, 0, 0, 0] = some (.setCycleCount 3574) ∧
    reads .host [0x63, 0x01, 0x02, 0x01, 0x01, 0, 0, 0, 0x57] = some (.insertDisk .drive2 [0x57] .woz true) ∧
    reads .host [0x64, 0x00] = some (.ejectDisk .drive1) ∧ reads .host [0x65, 0x01] = some (.save .drive2) ∧
    reads .host [0x66] = some .observe ∧ reads .bus [0x67, 0x0A, 0xC6] = some (.romRead 0xC60A) := by decide

theorem test_decode_rejects_by_name :
    decode ⟨.bus, []⟩ = .error .emptyRequest ∧ decode ⟨.bus, [0x20]⟩ = .error .notABusWord ∧
    decode ⟨.bus, [0x41, 0]⟩ = .error .notABusWord ∧ decode ⟨.bus, [0x60]⟩ = .error .notABusWord ∧
    decode ⟨.host, [0x41, 0]⟩ = .error .otherInterface ∧ decode ⟨.host, [0x67, 0, 0xC6]⟩ = .error .otherInterface ∧
    decode ⟨.internal, [0x60]⟩ = .error .otherInterface ∧ decodeAgent ⟨.internal, [0x41, 0]⟩ = .error .internalOnly ∧
    decode ⟨.bus, [0x1D]⟩ = .error .missingDataByte ∧ decode ⟨.bus, [0x0C, 0x00]⟩ = .error .trailingBytes ∧
    decode ⟨.internal, [0x14]⟩ = .error .unknownCode ∧ decode ⟨.internal, [0x35, 0]⟩ = .error .unknownCode ∧
    decode ⟨.internal, [0x11, 0]⟩ = .error .truncatedOperands ∧ decode ⟨.internal, [0x34, 2]⟩ = .error .badDrive ∧
    decode ⟨.internal, [0x31, 0, 35]⟩ = .error .badTrack ∧ decode ⟨.internal, [0x55, 0, 160]⟩ = .error .badQuarterTrack ∧
    decode ⟨.internal, [0x53, 0, 16]⟩ = .error .badSelector :=
  ⟨rfl, rfl, rfl, rfl, rfl, rfl, rfl, rfl, rfl, rfl, rfl, rfl, rfl, rfl, rfl, rfl, rfl⟩

/-- Table words: R113's rows as `opcode_table.json` has them, eight bits each. -/
theorem test_table_words :
    decodeTableWord 8 0x0C = some (.q6l .read) ∧ decodeTableWord 8 0x10 = some (.encode4and4 0) ∧
    decodeTableWord 8 0x12 = some (.buildAddressField 0 0 0) ∧ decodeTableWord 8 0x63 = some (.insertDisk .drive1 [] .dskDos false) ∧
    decodeTableWord 8 0x1D = some (.q6h (.write 0)) ∧ decodeTableWord 8 0x68 = none := by decide

theorem test_table_word_steps_first :
    step (State.reset.withFetchWord 8 0x09) = exec (.motorOn .read) State.reset ∧
    step (State.reset.withFetchWord 8 0x66) = exec .observe State.reset ∧
    step (State.reset.withFetchWord 8 0x67) = exec (.romRead 0) State.reset ∧
    step (State.reset.withFetchWord 8 0x41) = exec (.readBit .drive1) State.reset := ⟨rfl, rfl, rfl, rfl⟩

/-- R336: an agent that asks for an internal operation gets nothing. -/
theorem test_agent_asks_for_an_internal_operation :
    step { State.reset with pending := [⟨.host, [0x52, 0, 0x17]⟩] } = .refused (.undecodable .otherInterface) ∧
    step { State.reset with pending := [⟨.internal, [0x52, 0, 0x17]⟩] } = .refused (.undecodable .internalOnly) :=
  ⟨rfl, rfl⟩

/-! ### The sixteen switches (V-S1, V-S2, V-S6, V-S7, P1 to P4, V-C1 to V-C5) -/

/-- The mask and the head after one access. -/
def head (i : Instr) (mask : BitVec 4) (q : Nat) : BitVec 4 × Nat :=
  let t := after i { placed (running (.dsk zero)) q 0 with phaseMask := mask }
  (t.phaseMask, t.driveSlot1.quarterTrack)

theorem test_phase0Off : head (.phase0Off .read) 0b0011 1 = (0b0010, 2) := by decide
theorem test_phase0On : head (.phase0On .read) 0b1000 6 = (0b1001, 7) ∧ head (.phase0On .read) 0b0010 2 = (0b0011, 1) := by decide
theorem test_phase1Off : head (.phase1Off .read) 0b0110 3 = (0b0100, 4) := by decide
theorem test_phase1On : head (.phase1On .read) 0b0000 0 = (0b0010, 2) ∧ head (.phase1On .read) 0b0001 137 = (0b0011, 137) := by decide
theorem test_phase2Off : head (.phase2Off .read) 0b1100 5 = (0b1000, 6) ∧ head (.phase2Off .read) 0b0101 4 = (0b0001, 4) := by decide
theorem test_phase2On : head (.phase2On .read) 0b0010 138 = (0b0110, 139) ∧ head (.phase2On .read) 0b0000 16 = (0b0100, 16) := by decide
theorem test_phase3Off : head (.phase3Off .read) 0b1001 139 = (0b0001, 136) := by decide
theorem test_phase3On : head (.phase3On .read) 0b0000 8 = (0b1000, 6) ∧ head (.phase3On .read) 0b0110 10 = (0b1110, 10) := by decide

/-- V-S6: with the motor off the mask changes and the head does not. -/
theorem test_phase_motor_off :
    let t := after (.phase1On .read) { placed (running (.dsk zero)) 10 0 with motorOn := false }
    t.phaseMask = 0b0010 ∧ t.driveSlot1.quarterTrack = 10 := by decide

/-- P4 lines 3 and 7. -/
theorem test_motorOff :
    let t := after (.motorOff .read) { State.reset with motorOn := true, cycleNow := 1100000 }
    t.motorOn = true ∧ t.motorOffPending = true ∧ t.motorOffCycle = 1100000 ∧
      (after (.motorOff .read) { t with cycleNow := 1100500 }).motorOffCycle = 1100000 := by decide

/-- P1 line 2, P4 line 4. -/
theorem test_motorOn :
    (after (.motorOn .read) { State.reset with cycleNow := 20 }).driveSlot2.lastAccessCycle = 20 ∧
    (after (.motorOn (.write 0x55))
      { State.reset with motorOn := true, motorOffPending := true, cycleNow := 7 }).driveSlot1.lastAccessCycle = 0 := by decide

/-- V-C3: a change of drive flushes; selecting the selected drive does not. -/
theorem test_drive1Sel_same_drive : after (.drive1Sel .read) (running (.dsk written)) =
    { running (.dsk written) with result := .byte 0x00, emitted := [.access (0xC080 + Config.slot * 16 + 10) false 0x00] } := rfl

theorem test_drive2Sel_flushes :
    let t := after (.drive2Sel .read) (running (.dsk stray))
    t.selectedDrive = .drive2 ∧
      (sectorImage? t.driveSlot1).map (fun img => (img.dirtyAt 0, Memory.read img.sectors 5)) =
        some (false, 0x11) := by decide +kernel

/-- P1 lines 1 and 43, P4 lines 8 and 9. -/
theorem test_q6l :
    let s : State := { running (.dsk threeNibbles) with cycleNow := 31 }
    resultOf (exec (.q6l .read) s) = some (.byte 0xAA) ∧ (after (.q6l .read) s).driveSlot1.cursor = 2 ∧
      (after (.q6l (.write 0x55)) s).driveSlot1.lastAccessCycle = 31 ∧
      resultOf (exec (.q6l .read) { s with motorOn := false }) = some (.byte 0x00) := by decide +kernel

theorem test_q6l_motor_timeout :
    let s : State := { running (.dsk threeNibbles) with motorOffPending := true, motorOffCycle := 2000000 }
    (after (.q6l .read) { s with cycleNow := 3022999 }).motorOn = true ∧
      (after (.q6l .read) { s with cycleNow := 3023000 }).motorOn = false ∧
      resultOf (exec (.q6l .read) { s with cycleNow := 3023000 }) = some (.byte 0x00) := by decide +kernel

/-- V-C2 and R276's worked example: `v = 0x17` stores 0x97 and leaves the latch 0x17. -/
theorem test_q6h_sense :
    let s := running (.dsk zero)
    resultOf (exec (.q6h .read) { s with driveSlot1 := { s.driveSlot1 with writeProtect := true } }) = some (.byte 0x80) ∧
      resultOf (exec (.q6h .read) s) = some (.byte 0x00) ∧ (after (.q6h .read) s).q6 = true := by decide +kernel

theorem test_q6h_write :
    let t := after (.q6h (.write 0x17)) { placed (running (.dsk threeNibbles)) 0 2 with q7 := true, cycleNow := 50 }
    t.dataLatch = 0x17 ∧ t.driveSlot1.cursor = 3 ∧ t.driveSlot1.lastAccessCycle = 50 ∧
      (sectorImage? t.driveSlot1).map (fun img => (img.cacheAt 0, img.dirtyAt 0)) =
        some (some [0xD5, 0xAA, 0x97], true) := by decide +kernel

/-- V-C1. -/
theorem test_q7l : resultOf (exec (.q7l .read) { State.reset with q7 := true, dataLatch := 0x96 }) = some (.byte 0x96) ∧
    (after (.q7l .read) { State.reset with q7 := true }).q7 = false := by decide

theorem test_q7h : resultOf (exec (.q7h .read) { State.reset with dataLatch := 0x96 }) = some (.byte 0x00) ∧
    (after (.q7h (.write 0xFF)) State.reset).q7 = true ∧ (after (.q7h (.write 0xFF)) State.reset).dataLatch = 0x00 := by decide

/-! ### Encoder and decoder (V-E1 to V-E7, V-D1 to V-D9) -/

theorem test_encode4and4 : resultOf (exec (.encode4and4 0x7F) State.reset) = some (.nibblePair 0xBF 0xFF) ∧
    resultOf (exec (.encode4and4 0xFE) State.reset) = some (.nibblePair 0xFF 0xFE) := by decide

theorem test_encode6and2_a5 : resultOf (exec (.encode6and2 (fill 0xA5)) State.reset) =
    some (.bytes ([0xE6] ++ List.replicate 83 0x96 ++ [0xD6, 0x96, 0xDA] ++ List.replicate 255 0x96 ++ [0xE5])) := by
  decide +kernel

theorem test_encode6and2_ramp :
    (encodeData ramp).take 12 = [0x9D, 0xE6, 0xFF, 0xE6, 0xFF, 0xE6, 0xFF, 0xE6, 0xFF, 0xE6, 0xFF, 0xE6] ∧
    ((encodeData ramp).drop 84).take 8 = [0xFF, 0xAC, 0xB2, 0x96, 0x96, 0x96, 0x97, 0x96] ∧
    (encodeData ramp).drop 337 = [0x96, 0x97, 0x96, 0x96, 0x96, 0xFF] := by decide +kernel

theorem test_buildAddressField :
    resultOf (exec (.buildAddressField 254 17 5) State.reset) = some (.bytes
      [0xD5, 0xAA, 0x96, 0xFF, 0xFE, 0xAA, 0xBB, 0xAA, 0xAF, 0xFF, 0xEA, 0xDE, 0xAA, 0xEB]) ∧
    resultOf (exec (.buildAddressField 1 34 15) State.reset) = some (.bytes
      [0xD5, 0xAA, 0x96, 0xAA, 0xAB, 0xBB, 0xAA, 0xAF, 0xAF, 0xBE, 0xAE, 0xDE, 0xAA, 0xEB]) := by decide

theorem test_buildSector : resultOf (exec (.buildSector 254 0 0 (fill 0)) State.reset) = some (.bytes
    (List.replicate 20 0xFF ++ [0xD5, 0xAA, 0x96, 0xFF, 0xFE, 0xAA, 0xAA, 0xAA, 0xAA, 0xFF, 0xFE, 0xDE, 0xAA, 0xEB] ++
      List.replicate 6 0xFF ++ [0xD5, 0xAA, 0xAD] ++ List.replicate 343 0x96 ++ [0xDE, 0xAA, 0xEB])) := by decide +kernel

theorem test_decode4and4 : resultOf (exec (.decode4and4 0xBF 0xFF) State.reset) = some (.byte 0x7F) ∧
    resultOf (exec (.decode4and4 0xD5 0xAA) State.reset) = some (.byte 0xAA) := by decide

theorem test_decode6and2_failures :
    resultOf (exec (.decode6and2 (List.replicate 342 0x96 ++ [0x97])) State.reset) = some (.failed .checksumMismatch) ∧
    resultOf (exec (.decode6and2 (List.replicate 100 0x96 ++ [0xAA] ++ List.replicate 241 0x96 ++ [0x97])) State.reset) =
      some (.failed .invalidNibble) := by decide +kernel

theorem test_decode6and2_not_injective :
    resultOf (exec (.decode6and2 (List.replicate 84 0x96 ++ [0xB4, 0xB4] ++ List.replicate 257 0x96)) State.reset) =
      some (.bytes (fill 0)) := by decide +kernel

theorem test_decodeAddressField :
    resultOf (exec (.decodeAddressField
      [0xD5, 0xAA, 0x96, 0xFF, 0xFE, 0xAA, 0xBB, 0xAA, 0xAF, 0xFF, 0xEA] 0) State.reset) = some (.addressField 254 17 5) ∧
    resultOf (exec (.decodeAddressField
      [0xFF, 0xD5, 0xAA, 0x96, 0xFF, 0xFE, 0xAA, 0xAA, 0xAA, 0xAA, 0xFF] 1) State.reset) = some (.failed .checksumMismatch) := by
  decide

theorem test_findDataField : resultOf (exec (.findDataField oneSector 31) State.reset) = some (.count 40) ∧
    resultOf (exec (.findDataField [0xD5, 0xAA, 0x96, 0xFF] 3) State.reset) = some (.failed .noDataField) := by decide +kernel

theorem test_decodeSectorAt :
    exec (.decodeSectorAt (field (legal 0)) 0) State.reset =
      .next (State.reset.answered (.sector 254 0 0 (fill 0))) ∧
    resultOf (exec (.decodeSectorAt address0 0) State.reset) = some (.failed .noDataField) := by
  refine ⟨?_, by decide +kernel⟩
  have hl : 0 < (field (legal 0)).length := by decide +kernel
  simp only [exec, execDecodeSectorAt, hl, decoded_field, answerOrFail, answer, if_true]

/-! ### Track synthesizer (V-T1 to V-T5, V-H3) -/

theorem test_loadDsk_size (file : List Byte) (h : file.length = 143359 ∨ file.length = 143361) :
    exec (.loadDsk file .dos) State.reset = .next (State.reset.answered (.failed .loadErrorBadSize)) := by
  rcases h with h | h <;> simp [exec, execLoadDsk, loadSectorImage, answerOrFail, answer, h]

theorem test_nibblizeTrack :
    (match resultOf (exec (.nibblizeTrack .drive1 0) (running (.dsk zero))) with
    | some (.bytes b) => (b.drop 436).take 14
    | _ => []) = [0xD5, 0xAA, 0x96, 0xFF, 0xFE, 0xAA, 0xAA, 0xAA, 0xAB, 0xFF, 0xFF, 0xDE, 0xAA, 0xEB] := by decide +kernel

/-- V-T3: the A5 sector of the file stands at physical sector 1, at 0x0700 in DOS order, 0x0800 in ProDOS order. -/
theorem test_interleave :
    sectorOffset 0 (logicalSector .dos 1) = 0x0700 ∧ sectorOffset 0 (logicalSector .prodos 1) = 0x0800 ∧
    sectorOffset 17 (logicalSector .dos 0) = 0x11000 ∧ logicalSector .dos 15 = 15 ∧ logicalSector .prodos 15 = 15 := by decide

theorem test_materializeTrack :
    resultOf (exec (.materializeTrack .drive1 0) (running (.dsk threeNibbles))) = some (.bytes [0xD5, 0xAA, 0x96]) := by
  decide +kernel

theorem test_denibblizeTrack :
    (sectorImage? (after (.denibblizeTrack .drive1 0) (running (.dsk written))).driveSlot1).map
      (fun img => (img.sectors, img.dirtyAt 0)) = some (Memory.ofBytes 0x700 (fill 0xA5), true) := by decide +kernel

theorem test_flush :
    (sectorImage? (after (.flush .drive1) (running (.dsk stray))).driveSlot1).map
      (fun img => (img.sectors, img.dirtyAt 0, img.cacheAt 0)) = some ([(5, 0x11)], false, some [0xFF, 0xD5]) := by
  decide +kernel

/-! ### WOZ reader (V-W1 to V-W6, P5) -/

theorem test_loadWoz :
    (match resultOf (exec (.loadWoz p5File) State.reset) with
    | some (.image (.woz img)) => decide (img.tmap = p5Image.tmap) &&
        decide ((trackData img 0).map (fun T => (T.bitCount, T.bytes.take 7)) =
          some (52, [0xFF, 0x3F, 0xCD, 0x5A, 0xA9, 0x6A, 0xD0]))
    | _ => false) = true := by decide +kernel

theorem test_loadWoz_failures :
    resultOf (exec (.loadWoz (p5File.set 21 0x02)) State.reset) = some (.failed .loadErrorUnsupportedDiskType) ∧
    resultOf (exec (.loadWoz (p5File.set 256 0x04)) State.reset) = some (.failed .loadErrorTruncatedChunk) ∧
    resultOf (exec (.loadWoz (((p5File.set 260 0x01).set 261 0x10))) State.reset) = some (.failed .loadErrorBadTrack) ∧
    resultOf (exec (.loadWoz ((p5File.set 80 0x58))) State.reset) = some (.failed .loadErrorMissingChunk) ∧
    resultOf (exec (.loadWoz (((p5File.take 1528).set 252 0xF8).set 253 0x04)) State.reset) =
      some (.failed .loadErrorChunkTooSmall) := by decide +kernel

/-- R202: unknown and second chunks are skipped, in any order, and seven bytes left over are ignored. -/
theorem test_walkChunks :
    (walkChunks (wozFile 0x32 [0, 0, 0, 0]
      [([0x4D, 0x45, 0x54, 0x41], [9]), (trksId, [1, 2]), (tmapId, []), (infoId, [7]), (infoId, [8, 8])]
      (List.replicate 7 0xFF))).toOption = some ⟨some ⟨47, 1⟩, some ⟨39, 0⟩, some ⟨29, 2⟩⟩ := by decide +kernel

theorem test_readBit :
    resultOf (exec (.readBit .drive1) (placed (running (.woz p5Image)) 0 51)) = some (.bit true) ∧
    (after (.readBit .drive1) (placed (running (.woz p5Image)) 0 51)).driveSlot1.cursor = 0 := by decide +kernel

/-- V-W2, with the parameter at its default of 64. -/
theorem test_readNibbleWoz :
    let d := (placed (running (.woz p5Image)) 0 26).driveSlot1
    (nextWozNibble 64 d).1 = 0xD5 ∧ (nextWozNibble 64 d).2.cursor = 35 := by decide +kernel

/-- V-W3. -/
theorem test_readNibbleWoz_ceiling :
    let d := (running (.woz { p5Image with trk := [(0x00, ⟨64, List.replicate 8 0⟩)] })).driveSlot1
    (nextWozNibble 64 d).1 = 0x00 ∧ (nextWozNibble 64 d).2.cursor = 0 ∧ (nextWozNibble 8 d).2.cursor = 8 := by decide +kernel

theorem test_getTrackBitCount :
    resultOf (exec (.getTrackBitCount .drive1 1) (running (.woz p5Image))) = some (.count 52) ∧
    resultOf (exec (.getTrackBitCount .drive1 2) (running (.woz p5Image))) = some (.count 0) := by decide +kernel

/-! ### Drive operations (V-R1, V-S4, V-S8, V-S9) -/

theorem test_advanceBitPosition :
    (after (.advanceBitPosition .drive1 400) (placed (running (.dsk zero)) 0 6650)).driveSlot1.cursor = 7 ∧
    (after (.advanceBitPosition .drive1 41) (placed (running (.woz p5Image)) 0 18)).driveSlot1.cursor = 26 := by decide +kernel

theorem test_readNibble :
    resultOf (exec (.readNibble .drive1) (placed (running (.dsk threeNibbles)) 3 1)) = some (.byte 0xAA) ∧
    (after (.readNibble .drive1) (placed (running (.dsk threeNibbles)) 3 6655)).driveSlot1.cursor = 0 := by decide +kernel

theorem test_writeNibble :
    let s := placed (running (.dsk (zero.setCache 1 [0xD5, 0xAA, 0x96]))) 6 2
    (sectorImage? (after (.writeNibble .drive1 0x17) s).driveSlot1).map
      (fun img => (img.cacheAt 1, img.dirtyAt 1, img.dirtyAt 0)) = some (some [0xD5, 0xAA, 0x97], true, false) := by
  decide +kernel

theorem test_writeNibble_protected :
    let s := running (.dsk threeNibbles)
    let p : State := { s with driveSlot1 := { s.driveSlot1 with writeProtect := true } }
    (after (.writeNibble .drive1 0x17) p).driveSlot1 = p.driveSlot1 := by decide +kernel

theorem test_setPhase :
    (after (.setPhase .drive1 0b0110) (placed (running (.dsk zero)) 0 0)).driveSlot1.quarterTrack = 3 ∧
    (after (.setPhase .drive1 0b1000) (placed (running (.dsk zero)) 138 0)).driveSlot1.quarterTrack = 138 ∧
    (after (.setPhase .drive1 0b0001) (placed (running (.woz p5Image)) 159 0)).driveSlot1.quarterTrack = 159 := by decide +kernel

theorem test_getQuarterTrack :
    resultOf (exec (.getQuarterTrack .drive1) (placed State.reset 70 0)) = some (.position 70 17) := by decide

theorem test_getters :
    resultOf (exec (.getters .drive1 1) (running (.woz p5Image))) = some (.metadata ⟨true, some .woz2, 40, true, 52, false⟩) ∧
    resultOf (exec (.getters .drive1 2) (running (.woz p5Image))) = some (.metadata ⟨true, some .woz2, 40, false, 0, false⟩) ∧
    resultOf (exec (.getters .drive1 2) (running (.dsk zero))) = some (.metadata ⟨true, some .dskDos, 35, true, 0, false⟩) := by
  decide +kernel

/-! ### Host operations and resets (V-H1 to V-H6) -/

theorem test_powerCycle : after .powerCycle (placed (running (.dsk written)) 70 9) = State.reset := rfl

theorem test_softReset :
    after .softReset { running (.dsk written) with q7 := true, result := .byte 3 } =
      { running (.dsk written) with q7 := true } := rfl

theorem test_setCycleCount :
    let s : State := { State.reset with cycleNow := 100 }
    (after (.setCycleCount 99) s).cycleNow = 100 ∧ resultOf (exec (.setCycleCount 99) s) = some .countRefused ∧
      resultOf (exec (.setCycleCount 100) s) = some .countTaken ∧ (after (.setCycleCount 3574) s).cycleNow = 3574 := by decide

/-- V-H4: the head is clamped into the new image's range. -/
theorem test_insertDisk_head (file : List Byte) (h : file.length = 143360) :
    (after (.insertDisk .drive1 file .dskDos true) (placed State.reset 150 9)).driveSlot1.quarterTrack = 139 := by
  simp [after, exec, execInsertDisk, loadImage, loadSectorImage, answer, insertInto, tracksOf, placed, Except.map, Config.dskTracks, h]

theorem test_insertDisk_woz :
    let t := after (.insertDisk .drive2 p5File .woz false) { placed State.reset 150 9 with cycleNow := 8 }
    t.result = .inserted ∧ t.driveSlot2.lastAccessCycle = 8 ∧ t.driveSlot1.quarterTrack = 150 := by decide +kernel

theorem test_ejectDisk :
    let t := after (.ejectDisk .drive1) (placed (running (.dsk stray)) 70 9)
    t.result = .sectorFile [(5, 0x11)] ∧ t.driveSlot1.image = none ∧
      t.driveSlot1.quarterTrack = 70 ∧ t.driveSlot1.cursor = 9 := by decide +kernel

theorem test_save :
    resultOf (exec (.save .drive1) (running (.dsk stray))) = some (.sectorFile [(5, 0x11)]) ∧
    resultOf (exec (.save .drive1) (running (.woz p5Image))) = some .absent := by decide +kernel

theorem test_observe :
    resultOf (exec .observe State.reset) = some (.observation ⟨0, 0, .drive1, false, 0b0000, 0x00⟩) ∧
    resultOf (exec .observe { State.reset with motorOn := true, motorOffPending := true, cycleNow := 1023000 }) =
      some (.observation ⟨0, 0, .drive1, false, 0b0000, 0x00⟩) := by decide

theorem test_romRead : resultOf (exec (.romRead 0xC6FF) State.reset) = some (.byte (Config.bootRom 0xFF)) := rfl


/-! ## Witnesses

For each statement of `Certificates/Slice0/Obligations.lean` that has hypotheses: states and operands that meet them. -/

/-- One instance of every switch. -/
def everySwitch : List Instr :=
  [.phase0Off .read, .phase0On (.write 1), .phase1Off .read, .phase1On .read, .phase2Off .read, .phase2On .read,
    .phase3Off .read, .phase3On .read, .motorOff .read, .motorOn .read, .drive1Sel .read, .drive2Sel (.write 0),
    .q6l .read, .q6h (.write 0x97), .q7l .read, .q7h .read]

/-- One instance of every codec operation. -/
def everyCodecOperation : List Instr :=
  [.encode4and4 0xFE, .encode6and2 (fill 0), .buildAddressField 254 17 5, .buildSector 254 0 0 (fill 0),
    .decode4and4 0xFF 0xFE, .decode6and2 (legal 0), .decodeAddressField [0xD5] 0, .findDataField [0xD5] 4294967295,
    .decodeSectorAt [0xD5] 0]

/-- One instance of every image and drive operation. -/
def everyDriveOperation : List Instr :=
  [.loadDsk [] .dos, .nibblizeTrack .drive1 34, .materializeTrack .drive2 0, .denibblizeTrack .drive1 34,
    .flush .drive1, .loadWoz [], .readBit .drive1, .readNibbleWoz .drive1, .getTrackBitCount .drive1 159,
    .advanceBitPosition .drive1 3074, .readNibble .drive1, .writeNibble .drive2 0x17, .setPhase .drive1 0b0110,
    .getQuarterTrack .drive2, .getters .drive1 159]

/-- One instance of every host operation. -/
def everyHostOperation : List Instr :=
  [.powerCycle, .softReset, .setCycleCount 500, .insertDisk .drive1 [] .woz true, .ejectDisk .drive1, .save .drive2,
    .observe, .romRead 0xC600]

/-- `DecodeOfEncodeIsTheOperation`, `EveryWellFormedOperationCompletes`: every operation has a well-formed instance. -/
theorem witness_wellFormed :
    everySwitch.all Instr.wellFormed = true ∧ everyCodecOperation.all Instr.wellFormed = true ∧
    everyDriveOperation.all Instr.wellFormed = true ∧ everyHostOperation.all Instr.wellFormed = true ∧
    everySwitch.length + everyCodecOperation.length + everyDriveOperation.length + everyHostOperation.length = 48 := by
  decide +kernel

/-- `EncodeOfDecodeIsTheRequest`. -/
theorem witness_decodable : decode ⟨.internal, [0x53, 0x01, 0x06]⟩ = .ok (.setPhase .drive2 0b0110) := rfl

/-- `StepPerformsTheNextRequest`: each clause. -/
theorem witness_step :
    State.reset.calls = [] ∧ State.reset.pending = [] ∧ (State.reset.withFetchWord 8 0x66).pending = ⟨.host, [0x66]⟩ :: [] ∧
    (State.reset.withFetchWord 8 0x41).calls = [0x41, 0] :: [] ∧ decode ⟨.internal, [0x41, 0]⟩ = .ok (.readBit .drive1) ∧
    decode ⟨.internal, [0x66]⟩ = .error .otherInterface ∧ decode ⟨.host, [0x66]⟩ = .ok .observe ∧
    ({ State.reset with pending := [⟨.internal, [0x41, 0]⟩] } : State).pending = ⟨.internal, [0x41, 0]⟩ :: [] ∧ (State.reset.withFetchWord 8 0x0C).pending = ⟨.bus, [0x0C]⟩ :: [] ∧
    decode ⟨.bus, [0x0C]⟩ = .ok (.q6l .read) ∧ decode ⟨.host, [0x68]⟩ = .error .unknownCode := ⟨rfl, rfl, rfl, rfl, rfl, rfl, rfl, rfl, rfl, rfl, rfl⟩

/-- `ArgumentsOutsideTheirTypesAreStuck`: each clause at the edges of its range. -/
theorem witness_outside_types :
    (List.replicate 255 (0 : Byte)).length ≠ 256 ∧ (List.replicate 257 (0 : Byte)).length ≠ 256 ∧
    (List.replicate 342 (0 : Byte)).length ≠ 343 ∧ (List.replicate 344 (0 : Byte)).length ≠ 343 ∧ 35 ≤ 35 ∧ 160 ≤ 160 := by
  simp only [List.length_replicate]; decide

/-- `PairEncodingBits`, its inner hypothesis. -/
theorem witness_pair : exec (.encode4and4 0xFE) State.reset = .next (State.reset.answered (.nibblePair 0xFF 0xFE)) := rfl

/-- The statements about 256 data bytes. -/
theorem witness_data_length : (fill 0xA5).length = 256 := List.length_replicate

theorem legal_mem (x : SixBit) : ∀ b ∈ legal x, b ∈ t62 := by
  intro b hb
  rcases List.mem_append.mp hb with h | h
  · rw [List.eq_of_mem_replicate h]; decide
  · rw [List.mem_singleton.mp h]; exact translate_mem_t62 x

theorem legal_xor (x : SixBit) : xorOfValues (legal x) = x := by
  have zeros : ∀ n : Nat, (List.replicate n (0x96 : Byte)).foldl (fun y b => y ^^^ (rev62 b).getD 0) 0 = 0 := by
    intro n
    induction n with
    | zero => rfl
    | succ n ih => rw [List.replicate_succ, List.foldl_cons]; exact ih
  simp only [xorOfValues, legal, List.foldl_append, zeros, List.foldl_cons, List.foldl_nil, rev62_translate,
    Option.getD_some]
  exact BitVec.zero_xor

/-- `DataDecodingChecksAndRecombines`: each of the three clauses. -/
theorem witness_data_decoding :
    (∃ b ∈ List.replicate 342 (0x96 : Byte) ++ [0xAA], b ∉ t62) ∧ (legal 0).length = 343 ∧
    (∀ b ∈ legal 1, b ∈ t62) ∧ xorOfValues (legal 1) ≠ 0 ∧ (∀ b ∈ legal 0, b ∈ t62) ∧ xorOfValues (legal 0) = 0 :=
  ⟨⟨0xAA, List.mem_append_right _ (List.mem_singleton.mpr rfl), by decide⟩, by decide +kernel, legal_mem 1, by rw [legal_xor]; decide, legal_mem 0, legal_xor 0⟩

/-- `SingleSubstitutionIsDetected`, at both ends. -/
theorem witness_substitution :
    exec (.decode6and2 (legal 0)) State.reset = .next (State.reset.answered (.bytes (fill 0))) ∧
    (0x97 : Byte) ∈ t62 ∧ (legal 0)[0]? ≠ some 0x97 ∧ (legal 0)[342]? ≠ some 0x97 := by
  refine ⟨?_, by decide +kernel, by decide +kernel, by decide +kernel⟩
  have hl : (legal 0).length = 343 := by decide +kernel
  simp only [exec, execDecode6and2, hl, decoded_legal, answerOrFail, answer, if_true]

/-- `AddressDecodingChecksTheSum`, `DataFieldSearch`: both clauses of the search, in a buffer of three nibbles. -/
theorem witness_search :
    ([0xD5, 0xAA, 0xAD] : List Byte) ≠ [] ∧ Prologue [0xD5, 0xAA, 0xAD] 3 0xAD ∧
    (∀ m, 3 ≤ m → m < 3 → ¬ Prologue [0xD5, 0xAA, 0xAD] m 0xAD ∧ ¬ Prologue [0xD5, 0xAA, 0xAD] m 0x96) ∧
    (∀ j, 0 ≤ j → j < 0 + 3 → ¬ Prologue [0xD5, 0xAA, 0x96] j 0xAD) := by
  refine ⟨by decide, by simp [Prologue, g], fun m h h' => absurd h' (by omega), fun j _ h => ?_⟩
  have h : j < 3 := by omega
  simp only [Prologue, g]
  interval_cases j <;> decide

/-- `SectorDecodingReportsTheFirstFailure`: the address check, the search and the data decode, failing and succeeding. -/
theorem witness_sector_decoding :
    resultOf (exec (.decodeAddressField (address0.set 10 0xFF) 0) State.reset) = some (.failed .checksumMismatch) ∧
    resultOf (exec (.decodeAddressField (field (legal 0)) 0) State.reset) = some (.addressField 254 0 0) ∧
    resultOf (exec (.findDataField address0 11) State.reset) = some (.failed .noDataField) ∧
    resultOf (exec (.findDataField (field (legal 0)) 11) State.reset) = some (.count 11) ∧
    ((List.range 343).map fun m => g (field (legal 0)) (11 + 3 + m)) = legal 0 ∧
    exec (.decode6and2 (legal 0)) State.reset = .next (State.reset.answered (.bytes (fill 0))) ∧
    resultOf (exec (.decode6and2 (legal 1)) State.reset) = some (.failed .checksumMismatch) := by
  refine ⟨by decide +kernel, by decide +kernel, by decide +kernel, by decide +kernel, slice_field,
    witness_substitution.1, by decide +kernel⟩

/-- `LoadDskTakesTheBytes`, `InsertDiskLoadsOrChangesNothing`: files of both lengths exist. -/
theorem witness_file_lengths :
    (∃ file : List Byte, file.length = 143360) ∧ ∃ file : List Byte, file.length ≠ 143360 :=
  ⟨⟨_, List.length_replicate (a := 0)⟩, [], by decide⟩

/-- The statements about a sector image in a drive and a track in range, first and last. -/
theorem witness_sector_image :
    ((running (.dsk zero)).drive .drive1).image = some (.dsk zero) ∧ 0 < 35 ∧ 34 < 35 := ⟨rfl, by decide, by decide⟩

/-- `MaterializationCachesOnce`, `DenibblizeStoresTheLastDecodeOfEachSector`: a track with a buffer and one without. -/
theorem witness_cache : written.cacheAt 0 = some oneSector ∧ written.cacheAt 1 = none := by decide +kernel

/-- `DenibblizeStoresTheLastDecodeOfEachSector`: sector 0 is found once, at 0, and no other sector is found. -/
theorem witness_found :
    Prologue (field (legal 0)) 0 0x96 ∧
    exec (.decodeSectorAt (field (legal 0)) 0) State.reset = .next (State.reset.answered (.sector 254 0 0 (fill 0))) ∧
    ∀ i, i < (field (legal 0)).length → Prologue (field (legal 0)) i 0x96 → i = 0 := by
  have only : (List.range 357).all (fun i => !(g (field (legal 0)) i == 0xD5) || i == 0 || i == 11) = true := by
    decide +kernel
  have len : (field (legal 0)).length = 357 := by decide +kernel
  refine ⟨⟨by decide +kernel, by decide +kernel, by decide +kernel⟩, test_decodeSectorAt.1, fun i hi h => ?_⟩
  rw [len] at hi
  have := List.all_eq_true.mp only i (List.mem_range.mpr hi)
  simp only [h.1, beq_self_eq_true, Bool.not_true, Bool.false_or, Bool.or_eq_true, beq_iff_eq] at this
  rcases this with h0 | h11
  · exact h0
  · subst h11; exact absurd h.2.2 (by decide +kernel)

/-- `DenibblizeOfSynthesizedTrackIsIdentity`: an image that holds its own synthesized track. -/
theorem witness_synthesized :
    let img := zero.setCache 34 (nibblize zero 34)
    exec (.nibblizeTrack .drive1 34) (running (.dsk img)) =
      .next ((running (.dsk img)).answered (.bytes (nibblize zero 34))) ∧
    img.cacheAt 34 = some (nibblize zero 34) := ⟨rfl, by simp [Dsk.setCache, Dsk.cacheAt]⟩

/-- `RewrittenSectorReachesTheImage`: the last physical sector of track 0 rewritten. -/
theorem witness_rewritten :
    let buf := nibblize zero 0
    let new := buf.take (416 * 15 + 43) ++ encodeData ramp ++ buf.drop (416 * 15 + 386)
    let img := zero.setCache 0 new
    exec (.nibblizeTrack .drive1 0) (running (.dsk img)) = .next ((running (.dsk img)).answered (.bytes buf)) ∧
    exec (.encode6and2 ramp) (running (.dsk img)) = .next ((running (.dsk img)).answered (.bytes (encodeData ramp))) ∧
    ramp.length = 256 ∧ img.cacheAt 0 = some new := by
  refine ⟨rfl, ?_, by decide +kernel, by simp [Dsk.setCache, Dsk.cacheAt]⟩
  have h : ramp.length = Config.sectorBytes := by decide +kernel
  simp [exec, execEncode6and2, h, answer]

/-- `FlushDenibblizesTheDirtyTracks`: a dirty track, a clean one, an image with none dirty, no sector image. -/
theorem witness_flush :
    written.dirtyAt 0 = true ∧ written.dirtyAt 1 = false ∧ (∀ t, zero.dirtyAt t = false) ∧
    exec (.denibblizeTrack .drive1 0) (running (.dsk written)) =
      .next ((withImage (running (.dsk written)) .drive1 (denibblize written 0)).answered .nothing) ∧
    ∀ img : Dsk, ((running (.woz p5Image)).drive .drive1).image ≠ some (.dsk img) := by
  refine ⟨by decide +kernel, by decide +kernel, fun t => ?_, rfl, fun img h => by cases h⟩
  simp only [Dsk.dirtyAt, zero]
  by_cases h : t < 35 <;> simp [h]

/-- `WozFilesAreChecked`: each failing header. -/
theorem witness_woz_headers :
    (p5File.take 11).length < 12 ∧ (p5File.set 3 0x33).take 4 ≠ [0x57, 0x4F, 0x5A, 0x31] ∧
    (p5File.set 3 0x33).take 4 ≠ [0x57, 0x4F, 0x5A, 0x32] ∧ ((p5File.set 5 0x0B).drop 4).take 4 ≠ [0xFF, 0x0A, 0x0D, 0x0A] := by
  decide +kernel

/-- Three chunks carry their payloads and make a file, if they fit their sizes. -/
theorem carries_threeChunks (info tmap trks : List Byte) : Carries (threeChunks info tmap trks) info tmap trks :=
  ⟨rfl, rfl, rfl⟩

theorem framed_threeChunks {v : Byte} {info tmap trks : List Byte} (hv : v = 0x31 ∨ v = 0x32)
    (h : info.length < 2 ^ 32 ∧ tmap.length < 2 ^ 32 ∧ trks.length < 2 ^ 32) :
    Framed v [0, 0, 0, 0] (threeChunks info tmap trks) := by
  refine ⟨hv, rfl, fun c hc => ?_⟩
  simp only [threeChunks, List.mem_cons, List.not_mem_nil, or_false] at hc
  rcases hc with rfl | rfl | rfl
  · exact ⟨rfl, h.1⟩
  · exact ⟨rfl, h.2.1⟩
  · exact ⟨rfl, h.2.2⟩

/-- A map that names two indices, and a WOZ2 TRKS payload whose entry 1 is the eight bytes given. -/
def mapOf (a b : Byte) : List Byte := [a, b] ++ List.replicate 158 0xFF
def trksOf (entry : List Byte) : List Byte := p5Trks.take 8 ++ entry ++ p5Trks.drop 16

theorem maps_mapOf {a b : Byte} {q : Nat} {i : Byte} (h : Maps (mapOf a b) q i) : (q = 0 ∧ i = a) ∨ (q = 1 ∧ i = b) := by
  obtain ⟨hq, e, hi⟩ := h
  match q with
  | 0 => exact .inl ⟨rfl, (Option.some.inj e).symm⟩
  | 1 => exact .inr ⟨rfl, (Option.some.inj e).symm⟩
  | q + 2 =>
    simp only [mapOf, List.cons_append, List.nil_append, List.getElem?_cons_succ, List.getElem?_replicate,
      if_pos (show q < 158 by omega), Option.some.injEq] at e
    exact absurd e.symm hi

/-- `WozFilesAreChecked`: a last chunk one byte short, a file with no TMAP, an INFO of 59 bytes, a disk of 3.5 inch, a TMAP of
159 bytes, a TRKS of 1279. -/
theorem witness_woz_chunks :
    Framed 0x32 [0, 0, 0, 0] (threeChunks p5Info p5Tmap p5Trks) ∧
    ([0x4D, 0x45, 0x54, 0x41] : List Byte).length = 4 ∧ ([] : List Byte).length < 1 ∧ 1 < 2 ^ 32 ∧
    Framed 0x31 [0, 0, 0, 0] [(infoId, p5Info), (trksId, p5Trks)] ∧
    List.lookup tmapId [(infoId, p5Info), (trksId, p5Trks)] = none ∧
    Framed 0x31 [0, 0, 0, 0] (threeChunks (p5Info.take 59) p5Tmap p5Trks) ∧ (p5Info.take 59).length < 60 ∧
    60 ≤ (p5Info.set 1 2).length ∧ (p5Info.set 1 2).getD 1 0 ≠ 1 ∧ p5Info.getD 1 0 = 1 ∧
    (p5Tmap.take 159).length < 160 ∧ Headed p5Info p5Tmap ∧ (p5Trks.take 1279).length < 1280 := by
  refine ⟨framed_threeChunks (.inr rfl) (by decide +kernel), rfl, by decide, by decide, ⟨.inl rfl, rfl, fun c hc => ?_⟩, rfl,
    framed_threeChunks (.inl rfl) (by decide +kernel), by decide, by decide, by decide, by decide, by decide +kernel,
    ⟨by decide, by decide, by decide +kernel⟩, by decide +kernel⟩
  simp only [List.mem_cons, List.not_mem_nil, or_false] at hc
  rcases hc with rfl | rfl <;> decide +kernel

/-- One WOZ1 record with the highest bit count its storage allows. -/
def record : List Byte := List.replicate 6648 0xAA ++ [0xB0, 0xCF] ++ List.replicate 6 0

theorem length_record : record.length = 6656 := by
  simp only [record, List.length_append, List.length_replicate, List.length_cons, List.length_nil]

theorem readable_record (file : List Byte) : Readable 0x31 file record 0 := by
  rw [Readable, length_record]
  exact ⟨fun _ => ⟨by decide, by decide +kernel⟩, fun h => absurd h (by decide)⟩

/-- `WozFilesAreChecked`, WOZ1: index 0 can be read, and index 1, the next the map names, has no record; a bit count of 53169. -/
theorem witness_bad_records :
    Maps (mapOf 0 1) 1 1 ∧
    (∀ q i, q < 1 → Maps (mapOf 0 1) q i → Readable 0x31 (wozFile 0x31 [0, 0, 0, 0] (threeChunks p5Info (mapOf 0 1) record) []) record i) ∧
    record.length < ((1 : Byte).toNat + 1) * 6656 ∧ 53168 < recordBits (record.set 6648 0xB1) 0 := by
  refine ⟨⟨by decide, rfl, by decide⟩, fun q i hq h => ?_, by rw [length_record]; decide, by decide +kernel⟩
  rcases maps_mapOf h with ⟨-, rfl⟩ | ⟨rfl, -⟩
  · exact readable_record _
  · exact absurd hq (by decide)

/-- `WozFilesAreChecked`, WOZ2: index 0 can be read; index 160 is out of range, entry 1 names block 4 of a file of four, or
states 4097 bits in one block. -/
theorem witness_bad_entries :
    let file (b : Byte) (trks : List Byte) := wozFile 0x32 [0, 0, 0, 0] (threeChunks p5Info (mapOf 0 b) trks) []
    let outside := trksOf [0x04, 0, 0x01, 0, 0x01, 0, 0, 0]
    let long := trksOf [0x03, 0, 0x01, 0, 0x01, 0x10, 0, 0]
    Maps (mapOf 0 160) 1 160 ∧ Maps (mapOf 0 1) 1 1 ∧ 159 < (160 : Byte).toNat ∧ (1 : Byte).toNat ≤ 159 ∧
    Readable 0x32 (file 160 p5Trks) p5Trks 0 ∧ Readable 0x32 (file 1 outside) outside 0 ∧ Readable 0x32 (file 1 long) long 0 ∧
    ¬ NoTrack outside 1 ∧ ¬ BlocksInside (file 1 outside) outside 1 ∧
    ¬ NoTrack long 1 ∧ BlocksInside (file 1 long) long 1 ∧ blockCount long 1 * 4096 < entryBits long 1 := by
  refine ⟨⟨by decide, rfl, by decide⟩, ⟨by decide, rfl, by decide⟩, ?_⟩
  simp only [Readable, NoTrack, BlocksInside]
  decide +kernel

/-- `WozFilesLoad`, WOZ1: the last record that fits, its bit count 53168. -/
theorem witness_woz1 :
    Framed 0x31 [0, 0, 0, 0] (threeChunks p5Info (mapOf 0 0xFF) record) ∧
    Carries (threeChunks p5Info (mapOf 0 0xFF) record) p5Info (mapOf 0 0xFF) record ∧ Headed p5Info (mapOf 0 0xFF) ∧
    Maps (mapOf 0 0xFF) 0 0 ∧
    ∀ q i, Maps (mapOf 0 0xFF) q i →
      Readable 0x31 (wozFile 0x31 [0, 0, 0, 0] (threeChunks p5Info (mapOf 0 0xFF) record) []) record i := by
  refine ⟨framed_threeChunks (.inl rfl) (by rw [length_record]; decide +kernel), carries_threeChunks _ _ _,
    ⟨by decide, by decide, by decide +kernel⟩, ⟨by decide, rfl, by decide⟩, fun q i h => ?_⟩
  rcases maps_mapOf h with ⟨-, rfl⟩ | ⟨-, rfl⟩
  · exact readable_record _
  · exact absurd rfl h.2.2

/-- `WozFilesLoad`, WOZ2: chunks out of order, one of another id, a second INFO, seven bytes left over; of the two indices one
has a track and the other, entry 159, has none. -/
theorem witness_woz2 :
    let chunks := p5Shuffled.map fun c => if c.1 = tmapId then (tmapId, mapOf 0 159) else c
    let file := wozFile 0x32 [1, 2, 3, 4] chunks (List.replicate 7 0xFF)
    Framed 0x32 [1, 2, 3, 4] chunks ∧ Carries chunks p5Info (mapOf 0 159) p5Trks ∧ Headed p5Info (mapOf 0 159) ∧
    1280 ≤ p5Trks.length ∧ (∀ q i, Maps (mapOf 0 159) q i → Readable 0x32 file p5Trks i) ∧
    Maps (mapOf 0 159) 0 0 ∧ ¬ NoTrack p5Trks 0 ∧ Maps (mapOf 0 159) 1 159 ∧ NoTrack p5Trks 159 := by
  refine ⟨⟨.inr rfl, rfl, ?_⟩, ⟨rfl, rfl, rfl⟩, ⟨by decide, by decide, by decide +kernel⟩, by decide +kernel, fun q i h => ?_,
    ⟨by decide, rfl, by decide⟩, ?_, ⟨by decide, rfl, by decide⟩, ?_⟩
  · decide +kernel
  · rcases maps_mapOf h with ⟨-, rfl⟩ | ⟨-, rfl⟩ <;> simp only [Readable, NoTrack, BlocksInside] <;> decide +kernel
  · simp only [NoTrack]; decide +kernel
  · simp only [NoTrack]; decide +kernel

/-- The track of program P5. -/
def p5Track : WozTrack := ⟨52, [0xFF, 0x3F, 0xCD, 0x5A, 0xA9, 0x6A, 0xD0]⟩

/-- `ReadBitTakesTheNextBit`, `ReadNibbleWozAssemblesANibble`, `GettersAnswerFromTheDrive`: a quarter-track with a track, one
the map gives 0xFF, and one whose track has no bits. -/
theorem witness_woz_tracks :
    ((running (.woz p5Image)).drive .drive1).image = some (.woz p5Image) ∧ currentTrack p5Image 1 = some p5Track ∧
    currentTrack p5Image 2 = none ∧ p5Image.tmap[1]? = some 0x00 ∧ p5Image.tmap[159]? = some 0xFF ∧
    trackData p5Image 0x00 = some p5Track ∧ p5Track.bitCount ≠ 0 ∧
    trackData { p5Image with trk := [(0x00, ⟨0, []⟩)] } 0x00 = some ⟨0, []⟩ := by
  refine ⟨rfl, by decide +kernel, by decide +kernel, by decide +kernel, by decide +kernel, by decide +kernel, by decide, rfl⟩

/-- `ReadNibbleTakesTheNextNibble`, `WriteNibbleStoresOrIsIgnored`, `Q6LFetchesFromASectorImage`: the first and the last
quarter-track, a materialized track, the motor on. -/
theorem witness_sector_access :
    let s := placed (running (.dsk threeNibbles)) 3 1
    exec (.materializeTrack .drive1 ((s.drive .drive1).quarterTrack / 4)) s =
      .next ((withImage s .drive1 threeNibbles).answered (.bytes [0xD5, 0xAA, 0x96])) ∧
    (s.drive .drive1).quarterTrack < 140 ∧ 139 < 140 ∧ (s.drive .drive1).writeProtect = false ∧
    s.q7 = false ∧ (expired s).motorOn = true ∧ s.selected.image = some (.dsk threeNibbles) :=
  ⟨rfl, by decide, by decide, rfl, rfl, rfl, rfl⟩

/-- `ReadNibbleTakesTheNextNibble`, `Q6LWithoutAFetch`: no disk; `WriteNibbleStoresOrIsIgnored`: a protected disk. -/
theorem witness_no_access :
    (State.reset.drive .drive1).image = none ∧ State.reset.selected.image = none ∧ State.reset.q7 = false ∧
    (expired State.reset).motorOn = false ∧ ({ State.reset with q7 := true } : State).q7 = true ∧
    (({ State.reset with driveSlot1 := { DriveSlot.powerUp with writeProtect := true } } : State).drive .drive1).writeProtect =
      true := ⟨rfl, rfl, rfl, rfl, rfl, rfl⟩

/-- `Q6LFetchesFromAWozImage`. -/
theorem witness_woz_fetch :
    (running (.woz p5Image)).q7 = false ∧ (expired (running (.woz p5Image))).motorOn = true ∧
    (running (.woz p5Image)).selected.image = some (.woz p5Image) ∧
    (running (.woz p5Image)).selected.quarterTrack = 0 ∧ currentTrack p5Image 0 = some p5Track := by
  refine ⟨rfl, rfl, rfl, rfl, by decide +kernel⟩

/-- `DueStopTakesEffectAtTheNextAccess`, `TransitionSummary`: a stop due exactly at the delay, not one cycle before. -/
theorem witness_due :
    due { State.reset with motorOn := true, motorOffPending := true, motorOffCycle := 2000000, cycleNow := 3023000 } = true ∧
    due { State.reset with motorOn := true, motorOffPending := true, motorOffCycle := 2000000, cycleNow := 3022999 } = false := by
  decide

/-- `DriveSelectFlushesOnAChange`, `EjectAndSaveReturnTheFlushedSectors`, `Q6HSensesOrWrites`. -/
theorem witness_flush_and_write :
    (∃ t, exec (.flush .drive1) (running (.dsk written)) = .next t ∧ (t.drive .drive1).image = some (.dsk (flushDsk written))) ∧
    (∃ t, exec (.writeNibble .drive1 0x17) (running (.dsk written)) = .next t) ∧
    ((running (.woz p5Image)).drive .drive1).image = some (.woz p5Image) ∧ (State.reset.drive .drive1).image = none :=
  ⟨⟨_, rfl, rfl⟩, ⟨_, rfl⟩, rfl, rfl⟩

/-- `TransitionSummary`, `AccessNotValueOperatesASwitch`, `UnselectedDriveIsUntouched`: offsets on either side of each
clause. -/
theorem witness_offsets :
    (8 : Nat) ≤ (8 : Fin 16).val ∧ (7 : Fin 16).val < 8 ∧ (9 : Fin 16) ≠ 8 ∧ (12 : Fin 16) ≠ 13 ∧ (15 : Fin 16) ≠ 14 ∧
    DriveId.drive2 ≠ State.reset.selectedDrive := by decide

/-- `CycleCountIsPushed`: both clauses where they meet. -/
theorem witness_cycle_counts :
    ({ State.reset with cycleNow := 100 } : State).cycleNow.toNat ≤ (100 : Cycle).toNat ∧
    (99 : Cycle).toNat < ({ State.reset with cycleNow := 100 } : State).cycleNow.toNat := by decide

/-- A state of the invariant other than reset: a stop pending, a disk in each drive, a request waiting. -/
def busy : State :=
  { running (.dsk zero) with
    motorOffPending := true
    motorOffCycle := 5
    cycleNow := 9
    driveSlot2 := { DriveSlot.powerUp with quarterTrack := 159, image := some (.woz p5Image), writeProtect := true }
    pending := [⟨.host, [0x61]⟩] }

/-- `EveryStepKeepsTheInvariant`. -/
theorem witness_invariant : busy.Inv ∧ step busy = .next ({ busy with pending := [] }.answered .nothing) := by
  have dsk : zero.Ok := by
    refine ⟨by simp [zero, Memory.wf], by simp [zero], fun t buf h => ?_, fun t h => ?_⟩
    · simp only [Dsk.cacheAt, zero] at h
      by_cases ht : t < 35 <;> simp [ht] at h
    · simp only [Dsk.dirtyAt, zero] at h
      by_cases ht : t < 35 <;> simp [ht] at h
  have woz : p5Image.Ok := by
    refine ⟨fun q i hq hi => ⟨p5Track, ?_, by decide⟩⟩
    have hq' : i = 0x00 ∨ i = 0xFF := by
      by_cases h : q < 160
      · simp only [p5Image, Vector.getElem?_ofFn, h, dif_pos, Option.some.injEq] at hq
        split at hq
        · exact .inl hq.symm
        · exact .inr hq.symm
      · simp [p5Image, h] at hq
    rcases hq' with rfl | rfl
    · decide +kernel
    · exact absurd rfl hi
  have d1 : busy.driveSlot1.image = some (.dsk zero) := rfl
  have d2 : busy.driveSlot2.image = some (.woz p5Image) := rfl
  refine ⟨⟨⟨?_, ?_, ?_, ?_, by decide, ?_⟩, ⟨?_, ?_, ?_, ?_, by decide, ?_⟩, fun _ => rfl, by decide⟩, rfl⟩
  · intro image h; rw [d1] at h; cases h; decide
  · intro h; rw [d1] at h; cases h
  · intro image h; rw [d1] at h; cases h; exact dsk
  · intro _ _; decide
  · intro h; cases h
  · intro image h; rw [d2] at h; cases h; decide
  · intro h; rw [d2] at h; cases h
  · intro image h; rw [d2] at h; cases h; exact woz
  · intro img h; rw [d2] at h; cases h
  · intro _ img h; rw [d2] at h; cases h

/-- `WozImagesAreNeverWritten`, `CycleCountNeverDecreases`, `HeadMovesAtMostThreeQuarterTracks`. -/
theorem witness_steps :
    exec .softReset busy = .next (busy.answered .nothing) ∧ (busy.drive .drive2).image = some (.woz p5Image) ∧
    (busy.drive .drive2).quarterTrack ≤ topQuarterTrack (.woz p5Image) ∧ Instr.softReset ≠ .powerCycle := by
  refine ⟨rfl, rfl, by decide, by decide⟩

end Sys2Proof.Tests
end

section
/-! PROOFS. Every nibble the encoder and the synthesizer make has bit 7 set (R92, R131, R134), so a track buffer is as
R35 (c) has it. -/

namespace Sys2Proof.Machine

/-- Bit 7 is set in every element (R92). -/
def AllNibbles (xs : List Nibble) : Prop := ∀ b ∈ xs, isNibble b

theorem AllNibbles.append {xs ys : List Nibble} (hx : AllNibbles xs) (hy : AllNibbles ys) : AllNibbles (xs ++ ys) :=
  fun b hb => (List.mem_append.mp hb).elim (hx b) (hy b)

theorem AllNibbles.flatMap {α : Type} {f : α → List Nibble} (h : ∀ x, AllNibbles (f x)) (xs : List α) :
    AllNibbles (xs.flatMap f) := fun b hb => by
  obtain ⟨x, -, hx⟩ := List.mem_flatMap.mp hb
  exact h x b hx

theorem allNibbles_sync (n : Nat) : AllNibbles (List.replicate n syncByte) := fun b hb => by
  rw [List.eq_of_mem_replicate hb]; decide

theorem isNibble_or_0x80 (v : Byte) : isNibble (v ||| 0x80) := by simp [isNibble]

theorem allNibbles_encodePair (v : Byte) : AllNibbles [(encodePair v).1, (encodePair v).2] := by
  simp [AllNibbles, encodePair, isNibble]

theorem allNibbles_chainFrom (prev : SixBit) (xs : List SixBit) : AllNibbles (chainFrom prev xs) := by
  induction xs generalizing prev with
  | nil => intro b hb; rw [List.mem_singleton.mp hb]; exact isNibble_translate prev
  | cons x xs ih =>
    intro b hb
    rcases List.mem_cons.mp hb with rfl | hb
    · exact isNibble_translate _
    · exact ih x b hb

theorem allNibbles_addressPrologue : AllNibbles addressPrologue := by unfold AllNibbles; decide
theorem allNibbles_dataPrologue : AllNibbles dataPrologue := by unfold AllNibbles; decide
theorem allNibbles_epilogue : AllNibbles epilogue := by unfold AllNibbles; decide

theorem allNibbles_addressField (volume track sector : Byte) : AllNibbles (addressField volume track sector) :=
  (allNibbles_addressPrologue.append (.flatMap allNibbles_encodePair _)).append allNibbles_epilogue

theorem allNibbles_sectorNibbles (volume track sector : Byte) (data : List Byte) :
    AllNibbles (sectorNibbles volume track sector data) :=
  (allNibbles_sync _).append (allNibbles_addressField volume track sector) |>.append (allNibbles_sync _)
    |>.append allNibbles_dataPrologue |>.append (allNibbles_chainFrom 0 _) |>.append allNibbles_epilogue

theorem allNibbles_sectorSlot (img : Dsk) (t p : Nat) : AllNibbles (sectorSlot img t p) :=
  (allNibbles_sectorNibbles _ _ _ _).append (allNibbles_sync _)

theorem AllNibbles.padTrack {out : List Nibble} (h : AllNibbles out) : AllNibbles (padTrack out) := fun b hb =>
  h.append (allNibbles_sync _) b (List.mem_of_mem_take hb)

/-- A synthesized track is a good buffer (R173, R35 c). -/
theorem trackBufferOk_nibblize (img : Dsk) (t : Nat) : TrackBufferOk (nibblize img t) :=
  ⟨nibblize_length img t, AllNibbles.padTrack (.flatMap (allNibbles_sectorSlot img t) _)⟩

/-- A nibble stored with bit 7 forced keeps a buffer good (R240). -/
theorem TrackBufferOk.set {buf : List Nibble} (h : TrackBufferOk buf) (c : Nat) (v : Byte) :
    TrackBufferOk (buf.set c (v ||| 0x80)) := by
  refine ⟨by rw [List.length_set, h.length], fun b hb => ?_⟩
  rcases List.mem_or_eq_of_mem_set hb with hb | rfl
  · exact h.nibbles b hb
  · exact isNibble_or_0x80 v

end Sys2Proof.Machine
end

section
/-! PROOFS. What each operation on a sector image keeps: its good form (R25, R35 (c), (f)), and the clean flags of a
protected one (R306). -/

namespace Sys2Proof.Machine

/-! ### Clean images -/

/-- No track is dirty. -/
def Dsk.Clean (img : Dsk) : Prop := ∀ t, img.dirtyAt t = false

theorem Dsk.dirtyAt_congr {img img' : Dsk} (h : img'.dirty = img.dirty) (t : Nat) :
    img'.dirtyAt t = img.dirtyAt t := by
  rw [Dsk.dirtyAt, h, Dsk.dirtyAt]

theorem Dsk.Clean.congr {img img' : Dsk} (h : img.Clean) (e : img'.dirty = img.dirty) : img'.Clean := fun t => by
  rw [Dsk.dirtyAt_congr e, h t]

theorem Dsk.Clean.materialize {img : Dsk} (h : img.Clean) (t : Nat) : (materialize img t).Clean :=
  h.congr (materialize_dirty img t)

theorem Dsk.Clean.denibblize {img : Dsk} (h : img.Clean) (t : Nat) : (denibblize img t).Clean :=
  h.congr (denibblize_sectorsOnly img t).2.2.1

/-- A flush of a clean image is no change (R180: the loop acts on dirty tracks only). -/
theorem Dsk.Clean.flushDsk_eq {img : Dsk} (h : img.Clean) : flushDsk img = img := by
  have turn (t : Nat) : flushOne img t = img := by simp [flushOne, h t]
  exact List.foldlRecOn (motive := (· = img)) _ _ rfl fun j hj t _ => by rw [hj, turn]

/-! ### The good form -/

theorem Dsk.setCache_of_ge (img : Dsk) {t : Nat} (ht : 35 ≤ t) (buf : List Nibble) : img.setCache t buf = img := by
  rw [Dsk.setCache, Vector.setIfInBounds_eq_of_size_le ht]

theorem Dsk.setDirty_of_ge (img : Dsk) {t : Nat} (ht : 35 ≤ t) (b : Bool) : img.setDirty t b = img := by
  rw [Dsk.setDirty, Vector.setIfInBounds_eq_of_size_le ht]

theorem Dsk.Ok.setCache {img : Dsk} (h : img.Ok) (t : Nat) {buf : List Nibble} (hb : TrackBufferOk buf) :
    (img.setCache t buf).Ok := by
  rcases Nat.lt_or_ge t 35 with ht | ht
  · refine ⟨h.canonical, h.inside, fun u b hu => ?_, fun u hu => ?_⟩ <;> rw [Dsk.cacheAt_setCache img ht] at *
    · split at hu
      · cases hu; exact hb
      · exact h.buffers u b hu
    · split
      · rfl
      · exact h.dirtyCached u hu
  · rw [img.setCache_of_ge ht]; exact h

theorem Dsk.Ok.trackBuffer {img : Dsk} (h : img.Ok) (t : Nat) : TrackBufferOk (trackBuffer img t) := by
  cases hc : img.cacheAt t with
  | none => rw [trackBuffer_absent hc]; exact trackBufferOk_nibblize img t
  | some buf => rw [trackBuffer_cached hc]; exact h.buffers t buf hc

theorem Dsk.Ok.materialize {img : Dsk} (h : img.Ok) (t : Nat) : (materialize img t).Ok := by
  cases hc : img.cacheAt t with
  | none => rw [Machine.materialize, hc]; exact h.setCache t (trackBufferOk_nibblize img t)
  | some buf => rw [materialize_cached hc]; exact h

/-- The track written is dirty, and cached by the same write (R240, R35 f). -/
theorem Dsk.Ok.putNibble {img : Dsk} (h : img.Ok) {t : Nat} (ht : t < 35) (c : Nat) (v : Byte) :
    (putNibble img t c v).Ok := by
  obtain ⟨canonical, inside, buffers, dirtyCached⟩ := h.setCache t ((h.trackBuffer t).set c v)
  refine ⟨canonical, inside, buffers, fun u hu => ?_⟩
  rw [putNibble_dirtyAt img ht] at hu
  rw [putNibble_cacheAt img ht]
  split
  · rfl
  · next hne => exact h.dirtyCached u (by simpa [hne] using hu)

/-- A sector stored inside its track keeps the store canonical and inside its 143,360 addresses (R60). -/
theorem Dsk.Ok.storeCandidate {img : Dsk} (h : img.Ok) (buf : List Nibble) {t : Nat} (ht : t < 35) (i : Nat) :
    (storeCandidate buf t img i).Ok := by
  rcases storeCandidate_cases buf t img i with e | ⟨l, d, hl, hd, e⟩
  · rw [e]; exact h
  · rw [e]
    refine ⟨Memory.wf_writeBytes h.canonical _ _, fun c hc => ?_, h.buffers, h.dirtyCached⟩
    rcases Memory.mem_writeBytes hc with hc | hc
    · exact h.inside c hc
    · have := sectorOffset_bounds (t := t) hl
      omega

theorem Dsk.Ok.denibblize {img : Dsk} (h : img.Ok) (t : Nat) : (denibblize img t).Ok := by
  unfold Machine.denibblize
  split
  · exact h
  · next buf hc =>
    have ht : t < 35 := by
      by_contra hge
      rw [img.cacheAt_of_ge (by omega)] at hc
      cases hc
    exact List.foldlRecOn (motive := Dsk.Ok) _ _ h fun _ hj i _ => hj.storeCandidate buf ht i

theorem Dsk.Ok.setDirty_false {img : Dsk} (h : img.Ok) (t : Nat) : (img.setDirty t false).Ok := by
  rcases Nat.lt_or_ge t 35 with ht | ht
  · refine ⟨h.canonical, h.inside, h.buffers, fun u hu => h.dirtyCached u ?_⟩
    rw [Dsk.dirtyAt_setDirty img ht] at hu
    split at hu
    · cases hu
    · exact hu
  · rw [img.setDirty_of_ge ht]; exact h

theorem Dsk.Ok.flushDsk {img : Dsk} (h : img.Ok) : (flushDsk img).Ok :=
  List.foldlRecOn (motive := Dsk.Ok) _ _ h fun j hj t _ => by
    rcases flushOne_cases j t with ⟨-, e⟩ | ⟨-, e⟩
    · rw [e]; exact hj
    · rw [e]; exact (hj.denibblize t).setDirty_false t

theorem DiskImage.Ok.flushImage {image : DiskImage} (h : image.Ok) : (flushImage image).Ok := by
  cases image with
  | dsk img => exact Dsk.Ok.flushDsk h
  | woz img => exact h

end Sys2Proof.Machine
end

section
/-! PROOFS. What the loaders make is good: a sector image of R170, and a bit-stream whose tracks lie inside their bytes
(R205, R206). -/

namespace Sys2Proof.Machine

/-! ### Sector images (R170) -/

theorem loadSectorImage_ok {file : List Byte} {order : SectorOrder} {img : Dsk}
    (h : loadSectorImage file order = .ok img) : img.Ok ∧ img.Clean := by
  unfold loadSectorImage at h
  split at h
  · next hlen =>
    cases h
    have absent (t : Nat) : ((Vector.replicate 35 none : Vector (Option (List Nibble)) 35)[t]?).getD none = none := by
      rw [Vector.getElem?_replicate]; split <;> rfl
    have clean (t : Nat) : ((Vector.replicate 35 false)[t]?).getD false = false := by
      rw [Vector.getElem?_replicate]; split <;> rfl
    refine ⟨⟨Memory.wf_ofBytes 0 file, fun c hc => ?_, fun t buf hb => ?_, fun t hd => ?_⟩, clean⟩
    · have := (Memory.mem_ofBytes hc).2.1
      simp only [hlen, Config.dskFileBytes] at this
      omega
    · cases (absent t).symm.trans hb
    · cases (clean t).symm.trans hd
  · cases h

/-! ### The chunks of a WOZ file (R202) -/

/-- The chunk's payload lies inside the file. -/
def ChunkRef.Inside (file : List Byte) (c : ChunkRef) : Prop := c.start + c.size ≤ file.length

/-- `noteChunk` keeps the TRKS chunk it has or takes the new one. -/
theorem noteChunk_trks {chunks : ChunkTable} {id : List Byte} {c d : ChunkRef}
    (h : (noteChunk chunks id c).trks = some d) : chunks.trks = some d ∨ d = c := by
  unfold noteChunk at h
  split at h
  · exact .inl h
  · split at h
    · exact .inl h
    · split at h
      · cases ht : chunks.trks with
        | none => exact .inr (by simpa [ht] using h.symm)
        | some e => exact .inl (by simpa [ht] using h)
      · exact .inl h

theorem walkChunksFrom_trks_inside {file : List Byte} {turns pos : Nat} {chunks found : ChunkTable}
    (h : walkChunksFrom file turns pos chunks = .ok found)
    (before : ∀ c, chunks.trks = some c → c.Inside file) : ∀ c, found.trks = some c → c.Inside file := by
  induction turns generalizing pos chunks with
  | zero => cases h; exact before
  | succ turns ih =>
    simp only [walkChunksFrom] at h
    split at h
    · split at h
      · cases h
      · next hfits =>
        refine ih h fun c hc => ?_
        rcases noteChunk_trks hc with hc | rfl
        · exact before c hc
        · exact Nat.le_of_not_lt hfits
    · cases h; exact before

/-- A load that succeeds read its tracks from a TRKS payload inside the file (R200). -/
theorem loadWozImage_trks {file : List Byte} {img : Woz} (h : loadWozImage file = .ok img) :
    ∃ c : ChunkRef, c.Inside file ∧ readTrks file img.version c img.tmap = .ok img.trk := by
  simp only [loadWozImage, bind, Except.bind, pure, Except.pure] at h
  split at h
  · cases h
  split at h
  · cases h
  next chunks hwalk =>
  split at h
  · next trks _ _ htrks =>
    split at h
    · cases h
    split at h
    · cases h
    split at h
    · cases h
    next hread =>
    cases h
    exact ⟨trks, walkChunksFrom_trks_inside hwalk (fun _ h => by cases h) trks htrks, hread⟩
  · cases h

/-! ### The tracks (R205, R206) -/

/-- The bits lie inside the bytes. -/
def WozTrack.Fits (T : WozTrack) : Prop := T.bitCount ≤ 8 * T.bytes.length

theorem length_slice {xs : List Byte} {i n : Nat} (h : i + n ≤ xs.length) : (slice xs i n).length = n := by
  rw [slice, List.length_take, List.length_drop]
  omega

theorem wozTrack1_fits {file : List Byte} {c : ChunkRef} {i : Byte} {T : WozTrack} (hc : c.Inside file)
    (h : wozTrack1 file c i = .ok T) : T.Fits := by
  simp only [wozTrack1] at h
  split at h
  · cases h
  · split at h
    · cases h
    · cases h
      unfold ChunkRef.Inside at hc
      rw [WozTrack.Fits, length_slice (by omega)]
      simp only
      omega

theorem wozTrack2_fits {file : List Byte} {c : ChunkRef} {i : Byte} {T : WozTrack}
    (h : wozTrack2 file c i = .ok T) : T.Fits := by
  simp only [wozTrack2] at h
  split at h
  · cases h
  · split at h
    · cases h; exact Nat.zero_le _
    · split at h
      · cases h
      · split at h
        · cases h
        · cases h
          rw [WozTrack.Fits, length_slice (by omega)]
          simp only [Config.wozBlock]
          omega

/-- Every index asked for has its track in what `readTracks` answers. -/
theorem lookup_of_readTracks {one : Byte → Except FailureCode WozTrack} {is : List Byte}
    {ts : List (Byte × WozTrack)} (h : readTracks one is = .ok ts) {i : Byte} (hi : i ∈ is) : ∃ T, one i = .ok T ∧ ts.lookup i = some T := by
  induction is generalizing ts with
  | nil => cases hi
  | cons j is ih =>
    simp only [readTracks] at h
    split at h
    · cases h
    · next T hT =>
      split at h
      · cases h
      · next rest hrest =>
        cases h
        by_cases hij : i = j
        · subst hij; exact ⟨T, hT, List.lookup_cons_self⟩
        · rw [List.lookup_cons, beq_false_of_ne hij]
          exact ih hrest ((List.mem_cons.mp hi).resolve_left hij)

theorem loadWozImage_ok {file : List Byte} {img : Woz} (h : loadWozImage file = .ok img) : img.Ok := by
  obtain ⟨c, hc, hread⟩ := loadWozImage_trks h
  refine ⟨fun q i hq hi => ?_⟩
  have named : i ∈ namedIndices img.tmap :=
    mem_namedIndices.mpr ⟨Vector.mem_toList_iff.mpr (Vector.mem_of_getElem? hq), hi⟩
  cases hv : img.version with
  | woz1 =>
    simp only [readTrks, hv] at hread
    obtain ⟨T, hT, hl⟩ := lookup_of_readTracks hread named
    exact ⟨T, hl, wozTrack1_fits hc hT⟩
  | woz2 =>
    simp only [readTrks, hv] at hread
    split at hread
    · cases hread
    · obtain ⟨T, hT, hl⟩ := lookup_of_readTracks hread named
      exact ⟨T, hl, wozTrack2_fits hT⟩

/-- Whatever the loader of insertDisk makes is good, and a sector image from it is clean (R303). -/
theorem loadImage_ok {file : List Byte} {format : DiskFormat} {image : DiskImage}
    (h : loadImage file format = .ok image) : image.Ok ∧ ∀ img, image = .dsk img → img.Clean := by
  have sector {order : SectorOrder} (h : (loadSectorImage file order).map .dsk = .ok image) :
      image.Ok ∧ ∀ img, image = .dsk img → img.Clean := by
    cases hl : loadSectorImage file order with
    | error e => rw [hl] at h; cases h
    | ok img =>
      rw [hl] at h; cases h
      obtain ⟨ok, clean⟩ := loadSectorImage_ok hl
      exact ⟨ok, fun _ e => by cases e; exact clean⟩
  cases format with
  | dskDos => exact sector h
  | dskProdos => exact sector h
  | woz =>
    rw [loadImage] at h
    cases hl : loadWozImage file with
    | error e => rw [hl] at h; cases h
    | ok img => rw [hl] at h; cases h; exact ⟨loadWozImage_ok hl, fun _ e => by cases e⟩

end Sys2Proof.Machine
end

section
/-! PROOFS. What the operations do to a drive slot (R24): each of them is a run of a few elementary changes, and a rule
about drive slots needs to look at those only. -/

namespace Sys2Proof.Machine

open Relation (ReflTransGen)

theorem sectorImage?_eq_some {d : DriveSlot} {img : Dsk} : sectorImage? d = some img ↔ d.image = some (.dsk img) := by
  unfold sectorImage?
  split <;> simp_all

/-- The elementary changes of a drive slot at cycle count `now`. -/
inductive SlotOp (now : Cycle) (d : DriveSlot) : DriveSlot → Prop
  /-- the cursor turns; over a sector image it stays a nibble index (R24) -/
  | cursor (c : Nat) : (∀ img, d.image = some (.dsk img) → d.cursor < 6656 → c < 6656) →
      SlotOp now d { d with cursor := c }
  /-- the timestamp is re-based -/
  | rebase : SlotOp now d (rebased now d)
  /-- the head moves inside the range of its image -/
  | head (image : DiskImage) (q : Nat) : d.image = some image → q ≤ tracksOf image * 4 - 1 →
      SlotOp now d { d with quarterTrack := q }
  | materialize (img : Dsk) (t : Nat) : d.image = some (.dsk img) →
      SlotOp now d (withSectorImage d (materialize img t))
  | denibblize (img : Dsk) (t : Nat) : d.image = some (.dsk img) →
      SlotOp now d (withSectorImage d (denibblize img t))
  | flush : SlotOp now d (flushSlot d)
  /-- a nibble is put under the head of an unprotected drive -/
  | put (img : Dsk) (c : Nat) (v : Byte) : d.image = some (.dsk img) → d.writeProtect = false →
      SlotOp now d (withSectorImage d (putNibble img (trackOf d.quarterTrack) c v))

/-- A run of elementary changes. -/
abbrev SlotOps (now : Cycle) : DriveSlot → DriveSlot → Prop := ReflTransGen (SlotOp now)

/-! ### The functions of the model are such runs -/

variable {now : Cycle}

theorem slotOps_advance (d : DriveSlot) (elapsed : Nat) : SlotOps now d (advance d elapsed) := by
  rw [advance_eq]
  refine .single (.cursor _ fun img hi _ => ?_)
  simp only [advance, trackLen, hi, Config.trackNibbles]
  exact Nat.mod_lt _ (by decide)

theorem wozTrackUnder_dsk {d : DriveSlot} {img : Dsk} (hi : d.image = some (.dsk img)) : wozTrackUnder d = none := by
  rw [wozTrackUnder, hi]

theorem slotOps_nextBit (d : DriveSlot) : SlotOps now d (nextBit d).2 := by
  rw [nextBit_eq]
  refine .single (.cursor _ fun img hi hc => ?_)
  rwa [nextBit, wozTrackUnder_dsk hi]

theorem slotOps_nextWozNibble (n : Nat) (d : DriveSlot) : SlotOps now d (nextWozNibble n d).2 := by
  rw [nextWozNibble_eq]
  refine .single (.cursor _ fun img hi hc => ?_)
  rwa [nextWozNibble, wozTrackUnder_dsk hi]

theorem slotOps_fixCursor (d : DriveSlot) : SlotOps now d (fixCursor d) := by
  rw [fixCursor_eq]
  refine .single (.cursor _ fun img hi hc => ?_)
  rwa [fixCursor, hi]

theorem slotOps_nextNibble (n : Nat) (d : DriveSlot) : SlotOps now d (nextNibble n d).2 := by
  unfold nextNibble
  split
  · exact .refl
  · next img hi =>
    exact .tail (.single (.materialize img _ hi)) (.cursor _ fun _ _ _ => Nat.mod_lt _ (by decide))
  · exact slotOps_nextWozNibble n d

theorem slotOps_storeNibble (d : DriveSlot) (v : Byte) : SlotOps now d (storeNibble d v) := by
  rcases storeNibble_cases d v with ⟨h, -⟩ | ⟨img, hi, hw, h⟩
  · rw [h]
  · rw [h]
    exact .tail (.single (.put img _ v hi hw)) (.cursor _ fun _ _ _ => Nat.mod_lt _ (by decide))

theorem slotOps_stepHead (d : DriveSlot) (mask : BitVec 4) : SlotOps now d (stepHead d mask) := by
  rcases stepHead_cases d mask with ⟨-, h⟩ | ⟨image, p, q, hi, -, hq, h⟩
  · rw [h]
  · rw [h]
    exact .head (.head image q hi (hq ▸ clampHead_le _ _)) (slotOps_fixCursor _)

/-! ### A WOZ image is never written (R26, R72 (e), R240) -/

theorem SlotOp.keeps_woz {d d' : DriveSlot} (h : SlotOp now d d') {img : Woz} (hi : d.image = some (.woz img)) :
    d'.image = some (.woz img) := by
  cases h with
  | cursor | rebase | head => exact hi
  | materialize _ _ hd | denibblize _ _ hd | put _ _ _ hd => cases hi.symm.trans hd
  | flush => rw [flushSlot_image, hi]; rfl

theorem SlotOps.keeps_woz {d d' : DriveSlot} (h : SlotOps now d d') {img : Woz} (hi : d.image = some (.woz img)) :
    d'.image = some (.woz img) := by
  induction h with
  | refl => exact hi
  | tail _ h ih => exact h.keeps_woz ih

/-! ### A good drive slot stays good (R35, R306, R356) -/

/-- Replacing the sector image by a good one that is clean where the old one was keeps a slot good. -/
theorem DriveSlot.Ok.withSectorImage {d : DriveSlot} (h : d.Ok now) {img img' : Dsk} (hi : d.image = some (.dsk img))
    (ok : img'.Ok) (clean : d.writeProtect = true → img.Clean → img'.Clean) : (withSectorImage d img').Ok now where
  head := by rintro _ ⟨⟩; exact h.head (.dsk img) hi
  emptyHead := by rintro ⟨⟩
  image := by rintro _ ⟨⟩; exact ok
  cursor := by rintro _ ⟨⟩; exact h.cursor _ hi
  clock := h.clock
  clean := by rintro hw _ ⟨⟩; exact clean hw (h.clean hw _ hi)

theorem DriveSlot.Ok.flushSlot {d : DriveSlot} (h : d.Ok now) : (flushSlot d).Ok now := by
  cases hi : d.image with
  | none => rwa [show Machine.flushSlot d = d by cases d; cases hi; rfl]
  | some image =>
    cases image with
    | woz img => rwa [show Machine.flushSlot d = d by cases d; cases hi; rfl]
    | dsk img =>
      have : Machine.flushSlot d = Machine.withSectorImage d (Machine.flushDsk img) := by
        rw [Machine.flushSlot, hi]; rfl
      rw [this]
      exact h.withSectorImage hi (Dsk.Ok.flushDsk (h.image _ hi)) fun _ hc => by rwa [hc.flushDsk_eq]

theorem SlotOp.keeps_ok {d d' : DriveSlot} (op : SlotOp now d d') (h : d.Ok now) : d'.Ok now := by
  cases op with
  | cursor c hc => exact { h with cursor := fun img hi => hc img hi (h.cursor img hi) }
  | rebase => exact { h with clock := BitVec.le_refl now }
  | head image q hi hq =>
    exact { h with
      head := fun image' hi' => by cases hi.symm.trans hi'; exact hq
      emptyHead := fun hn => by cases hi.symm.trans hn }
  | materialize img t hi =>
    exact h.withSectorImage hi (Dsk.Ok.materialize (h.image _ hi) t) fun _ hc => hc.materialize t
  | denibblize img t hi =>
    exact h.withSectorImage hi (Dsk.Ok.denibblize (h.image _ hi) t) fun _ hc => hc.denibblize t
  | flush => exact h.flushSlot
  | put img c v hi hw =>
    have ht : trackOf d.quarterTrack < 35 := by
      have := h.head _ hi
      simp only [trackOf, tracksOf, Config.dskTracks] at *
      omega
    exact h.withSectorImage hi (Dsk.Ok.putNibble (h.image _ hi) ht c v) fun hw' => by simp [hw] at hw'

theorem SlotOps.keeps_ok {d d' : DriveSlot} (ops : SlotOps now d d') (h : d.Ok now) : d'.Ok now := by
  induction ops with
  | refl => exact h
  | tail _ op ih => exact op.keeps_ok ih

theorem DriveSlot.Ok.ejected {d : DriveSlot} (h : d.Ok now) :
    ({ d with image := none, writeProtect := false } : DriveSlot).Ok now where
  head := by rintro _ ⟨⟩
  emptyHead := fun _ => by
    cases hi : d.image with
    | none => exact h.emptyHead hi
    | some image =>
      have := h.head image hi
      cases image <;> simp only [tracksOf, Config.dskTracks, Config.wozTracks] at this <;> simp only <;> omega
  image := by rintro _ ⟨⟩
  cursor := by rintro _ ⟨⟩
  clock := h.clock
  clean := by rintro ⟨⟩

/-- An inserted image is the loader's, so good and clean, and the rest of the slot is set for it (R303). -/
theorem driveSlotOk_insertInto (d : DriveSlot) {image : DiskImage} (ok : image.Ok)
    (clean : ∀ img, image = .dsk img → img.Clean) (wp : Bool) : (insertInto d image wp now).Ok now where
  head := by rintro _ ⟨⟩; exact Nat.min_le_right _ _
  emptyHead := by rintro ⟨⟩
  image := by rintro _ ⟨⟩; exact ok
  cursor := fun _ _ => by simp [insertInto]
  clock := BitVec.le_refl now
  clean := by rintro _ img ⟨⟩; exact clean img rfl

/-- The timestamp of a good slot is not in a later future either (R356). -/
theorem DriveSlot.Ok.mono {d : DriveSlot} (h : d.Ok now) {later : Cycle} (hl : now ≤ later) : d.Ok later :=
  { h with clock := BitVec.le_trans h.clock hl }

theorem driveSlotOk_powerUp (now : Cycle) : DriveSlot.powerUp.Ok now where
  head := by rintro _ ⟨⟩
  emptyHead := fun _ => by decide
  image := by rintro _ ⟨⟩
  cursor := by rintro _ ⟨⟩
  clock := BitVec.le_def.mpr (Nat.zero_le _)
  clean := by rintro ⟨⟩

end Sys2Proof.Machine
end

section
/-! PROOFS. Everything an operation can do, said once: but for power-cycle, a pushed cycle count, an insertion and an
eject it is a run of elementary changes of the drive slots, with the motor kept consistent. -/

namespace Sys2Proof.Machine

/-! ### Ordinary work -/

/-- `t` comes from `s` by ordinary work: elementary changes of the slots, a motor stop requested at the current count or
not at all, and no stop left pending on a stopped motor. -/
structure Worked (s t : State) : Prop where
  drives      : ∀ k, SlotOps s.cycleNow (s.drive k) (t.drive k)
  cycleNow    : t.cycleNow = s.cycleNow
  stopCycle   : t.motorOffCycle = s.motorOffCycle ∨ t.motorOffCycle = s.cycleNow
  pendingStop : (s.motorOffPending = true → s.motorOn = true) → t.motorOffPending = true → t.motorOn = true

/-- A state that agrees in the slots, the count and the motor. -/
theorem Worked.of_eq {s t : State} (h1 : t.driveSlot1 = s.driveSlot1 := by rfl)
    (h2 : t.driveSlot2 = s.driveSlot2 := by rfl) (hc : t.cycleNow = s.cycleNow := by rfl)
    (hs : t.motorOffCycle = s.motorOffCycle := by rfl) (hp : t.motorOffPending = s.motorOffPending := by rfl)
    (hm : t.motorOn = s.motorOn := by rfl) : Worked s t where
  drives := fun k => by cases k <;> simp only [State.drive_drive1, State.drive_drive2, h1, h2] <;> exact .refl
  cycleNow := hc
  stopCycle := .inl hs
  pendingStop := by rw [hp, hm]; exact id

theorem Worked.refl (s : State) : Worked s s := .of_eq

theorem Worked.trans {s t u : State} (h : Worked s t) (h' : Worked t u) : Worked s u where
  drives := fun k => (h.drives k).trans (h.cycleNow ▸ h'.drives k)
  cycleNow := h'.cycleNow.trans h.cycleNow
  stopCycle := by
    rcases h'.stopCycle with e | e
    · rw [e]; exact h.stopCycle
    · exact .inr (e.trans h.cycleNow)
  pendingStop := fun hs => h'.pendingStop (h.pendingStop hs)

theorem Worked.answered {s t : State} (h : Worked s t) (r : Result) : Worked s (t.answered r) :=
  h.trans (.of_eq)

theorem Worked.setDrive (s : State) (k : DriveId) {d : DriveSlot} (h : SlotOps s.cycleNow (s.drive k) d) :
    Worked s (s.setDrive k d) where
  drives := fun j => by
    by_cases hj : j = k
    · subst hj; rwa [State.drive_setDrive_same]
    · rw [State.drive_setDrive_other s hj]
  cycleNow := State.setDrive_cycleNow ..
  stopCycle := .inl (State.setDrive_motorOffCycle ..)
  pendingStop := by rw [State.setDrive_motorOffPending, State.setDrive_motorOn]; exact id

theorem Worked.setSelected (s : State) {d : DriveSlot} (h : SlotOps s.cycleNow s.selected d) :
    Worked s (s.setSelected d) := .setDrive s s.selectedDrive h

/-! ### The switch effects (R262 to R278) -/

theorem worked_evalMotorTimeout (s : State) : Worked s (evalMotorTimeout s) where
  drives := fun k => by rw [evalMotorTimeout_drive]
  cycleNow := evalMotorTimeout_cycleNow s
  stopCycle := .inl (evalMotorTimeout_motorOffCycle s)
  pendingStop := fun hs => by
    rw [evalMotorTimeout_motorOffPending, evalMotorTimeout_motorOn]
    cases stopDue s
    · simpa using hs
    · simp

theorem worked_phaseAccess (n : Nat) (b : Bool) (s : State) : Worked s (phaseAccess n b s) := by
  have mask : Worked s { s with phaseMask := setMagnet s.phaseMask n b } := .of_eq
  rcases phaseAccess_cases n b s with ⟨-, h⟩ | ⟨-, h⟩
  · rw [h]; exact mask.trans (.setSelected _ (slotOps_stepHead _ _))
  · rw [h]; exact mask

theorem worked_motorOffEffect (s : State) : Worked s (motorOffEffect s) := by
  unfold motorOffEffect
  split
  · next h =>
    refine ⟨fun k => by cases k <;> exact .refl, rfl, .inr rfl, fun _ _ => ?_⟩
    simp only [Bool.and_eq_true] at h
    exact h.1
  · exact .refl s

theorem worked_motorOnEffect (s : State) : Worked s (motorOnEffect s) := by
  unfold motorOnEffect
  split
  · exact ⟨fun k => by cases k <;> exact .refl, rfl, .inl rfl, fun _ h => by cases h⟩
  · exact ⟨fun k => by cases k <;> exact .single .rebase, rfl, .inl rfl, fun _ h => by cases h⟩

theorem worked_selectDrive (k : DriveId) (s : State) : Worked s (selectDrive k s) := by
  rcases selectDrive_cases k s with ⟨-, h⟩ | ⟨-, h⟩
  · rw [h]; exact .refl s
  · rw [h]; exact (Worked.setSelected s (.single .flush)).trans (.of_eq)

theorem worked_fetchNibble (s : State) : Worked s (fetchNibble s) := by
  rcases fetchNibble_cases s with ⟨-, h⟩ | ⟨-, -, r, rfl, h⟩
  · rw [h]; exact .of_eq
  · rw [h]
    refine (Worked.setSelected s ?_).trans (.of_eq)
    exact .trans (.tail (slotOps_advance _ _) .rebase) (slotOps_nextNibble _ _)

theorem worked_q6lEffect (s : State) : Worked s (q6lEffect s) := by
  have shift : Worked s { s with q6 := false } := .of_eq
  simp only [q6lEffect]
  split
  · exact shift
  · exact shift.trans (worked_fetchNibble _)

theorem worked_writeLatch (v : Byte) (s : State) : Worked s (writeLatch v s) := by
  have stored : SlotOps s.cycleNow s.selected (if s.motorOn then storeNibble s.selected v else s.selected) := by
    split
    · exact slotOps_storeNibble _ v
    · exact .refl
  exact (Worked.setSelected s (.tail stored .rebase)).trans (.of_eq)

theorem worked_q6hEffect (a : Access) (s : State) : Worked s (q6hEffect a s) := by
  have load : Worked s { s with q6 := true } := .of_eq
  simp only [q6hEffect]
  split
  · cases a with
    | read => exact load
    | write v => exact load.trans (worked_writeLatch v _)
  · exact .of_eq

theorem worked_setQ7 (b : Bool) (s : State) : Worked s { s with q7 := b } := .of_eq

/-- An access is ordinary work when its switch effect is (R261). -/
theorem worked_accessed (off : BitVec 4) (a : Access) {effect : State → State} (h : ∀ s, Worked s (effect s))
    (s : State) : Worked s (accessed off a effect s) := by
  have start : Worked s { s with emitted := [] } := .of_eq
  rw [accessed_eq]
  exact (start.trans (worked_evalMotorTimeout _)).trans (h _) |>.trans (.of_eq)

/-! ### Outcomes -/

/-- Where the outcome is a next state, that state satisfies `P`. -/
def NextIs (P : State → Prop) (o : Outcome) : Prop := ∀ t, o = .next t → P t

theorem NextIs.mono {P Q : State → Prop} {o : Outcome} (h : NextIs P o) (hpq : ∀ t, P t → Q t) : NextIs Q o :=
  fun t ht => hpq t (h t ht)

theorem nextIs_answer {P : State → Prop} {r : Result} {s : State} (h : P (s.answered r)) : NextIs P (answer r s) := by
  rintro _ ⟨⟩; exact h

theorem nextIs_guard {P : State → Prop} {c : Prop} [Decidable c] {o : Outcome} (h : NextIs P o) :
    NextIs P (if c then o else stuck) := by
  split
  · exact h
  · rintro _ ⟨⟩

/-- An operation that only answers is ordinary work. -/
theorem worked_answer (r : Result) (s : State) : NextIs (Worked s) (answer r s) :=
  nextIs_answer ((Worked.refl s).answered r)

theorem worked_answerOrFail {α : Type} (ok : α → Result) (r : Except FailureCode α) (s : State) :
    NextIs (Worked s) (answerOrFail ok r s) := by
  rw [answerOrFail_eq]; exact worked_answer _ s

/-- An operation that changes one slot and answers. -/
theorem worked_answer_setDrive (r : Result) (s : State) (k : DriveId) {d : DriveSlot}
    (h : SlotOps s.cycleNow (s.drive k) d) : NextIs (Worked s) (answer r (s.setDrive k d)) :=
  nextIs_answer ((Worked.setDrive s k h).answered r)

theorem worked_busAccess (off : BitVec 4) (a : Access) {effect : State → State} (h : ∀ s, Worked s (effect s))
    (s : State) : NextIs (Worked s) (busAccess off a effect s) := by
  rintro _ ⟨⟩; exact worked_accessed off a h s

/-! ### The operations that have cases -/

theorem worked_nibblizeTrack (k : DriveId) (t : Nat) (s : State) : NextIs (Worked s) (execNibblizeTrack k t s) := by
  refine nextIs_guard ?_
  split
  · exact worked_answer _ s
  · exact worked_answer _ s

theorem worked_materializeTrack (k : DriveId) (t : Nat) (s : State) :
    NextIs (Worked s) (execMaterializeTrack k t s) := by
  refine nextIs_guard ?_
  split
  · next h => exact worked_answer_setDrive _ s k (.single (.materialize _ t (sectorImage?_eq_some.mp h)))
  · exact worked_answer _ s

theorem worked_denibblizeTrack (k : DriveId) (t : Nat) (s : State) :
    NextIs (Worked s) (execDenibblizeTrack k t s) := by
  refine nextIs_guard ?_
  split
  · next h => exact worked_answer_setDrive _ s k (.single (.denibblize _ t (sectorImage?_eq_some.mp h)))
  · exact worked_answer _ s

theorem worked_readBit (k : DriveId) (s : State) : NextIs (Worked s) (execReadBit k s) := by
  unfold execReadBit
  split
  · exact worked_answer_setDrive _ s k (slotOps_nextBit _)
  · exact worked_answer _ s

theorem worked_readNibbleWoz (k : DriveId) (s : State) : NextIs (Worked s) (execReadNibbleWoz k s) := by
  unfold execReadNibbleWoz
  split
  · exact worked_answer_setDrive _ s k (slotOps_nextWozNibble _ _)
  · exact worked_answer _ s

theorem worked_save (k : DriveId) (s : State) : NextIs (Worked s) (execSave k s) := by
  unfold execSave
  split
  · exact worked_answer _ s
  · exact worked_answer_setDrive _ s k (.single .flush)

/-! ### Every operation -/

/-- What the operation `i` can do to `s`. -/
inductive ExecCase (s : State) : Instr → State → Prop
  | worked {i : Instr} {t : State} (h : Worked s t) : ExecCase s i t
  | powerCycle : ExecCase s .powerCycle
      (({ State.reset with pending := s.pending, calls := s.calls } : State).answered .nothing)
  | countTaken {c : Cycle} (h : s.cycleNow ≤ c) :
      ExecCase s (.setCycleCount c) (({ s with cycleNow := c } : State).answered .countTaken)
  | inserted {k : DriveId} {file : List Byte} {format : DiskFormat} {wp : Bool} {image : DiskImage}
      (h : loadImage file format = .ok image) : ExecCase s (.insertDisk k file format wp)
        ((s.setDrive k (insertInto (s.drive k) image wp s.cycleNow)).answered .inserted)
  | ejected {k : DriveId} (r : Result) : ExecCase s (.ejectDisk k)
        ((s.setDrive k { s.drive k with image := none, writeProtect := false }).answered r)

theorem NextIs.ordinary {s : State} {i : Instr} {o : Outcome} (h : NextIs (Worked s) o) : NextIs (ExecCase s i) o :=
  h.mono fun _ => .worked

theorem execCase_setCycleCount (c : Cycle) (s : State) :
    NextIs (ExecCase s (.setCycleCount c)) (execSetCycleCount c s) := by
  unfold execSetCycleCount
  split
  · exact (worked_answer _ s).ordinary
  · next h => exact nextIs_answer (.countTaken (BitVec.not_lt.mp h))

theorem execCase_insertDisk (k : DriveId) (file : List Byte) (format : DiskFormat) (wp : Bool) (s : State) :
    NextIs (ExecCase s (.insertDisk k file format wp)) (execInsertDisk k file format wp s) := by
  unfold execInsertDisk
  split
  · exact (worked_answer _ s).ordinary
  · next h => exact nextIs_answer (.inserted h)

theorem execCase_ejectDisk (k : DriveId) (s : State) : NextIs (ExecCase s (.ejectDisk k)) (execEjectDisk k s) := by
  unfold execEjectDisk
  split
  · exact (worked_answer _ s).ordinary
  · exact nextIs_answer (.ejected _)

/-- The inversion of `exec`, one arm per operation. -/
theorem exec_cases (i : Instr) (s : State) : NextIs (ExecCase s i) (exec i s) := by
  cases i with
  | phase0Off a => exact (worked_busAccess _ a (worked_phaseAccess 0 false) s).ordinary
  | phase0On a => exact (worked_busAccess _ a (worked_phaseAccess 0 true) s).ordinary
  | phase1Off a => exact (worked_busAccess _ a (worked_phaseAccess 1 false) s).ordinary
  | phase1On a => exact (worked_busAccess _ a (worked_phaseAccess 1 true) s).ordinary
  | phase2Off a => exact (worked_busAccess _ a (worked_phaseAccess 2 false) s).ordinary
  | phase2On a => exact (worked_busAccess _ a (worked_phaseAccess 2 true) s).ordinary
  | phase3Off a => exact (worked_busAccess _ a (worked_phaseAccess 3 false) s).ordinary
  | phase3On a => exact (worked_busAccess _ a (worked_phaseAccess 3 true) s).ordinary
  | motorOff a => exact (worked_busAccess _ a worked_motorOffEffect s).ordinary
  | motorOn a => exact (worked_busAccess _ a worked_motorOnEffect s).ordinary
  | drive1Sel a => exact (worked_busAccess _ a (worked_selectDrive .drive1) s).ordinary
  | drive2Sel a => exact (worked_busAccess _ a (worked_selectDrive .drive2) s).ordinary
  | q6l a => exact (worked_busAccess _ a worked_q6lEffect s).ordinary
  | q6h a => exact (worked_busAccess _ a (worked_q6hEffect a) s).ordinary
  | q7l a => exact (worked_busAccess _ a (worked_setQ7 false) s).ordinary
  | q7h a => exact (worked_busAccess _ a (worked_setQ7 true) s).ordinary
  | encode4and4 | buildAddressField | decode4and4 | getQuarterTrack | softReset | observe | romRead =>
    exact (worked_answer _ s).ordinary
  | encode6and2 | buildSector | getTrackBitCount | getters => exact (nextIs_guard (worked_answer _ s)).ordinary
  | decode6and2 | decodeAddressField | findDataField | decodeSectorAt =>
    exact (nextIs_guard (worked_answerOrFail _ _ s)).ordinary
  | loadDsk | loadWoz => exact (worked_answerOrFail _ _ s).ordinary
  | nibblizeTrack k t => exact (worked_nibblizeTrack k t s).ordinary
  | materializeTrack k t => exact (worked_materializeTrack k t s).ordinary
  | denibblizeTrack k t => exact (worked_denibblizeTrack k t s).ordinary
  | flush k => exact (worked_answer_setDrive _ s k (.single .flush)).ordinary
  | readBit k => exact (worked_readBit k s).ordinary
  | readNibbleWoz k => exact (worked_readNibbleWoz k s).ordinary
  | advanceBitPosition k e => exact (worked_answer_setDrive _ s k (slotOps_advance _ e.toNat)).ordinary
  | readNibble k => exact (worked_answer_setDrive _ s k (slotOps_nextNibble _ _)).ordinary
  | writeNibble k v => exact (worked_answer_setDrive _ s k (slotOps_storeNibble _ v)).ordinary
  | setPhase k mask => exact (worked_answer_setDrive _ s k (slotOps_stepHead _ mask)).ordinary
  | powerCycle => exact nextIs_answer .powerCycle
  | setCycleCount c => exact execCase_setCycleCount c s
  | insertDisk k file format wp => exact execCase_insertDisk k file format wp s
  | ejectDisk k => exact execCase_ejectDisk k s
  | save k => exact (worked_save k s).ordinary

end Sys2Proof.Machine
end

section
/-! PROOFS. The obligations of the state family: the invariant (R35, R306, R356), the WOZ images (R26), and the kind of
an access (R30, R65). -/

namespace Sys2Proof.Machine

open Sys2Proof.Claims

/-! ### The invariant -/

theorem State.inv_iff (s : State) : s.Inv ↔ (∀ k, (s.drive k).Ok s.cycleNow) ∧
    (s.motorOffPending = true → s.motorOn = true) ∧ s.motorOffCycle ≤ s.cycleNow := by
  constructor
  · rintro ⟨drive1, drive2, pendingStop, stopClock⟩
    exact ⟨fun k => by cases k; exacts [drive1, drive2], pendingStop, stopClock⟩
  · rintro ⟨drives, pendingStop, stopClock⟩
    exact ⟨drives .drive1, drives .drive2, pendingStop, stopClock⟩

/-- Replacing one slot by a good one keeps the invariant, whatever is answered. -/
theorem State.Inv.setDrive_answered {s : State} (h : s.Inv) (k : DriveId) {d : DriveSlot} (hd : d.Ok s.cycleNow)
    (r : Result) : ((s.setDrive k d).answered r).Inv := by
  obtain ⟨drive1, drive2, pendingStop, stopClock⟩ := h
  cases k
  · exact ⟨hd, drive2, pendingStop, stopClock⟩
  · exact ⟨drive1, hd, pendingStop, stopClock⟩

theorem Worked.keeps_inv {s t : State} (w : Worked s t) (h : s.Inv) : t.Inv := by
  obtain ⟨drives, pendingStop, stopClock⟩ := s.inv_iff.mp h
  refine t.inv_iff.mpr ⟨fun k => ?_, w.pendingStop pendingStop, ?_⟩ <;> rw [w.cycleNow]
  · exact (w.drives k).keeps_ok (drives k)
  · rcases w.stopCycle with e | e <;> rw [e]
    · exact stopClock
    · exact BitVec.le_refl _

theorem State.reset_inv : State.reset.Inv :=
  ⟨driveSlotOk_powerUp _, driveSlotOk_powerUp _, by rintro ⟨⟩, BitVec.le_refl _⟩

theorem exec_keeps_inv {i : Instr} {s t : State} (h : s.Inv) (e : exec i s = .next t) : t.Inv := by
  cases exec_cases i s t e with
  | worked w => exact w.keeps_inv h
  | powerCycle =>
    obtain ⟨drive1, drive2, pendingStop, stopClock⟩ := State.reset_inv
    exact ⟨drive1, drive2, pendingStop, stopClock⟩
  | countTaken hc => exact ⟨h.drive1.mono hc, h.drive2.mono hc, h.pendingStop, BitVec.le_trans h.stopClock hc⟩
  | inserted hl =>
    obtain ⟨ok, clean⟩ := loadImage_ok hl
    exact h.setDrive_answered _ (driveSlotOk_insertInto _ ok clean _) _
  | ejected r =>
    exact h.setDrive_answered _ ((s.inv_iff.mp h).1 _).ejected r

/-- A step is idle, or performs one operation on the state with its request or call taken off the list. -/
theorem step_cases {s t : State} (h : step s = .next t) :
    t = s ∨ ∃ i calls pending, exec i { s with calls := calls, pending := pending } = .next t := by
  have performed {r : Except DecodeError Instr} {s' : State} (h : perform r s' = .next t) :
      ∃ i, exec i s' = .next t := by
    cases r with
    | error why => cases h
    | ok i => exact ⟨i, h⟩
  cases hc : s.calls with
  | cons c rest =>
    simp only [step, hc] at h
    obtain ⟨i, hi⟩ := performed h
    exact .inr ⟨i, rest, s.pending, hi⟩
  | nil =>
    cases hp : s.pending with
    | cons r rest =>
      simp only [step, hc, hp] at h
      obtain ⟨i, hi⟩ := performed h
      exact .inr ⟨i, [], rest, hi⟩
    | nil =>
      simp only [step, hc, hp] at h
      cases h; exact .inl rfl

/-- Settles O57: every operation is ordinary work or one of four others (`exec_cases`), and each keeps the invariant. -/
theorem everyStepKeepsTheInvariant : Obligations.EveryStepKeepsTheInvariant := by
  intro s t h hstep
  rcases step_cases hstep with rfl | ⟨i, calls, pending, e⟩
  · exact h
  · obtain ⟨drive1, drive2, pendingStop, stopClock⟩ := h
    exact exec_keeps_inv (s := { s with calls, pending }) ⟨drive1, drive2, pendingStop, stopClock⟩ e

/-- Settles O56. -/
theorem resetMeetsTheInvariant : Obligations.ResetMeetsTheInvariant := State.reset_inv

/-! ### WOZ images -/

/-- Settles O58: ordinary work keeps a WOZ image (`SlotOps.keeps_woz`), and an insertion or eject concerns its own
drive only. -/
theorem wozImagesAreNeverWritten : Obligations.WozImagesAreNeverWritten := by
  intro i s t k img e hk
  have other {j : DriveId} (hj : k ≠ j) (d : DriveSlot) (r : Result) :
      (((s.setDrive j d).answered r).drive k).image = some (.woz img) := by
    rwa [State.answered_drive, State.drive_setDrive_other s hj]
  cases exec_cases i s t e with
  | worked w => exact .inl ((w.drives k).keeps_woz hk)
  | powerCycle => exact .inr (.inl rfl)
  | countTaken => exact .inl (by cases k <;> exact hk)
  | @inserted j file format wp image =>
    by_cases hj : k = j
    · subst hj; exact .inr (.inr (.inr ⟨file, format, wp, rfl⟩))
    · exact .inl (other hj _ _)
  | @ejected j r =>
    by_cases hj : k = j
    · subst hj; exact .inr (.inr (.inl rfl))
    · exact .inl (other hj _ _)

/-! ### The kind of an access -/

/-- The effect of a switch, by offset (R263 to R278). -/
def switchEffect : Fin 16 → Access → State → State
  | 0, _ => phaseAccess 0 false
  | 1, _ => phaseAccess 0 true
  | 2, _ => phaseAccess 1 false
  | 3, _ => phaseAccess 1 true
  | 4, _ => phaseAccess 2 false
  | 5, _ => phaseAccess 2 true
  | 6, _ => phaseAccess 3 false
  | 7, _ => phaseAccess 3 true
  | 8, _ => motorOffEffect
  | 9, _ => motorOnEffect
  | 10, _ => selectDrive .drive1
  | 11, _ => selectDrive .drive2
  | 12, _ => q6lEffect
  | 13, a => q6hEffect a
  | 14, _ => fun s => { s with q7 := false }
  | _, _ => fun s => { s with q7 := true }

/-- Every switch is one bus access around its effect (R260, R261). -/
theorem exec_switch (off : Fin 16) (a : Access) (s : State) :
    exec (switch off a) s = .next (accessed (BitVec.ofFin off) a (switchEffect off a) s) := by
  fin_cases off <;> rfl

/-- No switch but Q6H looks at the kind of the access or the byte written (R30, R65). -/
theorem switchEffect_access (off : Fin 16) (a b : Access) : off = 13 ∨ switchEffect off a = switchEffect off b := by
  fin_cases off
  iterate 13 exact .inr rfl
  · exact .inl rfl
  iterate 2 exact .inr rfl

/-- Q6H looks at it in write mode only (R276, U21). -/
theorem q6hEffect_access (a b : Access) {s : State} (h : s.q7 = false) : q6hEffect a s = q6hEffect b s := by
  simp only [q6hEffect, h, Bool.false_eq_true, if_false]

/-- Apart from its effect an access writes `result` and `emitted` only (R261 steps 3 and 4). -/
theorem accessed_eq_of_effect_eq (off : BitVec 4) (a b : Access) {f g : State → State} {s : State}
    (h : f (evalMotorTimeout { s with emitted := [] }) = g (evalMotorTimeout { s with emitted := [] })) :
    { accessed off a f s with result := (accessed off b g s).result, emitted := (accessed off b g s).emitted } =
      accessed off b g s := by
  simp only [accessed, h]

/-- Settles O49: the two accesses have one effect, and what else they write is `result` and `emitted`. -/
theorem accessNotValueOperatesASwitch : Obligations.AccessNotValueOperatesASwitch := by
  intro off a b s h
  refine ⟨_, _, exec_switch off a s, exec_switch off b s, accessed_eq_of_effect_eq _ a b ?_⟩
  rcases switchEffect_access off a b with rfl | e
  · exact q6hEffect_access a b ((evalMotorTimeout_q7 _).trans (h.resolve_left (absurd rfl)))
  · rw [e]

end Sys2Proof.Machine
end

section
/-! PROOFS. A request decodes only to an operation that its interface reaches (R336), and a step performs the operation that
the next call or request decodes to (R8, R69). -/

namespace Sys2Proof

open Sys2Proof.Claims

/-! ### Decoding keeps to the interface -/

/-- Where a decoder answers a value, that value satisfies `P`. -/
def OkIs {α : Type} (P : α → Prop) (x : Except DecodeError α) : Prop := ∀ a, x = .ok a → P a

theorem okIs_error {α : Type} (P : α → Prop) (e : DecodeError) : OkIs P (.error e) := by rintro _ ⟨⟩

theorem okIs_bind {α β : Type} {P : β → Prop} {x : Except DecodeError α} {f : α → Except DecodeError β}
    (h : ∀ a, OkIs P (f a)) : OkIs P (x >>= f) := by
  cases x with
  | error e => exact okIs_error P e
  | ok a => exact h a

theorem okIs_guard {α : Type} {P : α → Prop} {c : Prop} [Decidable c] {x : Except DecodeError α} {e : DecodeError}
    (h : c → OkIs P x) : OkIs P (if c then x else .error e) := by
  split
  · next hc => exact h hc
  · exact okIs_error P e

theorem okIs_complete {P : Instr → Prop} {i : Instr} (h : P i) (rest : List Byte) : OkIs P (complete i rest) := by
  cases rest with
  | nil => rintro _ ⟨⟩; exact h
  | cons b r => exact okIs_error P _

theorem reachedBy_switchAt (off : BitVec 4) (a : Access) : reachedBy (switchAt off a) = .bus := by
  unfold switchAt; split <;> rfl

/-- The words of R90 are the bus's. -/
theorem decodeSwitch_reachedBy (word : Byte) (rest : List Byte) :
    OkIs (reachedBy · = .bus) (decodeSwitch word rest) := by
  unfold decodeSwitch
  split
  · cases rest with
    | nil => exact okIs_error _ _
    | cons v r => exact okIs_complete (reachedBy_switchAt _ _) r
  · exact okIs_complete (reachedBy_switchAt _ _) rest

/-- Every code of R113 is on the interface that reaches its operation: each arm takes operands and ends in one operation. -/
theorem decodeUnit_reachedBy (code : Byte) (ops : List Byte) :
    OkIs (reachedBy · = interfaceOf code) (decodeUnit code ops) := by
  unfold decodeUnit
  split <;> rename_i hcode
  case h_33 => exact okIs_error _ _
  all_goals
    repeat refine okIs_bind fun ⟨_, _⟩ => ?_
    exact okIs_complete (by simp [reachedBy, interfaceOf, hcode]) _

/-- An operation is decoded only from a request on the interface that reaches it (R336). -/
theorem decode_reachedBy {r : Request} {i : Instr} (h : decode r = .ok i) : reachedBy i = r.port := by
  suffices reached : OkIs (reachedBy · = r.port) (decode r) from reached i h
  obtain ⟨port, bytes⟩ := r
  cases bytes with
  | nil => exact okIs_error _ _
  | cons code ops =>
    have unit {p : Port} (hp : interfaceOf code = p) : OkIs (reachedBy · = p) (decodeUnit code ops) :=
      hp ▸ decodeUnit_reachedBy code ops
    cases port with
    | bus =>
      simp only [decode, decodeBus]
      split
      · exact decodeSwitch_reachedBy code ops
      · exact okIs_guard unit
    | host => exact okIs_guard unit
    | internal => exact okIs_guard unit

theorem decodeAgent_of_ne_internal {r : Request} (h : r.port ≠ .internal) : decodeAgent r = decode r := by
  unfold decodeAgent
  split
  · rfl
  · rfl
  · contradiction

theorem decodeAgent_of_internal {r : Request} (h : r.port = .internal) : decodeAgent r = .error .internalOnly := by
  simp only [decodeAgent, h]

end Sys2Proof

namespace Sys2Proof.Machine

/-! ### What a step performs -/

theorem step_idle {s : State} (hc : s.calls = []) (hp : s.pending = []) : step s = .next s := by
  simp only [step, hc, hp]

theorem step_request {s : State} {r : Request} {rest : List Request} (hc : s.calls = []) (hp : s.pending = r :: rest) :
    step s = perform (decodeAgent r) { s with pending := rest } := by
  simp only [step, hc, hp]

theorem step_call {s : State} {c : List Byte} {rest : List (List Byte)} (hc : s.calls = c :: rest) :
    step s = perform (decode ⟨.internal, c⟩) { s with calls := rest } := by
  simp only [step, hc, decodeCall]

/-- Settles O4: `step` by the case of its two lists, and the interface of what was decoded by `decode_reachedBy`. -/
theorem stepPerformsTheNextRequest : Obligations.StepPerformsTheNextRequest := by
  refine fun s => ⟨step_idle, fun r rest hc hp => ⟨fun i hport hd => ⟨?_, ?_⟩, fun e hport hd => ?_, fun hport => ?_⟩,
    fun c rest hc => ⟨fun i hd => ⟨decode_reachedBy hd, ?_⟩, fun e hd => ?_⟩⟩
  · rwa [decode_reachedBy hd]
  · rw [step_request hc hp, decodeAgent_of_ne_internal hport, hd]; rfl
  · rw [step_request hc hp, decodeAgent_of_ne_internal hport, hd]; rfl
  · rw [step_request hc hp, decodeAgent_of_internal hport]; rfl
  · rw [step_call hc, hd]; rfl
  · rw [step_call hc, hd]; rfl

end Sys2Proof.Machine
end

section
/-! PROOFS. Each operand of a unit operation is read from exactly the bytes that write it, so the decoder answers an
operation on its own encoding and on nothing else. -/

namespace Sys2Proof

open Sys2Proof.Machine Sys2Proof.Claims

theorem bind_eq_ok {α β : Type} {x : Except DecodeError α} {f : α → Except DecodeError β} {b : β} :
    (x >>= f) = .ok b ↔ ∃ a, x = .ok a ∧ f a = .ok b := by
  cases x with
  | error e => exact ⟨by rintro ⟨⟩, by rintro ⟨_, ⟨⟩, _⟩⟩
  | ok a => exact ⟨fun h => ⟨a, rfl, h⟩, by rintro ⟨_, ⟨⟩, h⟩; exact h⟩

@[simp] theorem complete_eq_ok {i j : Instr} {rest : List Byte} : complete i rest = .ok j ↔ rest = [] ∧ i = j := by
  cases rest <;> simp [complete]

/-! ### Bytes and numbers -/

@[simp] theorem takeByte_eq_ok {bs r : List Byte} {b : Byte} : takeByte bs = .ok (b, r) ↔ bs = b :: r := by
  cases bs <;> simp [takeByte]

@[simp] theorem takeBytes_eq_ok {n : Nat} {bs xs r : List Byte} :
    takeBytes n bs = .ok (xs, r) ↔ xs.length = n ∧ bs = xs ++ r := by
  unfold takeBytes
  constructor
  · split
    · next h => rintro ⟨⟩; exact ⟨List.length_take_of_le h, (List.take_append_drop n bs).symm⟩
    · rintro ⟨⟩
  · rintro ⟨rfl, rfl⟩
    simp

theorem bytesToNat_lt (xs : List Byte) : bytesToNat xs < 256 ^ xs.length := by
  induction xs with
  | nil => decide
  | cons b r ih => simp only [bytesToNat, List.length_cons, pow_succ]; omega

theorem bytesToNat_natToBytes {k n : Nat} (h : n < 256 ^ k) : bytesToNat (natToBytes k n) = n := by
  induction k generalizing n with
  | zero => simp only [natToBytes, bytesToNat]; omega
  | succ k ih =>
    rw [pow_succ] at h
    simp only [natToBytes, bytesToNat, BitVec.toNat_ofNat, ih (Nat.div_lt_of_lt_mul (Nat.mul_comm _ _ ▸ h))]
    omega

theorem natToBytes_bytesToNat (xs : List Byte) : natToBytes xs.length (bytesToNat xs) = xs := by
  induction xs with
  | nil => rfl
  | cons b r ih =>
    have low : BitVec.ofNat 8 (b.toNat + 256 * bytesToNat r) = b := by
      apply BitVec.eq_of_toNat_eq; rw [BitVec.toNat_ofNat]; omega
    have high : (b.toNat + 256 * bytesToNat r) / 256 = bytesToNat r := by omega
    simp only [List.length_cons, natToBytes, bytesToNat, low, high, ih]

@[simp] theorem takeNat_eq_ok {k n : Nat} {bs r : List Byte} :
    takeNat k bs = .ok (n, r) ↔ n < 256 ^ k ∧ bs = natToBytes k n ++ r := by
  simp only [takeNat, bind_eq_ok, Prod.exists, takeBytes_eq_ok]
  constructor
  · rintro ⟨xs, _, ⟨rfl, rfl⟩, ⟨⟩⟩
    exact ⟨bytesToNat_lt xs, by rw [natToBytes_bytesToNat]⟩
  · rintro ⟨h, rfl⟩
    exact ⟨_, r, ⟨length_natToBytes k n, rfl⟩, by rw [bytesToNat_natToBytes h]; rfl⟩

@[simp] theorem takeFile_eq_ok {bs file r : List Byte} :
    takeFile bs = .ok (file, r) ↔ fileFits file = true ∧ bs = fileBytes file ++ r := by
  simp only [takeFile, bind_eq_ok, Prod.exists, takeNat_eq_ok, takeBytes_eq_ok, fileBytes, fileFits, decide_eq_true_eq]
  constructor
  · rintro ⟨_, _, ⟨h, rfl⟩, rfl, rfl⟩
    exact ⟨h, (List.append_assoc ..).symm⟩
  · rintro ⟨h, rfl⟩
    exact ⟨_, _, ⟨h, List.append_assoc ..⟩, rfl, rfl⟩

@[simp] theorem takeBuffer_eq_ok {bs buf r : List Byte} :
    takeBuffer bs = .ok (buf, r) ↔ bufferFits buf = true ∧ bs = bufferBytes buf ++ r := by
  simp only [takeBuffer, bind_eq_ok, Prod.exists, takeNat_eq_ok, takeBytes_eq_ok, bufferBytes, bufferFits,
    Bool.and_eq_true, decide_eq_true_eq]
  constructor
  · rintro ⟨n, _, ⟨h, rfl⟩, e, rfl⟩
    exact ⟨by omega, by simp [e]⟩
  · rintro ⟨h, rfl⟩
    exact ⟨_, _, ⟨by omega, List.append_assoc ..⟩, by omega, rfl⟩

/-! ### Operands of one byte -/

theorem takeByte_cons_bind {α : Type} (b : Byte) (bs : List Byte) (f : Byte × List Byte → Except DecodeError α) :
    (takeByte (b :: bs) >>= f) = f (b, bs) := rfl

section
variable {α : Type} {take : List Byte → Except DecodeError (α × List Byte)} {put : α → Byte}

/-- An operand is read from its own byte only when `take` reads the byte of each value as that value, and reads no other
byte. -/
theorem take_eq_ok_of_byte (none : take [] = .error .truncatedOperands)
    (reads : ∀ a bs, take (put a :: bs) = .ok (a, bs))
    (only : ∀ b bs x, take (b :: bs) = .ok x → b = put x.1 ∧ bs = x.2) {bs : List Byte} {a : α} {r : List Byte} :
    take bs = .ok (a, r) ↔ bs = put a :: r := by
  constructor
  · intro h
    cases bs with
    | nil => rw [none] at h; cases h
    | cons b bs => obtain ⟨rfl, rfl⟩ := only b bs _ h; rfl
  · rintro rfl
    exact reads a r

/-- A selector of two values, 0 and 1. -/
theorem take_eq_ok_of_choice {x y : α} {e : DecodeError} (none : take [] = .error .truncatedOperands)
    (cons : ∀ b bs, take (b :: bs) = if b = 0 then .ok (x, bs) else if b = 1 then .ok (y, bs) else .error e)
    (hx : put x = 0) (hy : put y = 1) (all : ∀ a, a = x ∨ a = y) {bs : List Byte} {a : α} {r : List Byte} :
    take bs = .ok (a, r) ↔ bs = put a :: r := by
  refine take_eq_ok_of_byte none (fun a bs => ?_) fun b bs _ h => ?_
  · rcases all a with rfl | rfl
    · rw [cons, hx]; rfl
    · rw [cons, hy]; rfl
  · rw [cons] at h
    split_ifs at h with h0 h1 <;> cases h
    · exact ⟨h0.trans hx.symm, rfl⟩
    · exact ⟨h1.trans hy.symm, rfl⟩

end

/-- A number below a bound. -/
theorem take_eq_ok_of_bound {take : List Byte → Except DecodeError (Nat × List Byte)} {n : Nat} {e : DecodeError}
    (hn : n ≤ 256) (none : take [] = .error .truncatedOperands)
    (cons : ∀ b bs, take (b :: bs) = if b.toNat < n then .ok (b.toNat, bs) else .error e) {bs : List Byte} {t : Nat}
    {r : List Byte} : take bs = .ok (t, r) ↔ t < n ∧ bs = BitVec.ofNat 8 t :: r := by
  constructor
  · intro h
    cases bs with
    | nil => rw [none] at h; cases h
    | cons b bs =>
      rw [cons] at h
      split_ifs at h with hb
      cases h
      exact ⟨hb, by simp⟩
  · rintro ⟨ht, rfl⟩
    have toNat : (BitVec.ofNat 8 t).toNat = t := by rw [BitVec.toNat_ofNat]; omega
    rw [cons, toNat, if_pos ht]

@[simp] theorem takeDrive_eq_ok {bs r : List Byte} {k : DriveId} :
    takeDrive bs = .ok (k, r) ↔ bs = driveByte k :: r :=
  take_eq_ok_of_choice (put := driveByte) rfl (fun _ _ => rfl) rfl rfl (by rintro ⟨⟩ <;> simp)

@[simp] theorem takeOrder_eq_ok {bs r : List Byte} {o : SectorOrder} :
    takeOrder bs = .ok (o, r) ↔ bs = orderByte o :: r :=
  take_eq_ok_of_choice (put := orderByte) rfl (fun _ _ => rfl) rfl rfl (by rintro ⟨⟩ <;> simp)

@[simp] theorem takeFlag_eq_ok {bs r : List Byte} {b : Bool} : takeFlag bs = .ok (b, r) ↔ bs = flagByte b :: r :=
  take_eq_ok_of_choice (put := flagByte) rfl (fun _ _ => rfl) rfl rfl (by rintro ⟨⟩ <;> simp)

@[simp] theorem takeFormat_eq_ok {bs r : List Byte} {f : DiskFormat} :
    takeFormat bs = .ok (f, r) ↔ bs = formatByte f :: r := by
  refine take_eq_ok_of_byte rfl (by rintro ⟨⟩ bs <;> rfl) fun b bs x h => ?_
  simp only [takeFormat, takeByte_cons_bind] at h
  split_ifs at h with h0 h1 h2 <;> cases h
  · exact ⟨h0, rfl⟩
  · exact ⟨h1, rfl⟩
  · exact ⟨h2, rfl⟩

@[simp] theorem takeMask_eq_ok {bs r : List Byte} {m : BitVec 4} :
    takeMask bs = .ok (m, r) ↔ bs = m.setWidth 8 :: r := by
  refine take_eq_ok_of_byte (put := BitVec.setWidth 8) rfl (fun m bs => ?_) fun b bs x h => ?_
  · have small : (m.setWidth 8).toNat < 16 := by rw [BitVec.toNat_setWidth]; omega
    have same : (m.setWidth 8).setWidth 4 = m := by simp
    simp only [takeMask, takeByte_cons_bind, small, if_true, same]; rfl
  · simp only [takeMask, takeByte_cons_bind] at h
    split_ifs at h with hb
    cases h
    refine ⟨BitVec.eq_of_toNat_eq ?_, rfl⟩
    simp only [BitVec.toNat_setWidth]; omega

@[simp] theorem takeTrack_eq_ok {bs r : List Byte} {t : Nat} :
    takeTrack bs = .ok (t, r) ↔ t < Config.dskTracks ∧ bs = BitVec.ofNat 8 t :: r :=
  take_eq_ok_of_bound (by decide) rfl fun _ _ => rfl

@[simp] theorem takeQuarterTrack_eq_ok {bs r : List Byte} {q : Nat} :
    takeQuarterTrack bs = .ok (q, r) ↔ q < Config.wozSlots ∧ bs = BitVec.ofNat 8 q :: r :=
  take_eq_ok_of_bound (by decide) rfl fun _ _ => rfl

/-! ### Unit operations (R113) -/

theorem decode_unitRequest (code : Byte) (ops : List Byte) : decode (unitRequest code ops) = decodeUnit code ops := by
  cases h : interfaceOf code with
  | bus =>
    have rom : ¬ code.toNat < 0x20 := by
      intro hlt; simp only [interfaceOf] at h; split_ifs at h; omega
    simp only [decode, unitRequest, decodeBus, h, rom, if_true, if_false]
  | host => simp only [decode, unitRequest, h, if_true]
  | internal => simp only [decode, unitRequest, h, if_true]

/-- A unit operation is decoded from its own encoding only: each arm of the code table takes operands and ends in one
operation. -/
theorem encode_of_decodeUnit {code : Byte} {ops : List Byte} {i : Instr} (h : decodeUnit code ops = .ok i) :
    i.wellFormed = true ∧ encode i = unitRequest code ops := by
  have literal : code = BitVec.ofNat 8 code.toNat := by simp
  revert h
  unfold decodeUnit
  split <;> rename_i hcode
  case h_33 => rintro ⟨⟩
  all_goals
    rw [hcode] at literal
    subst literal
    simp only [bind_eq_ok, Prod.exists, takeByte_eq_ok, takeBytes_eq_ok, takeNat_eq_ok, takeFile_eq_ok,
      takeBuffer_eq_ok, takeDrive_eq_ok, takeOrder_eq_ok, takeFlag_eq_ok, takeFormat_eq_ok, takeMask_eq_ok,
      takeTrack_eq_ok, takeQuarterTrack_eq_ok, complete_eq_ok, forall_exists_index, and_imp]
    intros
    subst_vars
    simp_all [encode, Instr.wellFormed, Nat.mod_eq_of_lt]

/-- The number read for a word of `k` bytes is the word's own. -/
theorem exists_number_of_word {k w : Nat} (hw : 2 ^ w = 256 ^ k) (c : BitVec w) :
    ∃ n, (n < 256 ^ k ∧ natToBytes k c.toNat = natToBytes k n) ∧ BitVec.ofNat w n = c :=
  ⟨c.toNat, ⟨hw ▸ c.isLt, rfl⟩, by simp⟩

/-- Each operand is read back from its own bytes, and a switch by evaluation. -/
theorem decode_encode {i : Instr} (h : i.wellFormed = true) : decode (encode i) = .ok i := by
  cases i with
  | phase0Off a | phase0On a | phase1Off a | phase1On a | phase2Off a | phase2On a | phase3Off a | phase3On a
  | motorOff a | motorOn a | drive1Sel a | drive2Sel a | q6l a | q6h a | q7l a | q7h a => cases a <;> rfl
  | advanceBitPosition _ c | setCycleCount c =>
    simpa [encode, decode_unitRequest, decodeUnit, bind_eq_ok] using exists_number_of_word (k := 8) rfl c
  | romRead a =>
    simpa [encode, decode_unitRequest, decodeUnit, bind_eq_ok] using exists_number_of_word (k := 2) rfl a
  | _ => simp_all [encode, decode_unitRequest, decodeUnit, bind_eq_ok, Instr.wellFormed, -Bool.exists_bool]

/-! ### Soft switches (R90, R91) -/

theorem encode_switchAt (off : BitVec 4) (a : Access) : encode (switchAt off a) = busRequest (off.setWidth 8) a := by
  obtain ⟨off⟩ := off
  fin_cases off <;> rfl

theorem wellFormed_switchAt (off : BitVec 4) (a : Access) : (switchAt off a).wellFormed = true := by
  unfold switchAt; split <;> rfl

/-- The word of a read is the offset. -/
theorem readWord_eq : ∀ {word : Byte}, word.toNat < 0x20 → word.getLsbD 4 = false →
    (word.setWidth 4).setWidth 8 = word := by
  decide

/-- The word of a write is the offset with bit 4 set. -/
theorem writeWord_eq : ∀ {word : Byte}, word.toNat < 0x20 → word.getLsbD 4 = true →
    0x10 ||| (word.setWidth 4).setWidth 8 = word := by
  decide

theorem encode_of_decodeSwitch {word : Byte} {rest : List Byte} {i : Instr} (hw : word.toNat < 0x20)
    (h : decodeSwitch word rest = .ok i) : i.wellFormed = true ∧ encode i = ⟨.bus, word :: rest⟩ := by
  unfold decodeSwitch at h
  split at h
  · next write =>
    cases rest with
    | nil => cases h
    | cons v r =>
      obtain ⟨rfl, rfl⟩ := complete_eq_ok.mp h
      exact ⟨wellFormed_switchAt _ _, by rw [encode_switchAt, busRequest, writeWord_eq hw write]⟩
  · next read =>
    obtain ⟨rfl, rfl⟩ := complete_eq_ok.mp h
    exact ⟨wellFormed_switchAt _ _, by rw [encode_switchAt, busRequest, readWord_eq hw (by simpa using read)]⟩

/-! ### Requests -/

/-- An operation is decoded from its own encoding only. -/
theorem encode_of_decode {r : Request} {i : Instr} (h : decode r = .ok i) : i.wellFormed = true ∧ encode i = r := by
  obtain ⟨port, bytes⟩ := r
  cases bytes with
  | nil => cases h
  | cons code ops =>
    have unit {p : Port} (hp : interfaceOf code = p) (h : decodeUnit code ops = .ok i) :
        i.wellFormed = true ∧ encode i = ⟨p, code :: ops⟩ := hp ▸ encode_of_decodeUnit h
    cases port with
    | bus =>
      simp only [decode, decodeBus] at h
      split_ifs at h with hw hp
      · exact encode_of_decodeSwitch hw h
      · exact unit hp h
    | host | internal =>
      simp only [decode] at h
      split_ifs at h with hp
      exact unit hp h

/-- Settles O1. -/
theorem decodeOfEncodeIsTheOperation : Obligations.DecodeOfEncodeIsTheOperation := fun _ => decode_encode

/-- Settles O2: the encoding by `encode_of_decode`, and the interface by `decode_reachedBy`. -/
theorem encodeOfDecodeIsTheRequest : Obligations.EncodeOfDecodeIsTheRequest := by
  intro r i h
  obtain ⟨wellFormed, encoded⟩ := encode_of_decode h
  exact ⟨wellFormed, encoded, (decode_reachedBy h).symm⟩

/-- Settles O3, each word by evaluation. -/
theorem traceWordsDecode : Obligations.TraceWordsDecode := ⟨rfl, rfl, rfl, rfl, rfl, rfl, rfl, rfl⟩

end Sys2Proof
end

section
/-! PROOFS. The GCR encoder (`40_gcr_encoder.md`): what it makes, nibble by nibble, where a sector's prologues stand, and
that the GCR decoder gives back what was encoded, wherever it stands in a longer buffer. -/

namespace Sys2Proof.Machine

open Sys2Proof.Claims

/-! ### The meanings on arguments of their types -/

theorem exec_encode4and4 (v : Byte) (s : State) :
    exec (.encode4and4 v) s = .next (s.answered (.nibblePair (encodePair v).1 (encodePair v).2)) := rfl

theorem exec_encode6and2 {d : List Byte} (h : d.length = 256) (s : State) :
    exec (.encode6and2 d) s = .next (s.answered (.bytes (encodeData d))) := if_pos h

theorem exec_buildAddressField (v t x : Byte) (s : State) :
    exec (.buildAddressField v t x) s = .next (s.answered (.bytes (addressField v t x))) := rfl

theorem exec_buildSector (v t x : Byte) {d : List Byte} (h : d.length = 256) (s : State) :
    exec (.buildSector v t x d) s = .next (s.answered (.bytes (sectorNibbles v t x d))) := if_pos h

theorem exec_decodeAddressField_ok {buf : List Byte} {i : Nat} {r : Byte × Byte × Byte} (hb : 0 < buf.length)
    (h : decodeAddress buf i = .ok r) (s : State) :
    exec (.decodeAddressField buf i) s = .next (s.answered (.addressField r.1 r.2.1 r.2.2)) :=
  (if_pos hb).trans (by rw [h, answerOrFail_ok])

theorem exec_decodeSectorAt_ok {buf : List Byte} {i : Nat} {r : Byte × Byte × Byte × List Byte} (hb : 0 < buf.length)
    (h : decodeSector buf i = .ok r) (s : State) :
    exec (.decodeSectorAt buf i) s = .next (s.answered (.sector r.1 r.2.1 r.2.2.1 r.2.2.2)) :=
  (if_pos hb).trans (by rw [h, answerOrFail_ok])

/-! ### Pairs (R130, R131) -/

/-- The clock bits. -/
theorem encodePair_clockBits (v : Byte) {j : Nat} (hj : j < 4) :
    (encodePair v).1.getLsbD (2 * j + 1) = true ∧ (encodePair v).2.getLsbD (2 * j + 1) = true := by
  interval_cases j <;> simp [encodePair]

/-- The data bits. -/
theorem encodePair_dataBits (v : Byte) {j : Nat} (hj : j < 4) :
    (encodePair v).1.getLsbD (2 * j) = v.getLsbD (2 * j + 1) ∧ (encodePair v).2.getLsbD (2 * j) = v.getLsbD (2 * j) := by
  interval_cases j <;> simp [encodePair]

/-- Of two adjacent bits one is a clock bit. -/
theorem adjacentBits_of_clockBits {b : Byte} (clock : ∀ j, j < 4 → b.getLsbD (2 * j + 1) = true) {j : Nat} (hj : j < 7) :
    b.getLsbD j = true ∨ b.getLsbD (j + 1) = true := by
  obtain ⟨k, rfl | rfl⟩ := Nat.even_or_odd' j
  · exact .inr (clock k (by omega))
  · exact .inl (clock k (by omega))

/-- Bit 5 of D5 is clear. -/
theorem ne_D5_of_clockBits {b : Byte} (clock : ∀ j, j < 4 → b.getLsbD (2 * j + 1) = true) : b ≠ 0xD5 := by
  rintro rfl
  exact absurd (clock 2 (by decide)) (by decide)

theorem encodePair_fst_ne_D5 (v : Byte) : (encodePair v).1 ≠ 0xD5 :=
  ne_D5_of_clockBits fun _ hj => (encodePair_clockBits v hj).1

theorem encodePair_snd_ne_D5 (v : Byte) : (encodePair v).2 ≠ 0xD5 :=
  ne_D5_of_clockBits fun _ hj => (encodePair_clockBits v hj).2

/-- R151. -/
theorem decodePair_encodePair (v : Byte) : decodePair (encodePair v).1 (encodePair v).2 = v := by revert v; decide

theorem encodePair_injective : Function.Injective encodePair := fun v w h => by
  rw [← decodePair_encodePair v, h, decodePair_encodePair]

/-- Settles O7: clock and data bits by R130's formula, the rest of the clauses from the clock bits and from the decoder
that inverts the pair. -/
theorem pairEncodingBits : Obligations.PairEncodingBits := by
  intro v s
  refine ⟨_, _, exec_encode4and4 v s, fun j hj => ?_, fun j hj => ⟨?_, ?_⟩, encodePair_fst_ne_D5 v,
    encodePair_snd_ne_D5 v, fun w hw => ?_⟩
  · obtain ⟨clock1, clock2⟩ := encodePair_clockBits v hj
    obtain ⟨data1, data2⟩ := encodePair_dataBits v hj
    exact ⟨clock1, clock2, data1, data2⟩
  · exact adjacentBits_of_clockBits (fun _ hk => (encodePair_clockBits v hk).1) hj
  · exact adjacentBits_of_clockBits (fun _ hk => (encodePair_clockBits v hk).2) hj
  · have answers := congrArg State.result (Host.Outcome.next.inj hw)
    obtain ⟨e1, e2⟩ := Result.nibblePair.inj answers
    exact encodePair_injective (Prod.ext e1 e2)

/-! ### The address field (R135) -/

/-- R135, R94. -/
theorem addressField_eq (v t x : Byte) :
    addressField v t x = [0xD5, 0xAA, 0x96, (encodePair v).1, (encodePair v).2, (encodePair t).1, (encodePair t).2,
      (encodePair x).1, (encodePair x).2, (encodePair (v ^^^ t ^^^ x)).1, (encodePair (v ^^^ t ^^^ x)).2,
      0xDE, 0xAA, 0xEB] := rfl

/-- Settles O13, by the equation of `addressField`. -/
theorem addressFieldNibbles : Obligations.AddressFieldNibbles := fun v t x s =>
  ⟨_, _, _, _, _, _, _, _, exec_encode4and4 v s, exec_encode4and4 t s, exec_encode4and4 x s,
    exec_encode4and4 (v ^^^ t ^^^ x) s, by rw [exec_buildAddressField, addressField_eq]⟩

/-! ### The six-bit values (R96) -/

theorem swap2_swap2 (x : BitVec 2) : swap2 (swap2 x) = x := by revert x; decide

theorem toNat_swap2 (x : BitVec 2) : (swap2 x).toNat = swapped x.toNat := by revert x; decide

theorem toNat_lowTwo (b : Byte) : (lowTwo b).toNat = b.toNat % 4 := by simp [lowTwo]

theorem toNat_topSix (b : Byte) : (topSix b).toNat = b.toNat / 4 := by
  simp only [topSix, BitVec.extractLsb'_toNat, Nat.shiftRight_eq_div_pow]; omega

theorem topSix_append_lowTwo (b : Byte) : topSix b ++ lowTwo b = b := by revert b; decide

theorem toNat_append_fields (a b c : BitVec 2) : (a ++ b ++ c).toNat = c.toNat + 4 * b.toNat + 16 * a.toNat := by
  revert a b c; decide

/-- The two bits of byte `i` that its auxiliary value holds, none for an index past the last byte. -/
def auxField (d : List Byte) (i : Nat) : BitVec 2 := if i < 256 then swap2 (lowTwo (byteAt d i)) else 0

theorem auxValue_eq (d : List Byte) (k : Nat) :
    auxValue d k = auxField d (k + 172) ++ auxField d (k + 86) ++ auxField d k := rfl

theorem auxField_of_lt (d : List Byte) {i : Nat} (h : i < 256) : auxField d i = swap2 (lowTwo (byteAt d i)) := if_pos h

theorem auxField_of_ge (d : List Byte) {i : Nat} (h : 256 ≤ i) : auxField d i = 0 := if_neg (by omega)

theorem toNat_auxField (d : List Byte) {i : Nat} (h : i < 256) :
    (auxField d i).toNat = swapped ((d.getD i 0).toNat % 4) := by
  rw [auxField_of_lt d h, toNat_swap2, toNat_lowTwo, byteAt]

/-- Each byte's field is cut out of the auxiliary value it went into. -/
theorem extract_auxValue (d : List Byte) (i : Nat) (hi : i < 256) :
    (auxValue d (i % 86)).extractLsb' (2 * (i / 86)) 2 = auxField d i := by
  have fields (a b c : BitVec 2) : (a ++ b ++ c).extractLsb' 0 2 = c ∧ (a ++ b ++ c).extractLsb' 2 2 = b ∧
      (a ++ b ++ c).extractLsb' 4 2 = a := by revert a b c; decide
  obtain ⟨h0, h1, h2⟩ := fields (auxField d (i % 86 + 172)) (auxField d (i % 86 + 86)) (auxField d (i % 86))
  rw [auxValue_eq]
  obtain hq | hq | hq : i / 86 = 0 ∨ i / 86 = 1 ∨ i / 86 = 2 := by omega
  · rw [hq, h0, show i % 86 = i by omega]
  · rw [hq, h1, show i % 86 + 86 = i by omega]
  · rw [hq, h2, show i % 86 + 172 = i by omega]

theorem sixBitBuffer_getD_aux (d : List Byte) {k : Nat} (hk : k < 86) : (sixBitBuffer d).getD k 0 = auxValue d k := by
  have hk' : k < ((List.range 86).map (auxValue d)).length := by simpa using hk
  rw [sixBitBuffer, List.getD_append _ _ _ _ hk', List.getD_eq_getElem _ _ hk', List.getElem_map, List.getElem_range]

theorem sixBitBuffer_getD_primary (d : List Byte) (i : Nat) : (sixBitBuffer d).getD (86 + i) 0 = topSix (byteAt d i) := by
  rw [sixBitBuffer, List.getD_append_right _ _ _ _ (by simp)]
  simp only [List.length_map, List.length_range, Nat.add_sub_cancel_left]
  exact List.getD_map d 0 topSix

/-- The buffer's values are R96's, as numbers. -/
theorem toNat_sixBitBuffer (d : List Byte) (j : Nat) : ((sixBitBuffer d).getD j 0).toNat = sixBits d j := by
  unfold sixBits
  split
  · rw [sixBitBuffer_getD_aux d (by omega), auxValue_eq, toNat_append_fields, toNat_auxField d (by omega),
      toNat_auxField d (by omega), toNat_auxField d (by omega)]
  · split
    · rw [sixBitBuffer_getD_aux d (by omega), auxValue_eq, toNat_append_fields, toNat_auxField d (by omega),
        toNat_auxField d (by omega), auxField_of_ge d (by omega)]
      rfl
    · rw [show j = 86 + (j - 86) by omega, sixBitBuffer_getD_primary, toNat_topSix, byteAt, Nat.add_sub_cancel_left]

/-- R152 recombines what R96 split. -/
theorem recombine_sixBitBuffer (d : List Byte) {i : Nat} (hi : i < 256) :
    recombine (sixBitBuffer d) i = byteAt d i := by
  rw [recombine, sixBitBuffer_getD_primary, sixBitBuffer_getD_aux d (Nat.mod_lt _ (by decide)), extract_auxValue d i hi,
    auxField_of_lt d hi, swap2_swap2, topSix_append_lowTwo]

theorem map_recombine_sixBitBuffer {d : List Byte} (h : d.length = 256) :
    (List.range 256).map (recombine (sixBitBuffer d)) = d := by
  refine List.ext_getElem (by simp [h]) fun i _ hi => ?_
  rw [List.getElem_map, List.getElem_range, recombine_sixBitBuffer d (h ▸ hi), byteAt, List.getD_eq_getElem _ _ hi]

/-! ### The chain (R133, R134) -/

theorem t62_getElem?_toNat (x : SixBit) : t62[x.toNat]? = some (translate x) := by revert x; decide

theorem translate_ne_D5 (x : SixBit) : translate x ≠ 0xD5 := by revert x; decide

theorem translate_ne_AA (x : SixBit) : translate x ≠ 0xAA := by revert x; decide

/-- Every nibble of a chain is a translation, so what holds of all of `T62` holds of it. -/
theorem exists_translate_of_mem_chainFrom {prev : SixBit} {xs : List SixBit} {b : Nibble} (h : b ∈ chainFrom prev xs) :
    ∃ x, translate x = b := by
  induction xs generalizing prev with
  | nil => exact ⟨prev, (List.mem_singleton.mp h).symm⟩
  | cons x xs ih =>
    rcases List.mem_cons.mp h with rfl | h
    · exact ⟨_, rfl⟩
    · exact ih h

theorem exists_translate_of_mem_encodeData {d : List Byte} {b : Nibble} (h : b ∈ encodeData d) : ∃ x, translate x = b :=
  exists_translate_of_mem_chainFrom h

/-- Position `j` holds value `j` against the one before it; past the last value stands 0, so the end holds the last
value itself. -/
theorem chainFrom_getElem? (prev : SixBit) (xs : List SixBit) {j : Nat} (h : j ≤ xs.length) :
    (chainFrom prev xs)[j]? = some (translate (xs.getD j 0 ^^^ (prev :: xs).getD j 0)) := by
  induction xs generalizing prev j with
  | nil => obtain rfl : j = 0 := Nat.le_zero.mp h; simp [chainFrom]
  | cons x xs ih =>
    cases j with
    | zero => rfl
    | succ j => simpa [chainFrom] using ih x (Nat.le_of_succ_le_succ h)

/-- The value translated at `j` is R133's, as a number. -/
theorem toNat_chain_sixBitBuffer {d : List Byte} (hd : d.length = 256) {j : Nat} (hj : j < 343) :
    ((sixBitBuffer d).getD j 0 ^^^ (0 :: sixBitBuffer d).getD j 0).toNat = chained d j := by
  cases j with
  | zero => simp [chained, ← toNat_sixBitBuffer]
  | succ j =>
    rw [List.getD_cons_succ, chained, if_neg (Nat.succ_ne_zero j)]
    split
    · rw [BitVec.toNat_xor, toNat_sixBitBuffer, toNat_sixBitBuffer, Nat.add_sub_cancel]
    · obtain rfl : j = 341 := by omega
      rw [List.getD_eq_default (n := 341 + 1) _ _ (by simp [hd]), BitVec.toNat_xor, toNat_sixBitBuffer]
      exact Nat.zero_xor _

/-- In the XOR of a chain's values every value but the first `prev` occurs twice. -/
theorem foldl_xor_chainFrom (prev acc : SixBit) (xs : List SixBit) :
    (chainFrom prev xs).foldl (fun x b => x ^^^ (rev62 b).getD 0) acc = acc ^^^ prev := by
  induction xs generalizing prev acc with
  | nil => simp [chainFrom, rev62_translate]
  | cons x xs ih =>
    rw [chainFrom, List.foldl_cons, ih, rev62_translate, Option.getD_some, BitVec.xor_comm x prev, BitVec.xor_assoc,
      BitVec.xor_assoc, BitVec.xor_self, BitVec.xor_zero]

/-- R134. -/
theorem xorOfValues_encodeData (d : List Byte) : xorOfValues (encodeData d) = 0 := foldl_xor_chainFrom 0 0 _

/-- Settles O9: the chain position by position, and a translation at every position. -/
theorem dataEncodingIsTheChain : Obligations.DataEncodingIsTheChain := by
  intro d s hd
  refine ⟨encodeData d, exec_encode6and2 hd s, encodeData_length hd, fun j hj => ?_, fun b hb => ?_,
    xorOfValues_encodeData d⟩
  · have hj' : j ≤ (sixBitBuffer d).length := by rw [sixBitBuffer_length, hd]; omega
    rw [encodeData, chainFrom_getElem? 0 _ hj', ← toNat_chain_sixBitBuffer hd hj, t62_getElem?_toNat]
  · obtain ⟨x, rfl⟩ := exists_translate_of_mem_encodeData hb
    exact ⟨translate_mem_t62 x, isNibble_translate x, translate_ne_D5 x, translate_ne_AA x⟩

/-! ### Decoding the data (R152, R153) -/

/-- Undoing the chain on the values behind the nibbles. -/
theorem unchainFrom_chainFrom (prev : SixBit) (xs : List SixBit) :
    unchainFrom prev (((chainFrom prev xs).map fun b => (rev62 b).getD 0).take xs.length) = xs := by
  induction xs generalizing prev with
  | nil => rfl
  | cons x xs ih =>
    have head : x ^^^ prev ^^^ prev = x := by rw [BitVec.xor_assoc, BitVec.xor_self, BitVec.xor_zero]
    simp only [chainFrom, List.map_cons, List.length_cons, List.take_succ_cons, rev62_translate, Option.getD_some,
      unchainFrom, head, ih]

/-- The checksum is the last value. -/
theorem chainFrom_checksum (prev : SixBit) (xs : List SixBit) :
    ((chainFrom prev xs).map fun b => (rev62 b).getD 0).getD xs.length 0 = xs.getLastD prev := by
  induction xs generalizing prev with
  | nil => simp [chainFrom, rev62_translate]
  | cons x xs ih => rw [chainFrom, List.map_cons, List.length_cons, List.getD_cons_succ, ih, List.getLastD_cons]

/-- R153. -/
theorem decodeData_encodeData {d : List Byte} (h : d.length = 256) : decodeData (encodeData d) = .ok d := by
  have legal : (encodeData d).all (fun b => (rev62 b).isSome) = true := List.all_eq_true.mpr fun b hb => by
    obtain ⟨x, rfl⟩ := exists_translate_of_mem_encodeData hb
    rw [rev62_translate, Option.isSome_some]
  have len : Config.sixTwoOut - 1 = (sixBitBuffer d).length := by simp [h]
  rw [decodeData, if_pos legal]
  simp only [len, encodeData, unchainFrom_chainFrom, chainFrom_checksum, if_true, map_recombine_sixBitBuffer h]

/-! ### The sector (R136) -/

/-- What stands between the D5 of the address prologue and the D5 of the data prologue. -/
def betweenPrologues (v t x : Byte) : List Nibble := (addressField v t x).tail ++ List.replicate 6 0xFF

/-- What stands after the D5 of the data prologue. -/
def afterDataD5 (d : List Byte) : List Nibble := [0xAA, 0xAD] ++ encodeData d ++ [0xDE, 0xAA, 0xEB]

/-- R136, R92. -/
theorem sectorNibbles_eq (v t x : Byte) (d : List Byte) :
    sectorNibbles v t x d = List.replicate 20 0xFF ++ addressField v t x ++ List.replicate 6 0xFF ++
      [0xD5, 0xAA, 0xAD] ++ encodeData d ++ [0xDE, 0xAA, 0xEB] := rfl

/-- A sector cut at the D5 of its two prologues. -/
theorem sectorNibbles_eq_cut_at_D5 (v t x : Byte) (d : List Byte) :
    sectorNibbles v t x d =
      List.replicate 20 0xFF ++ 0xD5 :: (betweenPrologues v t x ++ 0xD5 :: afterDataD5 d) := by
  simp only [sectorNibbles_eq, betweenPrologues, afterDataD5, addressField_eq, List.append_assoc, List.cons_append,
    List.nil_append, List.tail_cons]

theorem D5_notMem_betweenPrologues (v t x : Byte) : 0xD5 ∉ betweenPrologues v t x := by
  have odd (u : Byte) : 0xD5#8 ≠ (encodePair u).1 := (encodePair_fst_ne_D5 u).symm
  have even (u : Byte) : 0xD5#8 ≠ (encodePair u).2 := (encodePair_snd_ne_D5 u).symm
  simp [betweenPrologues, addressField_eq, odd, even]

theorem D5_notMem_encodeData (d : List Byte) : 0xD5 ∉ encodeData d := fun h => by
  obtain ⟨x, hx⟩ := exists_translate_of_mem_encodeData h
  exact translate_ne_D5 x hx

theorem D5_notMem_afterDataD5 (d : List Byte) : 0xD5 ∉ afterDataD5 d := by
  have body : 0xD5#8 ∉ encodeData d := D5_notMem_encodeData d
  simp [afterDataD5, body]

/-- Where `x` stands in a list cut at its first `x`. -/
theorem getElem?_append_cons_eq_some_iff {α : Type} {x : α} {front : List α} (h : x ∉ front) (back : List α) (i : Nat) :
    (front ++ x :: back)[i]? = some x ↔
      i = front.length ∨ ∃ k, i = front.length + 1 + k ∧ back[k]? = some x := by
  rcases Nat.lt_trichotomy i front.length with hlt | rfl | hgt
  · have hne : front[i]? ≠ some x := fun e => h (List.mem_of_getElem? e)
    rw [List.getElem?_append_left hlt]
    exact iff_of_false hne (by rintro (e | ⟨k, e, -⟩) <;> omega)
  · simp
  · obtain ⟨k, rfl⟩ := Nat.exists_eq_add_of_le (show front.length + 1 ≤ i from hgt)
    rw [List.getElem?_append_right (by omega), show front.length + 1 + k - front.length = k + 1 by omega,
      List.getElem?_cons_succ]
    exact ⟨fun e => .inr ⟨k, rfl, e⟩, by
      rintro (e | ⟨k', e, hk⟩)
      · omega
      · rwa [show k = k' by omega]⟩

/-- D5 opens the two prologues of a sector and stands nowhere else (R136). -/
theorem sectorNibbles_getElem?_eq_D5_iff (v t x : Byte) (d : List Byte) (i : Nat) :
    (sectorNibbles v t x d)[i]? = some 0xD5 ↔ i = 20 ∨ i = 40 := by
  have gap : (0xD5 : Nibble) ∉ List.replicate 20 0xFF := by simp
  have after (k : Nat) : (afterDataD5 d)[k]? ≠ some 0xD5 := fun e => D5_notMem_afterDataD5 d (List.mem_of_getElem? e)
  have len : (betweenPrologues v t x).length = 19 := rfl
  rw [sectorNibbles_eq_cut_at_D5, getElem?_append_cons_eq_some_iff gap]
  simp only [getElem?_append_cons_eq_some_iff (D5_notMem_betweenPrologues v t x), after, len, List.length_replicate,
    and_false, exists_false, or_false, exists_eq_right]

/-- Settles O14: the layout by definition, and the two D5 by `sectorNibbles_getElem?_eq_D5_iff`. -/
theorem sectorLayout : Obligations.SectorLayout := fun v t x d s hd =>
  ⟨_, _, _, exec_buildAddressField v t x s, exec_encode6and2 hd s, exec_buildSector v t x hd s,
    sectorNibbles_eq v t x d, sectorNibbles_length v t x hd, sectorNibbles_getElem?_eq_D5_iff v t x d⟩

/-! ### Reading a part of a longer buffer -/

/-- Inside one turn a circular list holds what the part standing there holds. -/
theorem circAt_append {pre mid post : List Byte} {k : Nat} (hk : k < mid.length) :
    circAt (pre ++ mid ++ post) (pre.length + k) = mid.getD k 0 := by
  have inside : pre.length + k < (pre ++ mid ++ post).length := by simp only [List.length_append]; omega
  rw [circAt, Nat.mod_eq_of_lt inside, List.getD_append _ _ _ _ (by simp only [List.length_append]; omega),
    List.getD_append_right _ _ _ _ (Nat.le_add_right ..), Nat.add_sub_cancel_left]

theorem circSlice_append (pre mid post : List Byte) :
    circSlice (pre ++ mid ++ post) pre.length mid.length = mid := by
  refine List.ext_getElem (circSlice_length ..) fun k _ hk => ?_
  simp only [circSlice, List.getElem_map, List.getElem_range]
  rw [circAt_append hk, List.getD_eq_getElem _ _ hk]

/-- R137: the address decoder at an address field, wherever that stands. -/
theorem decodeAddress_addressField (pre post : List Byte) (v t x : Byte) :
    decodeAddress (pre ++ addressField v t x ++ post) pre.length = .ok (v, t, x) := by
  have nibble {k : Nat} (hk : k < 14) :
      circAt (pre ++ addressField v t x ++ post) (pre.length + k) = (addressField v t x).getD k 0 := circAt_append hk
  have pair (u : Byte) {k : Nat} (hk : k + 1 < 14) (h1 : (addressField v t x).getD k 0 = (encodePair u).1)
      (h2 : (addressField v t x).getD (k + 1) 0 = (encodePair u).2) :
      decodePair (circAt (pre ++ addressField v t x ++ post) (pre.length + k))
        (circAt (pre ++ addressField v t x ++ post) (pre.length + (k + 1))) = u := by
    rw [nibble (by omega), nibble hk, h1, h2, decodePair_encodePair]
  simp only [decodeAddress]
  rw [pair v (k := 3) (by decide) rfl rfl, pair t (k := 5) (by decide) rfl rfl, pair x (k := 7) (by decide) rfl rfl,
    pair (v ^^^ t ^^^ x) (k := 9) (by decide) rfl rfl, if_pos rfl]

/-- Without its D5 no prologue starts. -/
theorem prologueAt_of_ne_D5 {buf : List Byte} {i : Nat} (h : circAt buf i ≠ 0xD5) (m : Nibble) :
    prologueAt buf i m = false := by
  rw [prologueAt, beq_false_of_ne h, Bool.false_and, Bool.false_and]

/-- The search of R155 passes whatever does not begin with D5 and stops at the data prologue behind it. -/
theorem findDataFrom_of_first {buf : List Byte} {turns j : Nat} (n : Nat) (hn : n < turns)
    (passed : ∀ m, m < n → circAt buf (j + m) ≠ 0xD5) (found : prologueAt buf (j + n) dataMark = true) :
    findDataFrom buf turns j = .ok (j + n) := by
  induction turns generalizing j n with
  | zero => omega
  | succ turns ih =>
    rw [findDataFrom]
    cases n with
    | zero =>
      have other : prologueAt buf j addressMark = false := by
        simp only [Nat.add_zero, prologueAt, Bool.and_eq_true, beq_iff_eq] at found
        simp only [prologueAt, found, addressMark, dataMark]
        decide
      rw [other, Nat.add_zero] at *
      simp [found]
    | succ n =>
      have here (m : Nibble) : prologueAt buf j m = false := prologueAt_of_ne_D5 (passed 0 (Nat.succ_pos n)) m
      have shift (m : Nat) : j + 1 + m = j + (m + 1) := by omega
      simp only [here, Bool.false_eq_true, if_false]
      rw [ih n (by omega) (fun m hm => shift m ▸ passed (m + 1) (by omega)) (shift n ▸ found), shift]

section
variable (v t x : Byte) (d pre post : List Byte)

theorem decodeAddress_sectorNibbles :
    decodeAddress (pre ++ sectorNibbles v t x d ++ post) (pre.length + 20) = .ok (v, t, x) := by
  have h := decodeAddress_addressField (pre ++ List.replicate 20 0xFF)
    (List.replicate 6 0xFF ++ [0xD5, 0xAA, 0xAD] ++ encodeData d ++ [0xDE, 0xAA, 0xEB] ++ post) v t x
  simpa [sectorNibbles_eq] using h

theorem findData_sectorNibbles (hd : d.length = 256) :
    findData (pre ++ sectorNibbles v t x d ++ post) (pre.length + 31) = .ok (pre.length + 40) := by
  have len := sectorNibbles_length v t x hd
  have nibble {k : Nat} (hk : k < 389) :
      circAt (pre ++ sectorNibbles v t x d ++ post) (pre.length + k) = (sectorNibbles v t x d).getD k 0 :=
    circAt_append (len ▸ hk)
  refine findDataFrom_of_first 9 ?_ (fun m hm e => ?_) ?_
  · simp only [List.length_append, len]; omega
  · have hk : 31 + m < (sectorNibbles v t x d).length := by omega
    rw [Nat.add_assoc, nibble (by omega), List.getD_eq_getElem _ _ hk] at e
    have := (sectorNibbles_getElem?_eq_D5_iff v t x d (31 + m)).mp (List.getElem?_eq_some_iff.mpr ⟨hk, e⟩)
    omega
  · simp only [prologueAt, Nat.add_assoc, nibble (k := 31 + 9) (by decide), nibble (k := 31 + (9 + 1)) (by decide),
      nibble (k := 31 + (9 + 2)) (by decide)]
    rfl

theorem circSlice_sectorNibbles (hd : d.length = 256) :
    circSlice (pre ++ sectorNibbles v t x d ++ post) (pre.length + 43) 343 = encodeData d := by
  have h := circSlice_append (pre ++ (List.replicate 20 0xFF ++ addressField v t x ++ List.replicate 6 0xFF ++
    [0xD5, 0xAA, 0xAD])) (encodeData d) ([0xDE, 0xAA, 0xEB] ++ post)
  simpa [sectorNibbles_eq, encodeData_length hd] using h

/-- A sector decodes to what it was built from (R156 on R136). -/
theorem decodeSector_sectorNibbles (hd : d.length = 256) :
    decodeSector (pre ++ sectorNibbles v t x d ++ post) (pre.length + 20) = .ok (v, t, x, d) := by
  simp only [decodeSector, decodeAddress_sectorNibbles, Nat.add_assoc, findData_sectorNibbles v t x d pre post hd,
    circSlice_sectorNibbles v t x d pre post hd, decodeData_encodeData hd]

end

/-- Settles O17: the two decoders at a sector that stands in a longer buffer. -/
theorem builtSectorDecodesInPlace : Obligations.BuiltSectorDecodesInPlace := by
  intro v t x d pre post s hd
  have nonempty : 0 < (pre ++ sectorNibbles v t x d ++ post).length := by
    simp only [List.length_append, sectorNibbles_length v t x hd]; omega
  exact ⟨_, exec_buildSector v t x hd s,
    exec_decodeAddressField_ok nonempty (decodeAddress_sectorNibbles v t x d pre post) s,
    exec_decodeSectorAt_ok nonempty (decodeSector_sectorNibbles v t x d pre post hd) s⟩

end Sys2Proof.Machine
end

section
/-! PROOFS. The GCR decoder (`41_gcr_decoder.md`): the pair formula, the two checks of a data field and what it
recombines, the search, and the order in which a sector's decoders fail. -/

namespace Sys2Proof.Machine

open Sys2Proof.Claims

/-! ### The meanings on arguments of their types -/

theorem State.next_answered_inj {s : State} {r r' : Result} :
    (.next (s.answered r) : Outcome) = .next (s.answered r') ↔ r = r' :=
  ⟨fun h => congrArg State.result (Host.Outcome.next.inj h), fun h => h ▸ rfl⟩

/-- An answer that is no failure was made from the value found. -/
theorem answerOrFail_eq_ok_iff {α : Type} {ok : α → Result} (inj : Function.Injective ok)
    (found : ∀ a code, ok a ≠ .failed code) {r : Except FailureCode α} {s : State} {a : α} :
    answerOrFail ok r s = .next (s.answered (ok a)) ↔ r = .ok a := by
  cases r with
  | ok b => rw [answerOrFail_ok, State.next_answered_inj, inj.eq_iff, Except.ok.injEq]
  | error code =>
    rw [answerOrFail_error, State.next_answered_inj]
    exact iff_of_false (found a code).symm nofun

/-- A failure answered is the failure there was. -/
theorem answerOrFail_eq_failed_iff {α : Type} {ok : α → Result} (found : ∀ a code, ok a ≠ .failed code)
    {r : Except FailureCode α} {s : State} {code : FailureCode} :
    answerOrFail ok r s = .next (s.answered (.failed code)) ↔ r = .error code := by
  cases r with
  | ok a =>
    rw [answerOrFail_ok, State.next_answered_inj]
    exact iff_of_false (found a code) nofun
  | error code' => rw [answerOrFail_error, State.next_answered_inj, Result.failed.injEq, Except.error.injEq]

theorem exec_decode4and4 (o e : Byte) (s : State) :
    exec (.decode4and4 o e) s = .next (s.answered (.byte (decodePair o e))) := rfl

theorem exec_decode6and2 {n : List Byte} (h : n.length = 343) (s : State) :
    exec (.decode6and2 n) s = answerOrFail .bytes (decodeData n) s := if_pos h

theorem exec_decode6and2_bytes_iff {n : List Byte} (h : n.length = 343) {s : State} {d : List Byte} :
    exec (.decode6and2 n) s = .next (s.answered (.bytes d)) ↔ decodeData n = .ok d := by
  rw [exec_decode6and2 h]
  exact answerOrFail_eq_ok_iff (fun _ _ => Result.bytes.inj) nofun

theorem exec_decode6and2_failed_iff {n : List Byte} (h : n.length = 343) {s : State} {code : FailureCode} :
    exec (.decode6and2 n) s = .next (s.answered (.failed code)) ↔ decodeData n = .error code := by
  rw [exec_decode6and2 h]
  exact answerOrFail_eq_failed_iff nofun

section
variable {buf : List Byte} (h : buf ≠ []) {i : Nat} {s : State}
include h

theorem exec_decodeAddressField :
    exec (.decodeAddressField buf i) s =
      answerOrFail (fun r => .addressField r.1 r.2.1 r.2.2) (decodeAddress buf i) s :=
  if_pos (List.length_pos_of_ne_nil h)

theorem exec_decodeAddressField_iff {v t x : Byte} :
    exec (.decodeAddressField buf i) s = .next (s.answered (.addressField v t x)) ↔
      decodeAddress buf i = .ok (v, t, x) := by
  have inj : Function.Injective fun r : Byte × Byte × Byte => Result.addressField r.1 r.2.1 r.2.2 :=
    fun _ _ e => by obtain ⟨e1, e2, e3⟩ := Result.addressField.inj e; exact Prod.ext e1 (Prod.ext e2 e3)
  rw [exec_decodeAddressField h]
  exact answerOrFail_eq_ok_iff inj nofun (a := (v, t, x))

theorem exec_decodeAddressField_failed_iff {code : FailureCode} :
    exec (.decodeAddressField buf i) s = .next (s.answered (.failed code)) ↔ decodeAddress buf i = .error code := by
  rw [exec_decodeAddressField h]
  exact answerOrFail_eq_failed_iff nofun

theorem exec_findDataField : exec (.findDataField buf i) s = answerOrFail .count (findData buf i) s :=
  if_pos (List.length_pos_of_ne_nil h)

theorem exec_findDataField_count_iff {j : Nat} :
    exec (.findDataField buf i) s = .next (s.answered (.count j)) ↔ findData buf i = .ok j := by
  rw [exec_findDataField h]
  exact answerOrFail_eq_ok_iff (fun _ _ => Result.count.inj) nofun

theorem exec_findDataField_failed_iff {code : FailureCode} :
    exec (.findDataField buf i) s = .next (s.answered (.failed code)) ↔ findData buf i = .error code := by
  rw [exec_findDataField h]
  exact answerOrFail_eq_failed_iff nofun

theorem exec_decodeSectorAt_failed {code : FailureCode} (hs : decodeSector buf i = .error code) :
    exec (.decodeSectorAt buf i) s = .next (s.answered (.failed code)) :=
  (if_pos (List.length_pos_of_ne_nil h)).trans (by rw [hs, answerOrFail_error])

end

/-! ### Pairs and the address field (R150, R151, R154) -/

/-- R150. -/
theorem toNat_decodePair (o e : Byte) : (decodePair o e).toNat = pairValue o e := by
  have even : e.toNat % 2 ^ 8 = e.toNat := Nat.mod_eq_of_lt e.isLt
  rw [pairValue, show 256 = 2 ^ 8 from rfl, Nat.and_mod_two_pow, Nat.or_mod_two_pow, even]
  simp [decodePair, Nat.shiftLeft_eq, Nat.mul_comm]

/-- Settles O8, by R150's formula and R151. -/
theorem pairDecodingInvertsEncoding : Obligations.PairDecodingInvertsEncoding := by
  refine fun s => ⟨fun o e => ?_, fun v => ⟨_, _, exec_encode4and4 v s, ?_⟩⟩
  · rw [exec_decode4and4, ← toNat_decodePair, BitVec.ofNat_toNat, BitVec.setWidth_eq]
  · rw [exec_decode4and4, decodePair_encodePair]

/-- Settles O15: the four pairs, and the two answers of the check. -/
theorem addressDecodingChecksTheSum : Obligations.AddressDecodingChecksTheSum := by
  intro buf i s hbuf
  refine ⟨_, _, _, _, toNat_decodePair _ _, toNat_decodePair _ _, toNat_decodePair _ _, toNat_decodePair _ _, ?_⟩
  split
  case isTrue sum => exact (exec_decodeAddressField_iff hbuf).mpr (if_pos sum)
  case isFalse sum => exact (exec_decodeAddressField_failed_iff hbuf).mpr (if_neg sum)

/-! ### The XOR of a list of nibbles -/

/-- The six-bit value behind a nibble (R97), 0 behind an illegal one. -/
def valueOf (b : Byte) : SixBit := (rev62 b).getD 0

theorem isSome_rev62_iff {b : Byte} : (rev62 b).isSome = true ↔ b ∈ t62 := by
  simp [rev62]

theorem translate_valueOf {b : Byte} (h : b ∈ t62) : translate (valueOf b) = b := by
  have all : ∀ b ∈ t62, translate (valueOf b) = b := by decide
  exact all b h

/-- Two legal nibbles stand for two values. -/
theorem valueOf_injOn {b c : Byte} (hb : b ∈ t62) (hc : c ∈ t62) (h : valueOf b = valueOf c) : b = c := by
  rw [← translate_valueOf hb, h, translate_valueOf hc]

theorem xorOfValues_eq (n : List Byte) : xorOfValues n = (n.map valueOf).foldl (· ^^^ ·) 0 := List.foldl_map.symm

theorem foldl_xor (x : SixBit) (xs : List SixBit) : xs.foldl (· ^^^ ·) x = x ^^^ xs.foldl (· ^^^ ·) 0 := by
  have : Std.Associative (α := SixBit) (· ^^^ ·) := ⟨BitVec.xor_assoc⟩
  rw [← List.foldl_assoc (op := (· ^^^ ·)), BitVec.ofNat_eq_ofNat, BitVec.xor_zero]

theorem xorOfValues_cons (b : Byte) (n : List Byte) : xorOfValues (b :: n) = valueOf b ^^^ xorOfValues n := by
  rw [xorOfValues_eq, List.map_cons, List.foldl_cons, foldl_xor, BitVec.ofNat_eq_ofNat, BitVec.zero_xor, xorOfValues_eq,
    BitVec.ofNat_eq_ofNat]

theorem xorOfValues_append (m n : List Byte) : xorOfValues (m ++ n) = xorOfValues m ^^^ xorOfValues n := by
  rw [xorOfValues_eq, List.map_append, List.foldl_append, foldl_xor, xorOfValues_eq, xorOfValues_eq]

/-- Replacing one nibble puts its value for the old one. -/
theorem xorOfValues_set {n : List Byte} {j : Nat} (h : j < n.length) (b : Byte) :
    xorOfValues (n.set j b) ^^^ valueOf n[j] = xorOfValues n ^^^ valueOf b := by
  have cut : n = n.take j ++ n[j] :: n.drop (j + 1) := by rw [List.getElem_cons_drop, List.take_append_drop]
  have exchange (p q x y : SixBit) : p ^^^ (y ^^^ q) ^^^ x = p ^^^ (x ^^^ q) ^^^ y := by ac_rfl
  rw [List.set_eq_take_append_cons_drop, if_pos h, congrArg xorOfValues cut]
  simp only [xorOfValues_append, xorOfValues_cons]
  exact exchange ..

/-! ### Checking and recombining a data field (R152, R153) -/

/-- Unchaining accumulates. -/
theorem unchainFrom_getD (prev : SixBit) {xs : List SixBit} {j : Nat} (h : j < xs.length) :
    (unchainFrom prev xs).getD j 0 = (xs.take (j + 1)).foldl (· ^^^ ·) prev := by
  induction xs generalizing prev j with
  | nil => exact absurd h (Nat.not_lt_zero j)
  | cons x xs ih =>
    cases j with
    | zero => simp [unchainFrom, BitVec.xor_comm]
    | succ j =>
      rw [unchainFrom, List.getD_cons_succ, ih _ (Nat.lt_of_succ_lt_succ h), List.take_succ_cons, List.foldl_cons,
        BitVec.xor_comm]

/-- The 342 six-bit values of R152. -/
def dataValues (n : List Byte) : List SixBit := unchainFrom 0 ((n.map valueOf).take 342)

theorem dataValues_getD {n : List Byte} (hn : n.length = 343) {j : Nat} (hj : j < 342) :
    (dataValues n).getD j 0 = xorOfValues (n.take (j + 1)) := by
  rw [dataValues, unchainFrom_getD 0 (by simp [hn, hj]), List.take_take, Nat.min_eq_left hj, xorOfValues_eq,
    List.map_take]

theorem dataValues_getLastD {n : List Byte} (hn : n.length = 343) :
    (dataValues n).getLastD 0 = xorOfValues (n.take 342) := by
  have len : (dataValues n).length = 342 := by simp [dataValues, hn]
  rw [← dataValues_getD hn (by decide : 341 < 342), List.getLastD_eq_getLast?, List.getLast?_eq_getElem?, len,
    List.getD_eq_getElem?_getD]

/-- The checksum agrees with the chain's end exactly when all 343 values XOR to 0. -/
theorem checksum_eq_last_iff {n : List Byte} (hn : n.length = 343) :
    (n.map valueOf).getD 342 0 = (dataValues n).getLastD 0 ↔ xorOfValues n = 0 := by
  have h342 : 342 < n.length := by omega
  have cut : n = n.take 342 ++ [n[342]] := by
    rw [← List.take_succ_eq_append_getElem h342, List.take_of_length_le (by omega)]
  have checksum : (n.map valueOf).getD 342 0 = valueOf n[342] := by simp [h342]
  have whole : xorOfValues n = xorOfValues (n.take 342) ^^^ valueOf n[342] := by
    rw [congrArg xorOfValues cut, xorOfValues_append, xorOfValues_cons]
    exact congrArg _ BitVec.xor_zero
  rw [checksum, dataValues_getLastD hn, whole, BitVec.ofNat_eq_ofNat, BitVec.xor_eq_zero_iff, eq_comm]

theorem decodeData_of_illegal {n : List Byte} {b : Byte} (hb : b ∈ n) (illegal : b ∉ t62) :
    decodeData n = .error .invalidNibble :=
  if_neg fun all => illegal (isSome_rev62_iff.mp (List.all_eq_true.mp all b hb))

/-- R152 on legal nibbles. -/
theorem decodeData_of_legal {n : List Byte} (hn : n.length = 343) (legal : ∀ b ∈ n, b ∈ t62) :
    decodeData n =
      if xorOfValues n = 0 then .ok ((List.range 256).map (recombine (dataValues n))) else .error .checksumMismatch := by
  have all : n.all (fun b => (rev62 b).isSome) = true :=
    List.all_eq_true.mpr fun b hb => isSome_rev62_iff.mpr (legal b hb)
  simp only [← checksum_eq_last_iff hn]
  exact if_pos all

/-- What decodes is legal and XORs to 0. -/
theorem legal_and_xor_of_decodeData {n d : List Byte} (hn : n.length = 343) (h : decodeData n = .ok d) :
    (∀ b ∈ n, b ∈ t62) ∧ xorOfValues n = 0 := by
  have legal : ∀ b ∈ n, b ∈ t62 := fun b hb => by_contra fun illegal => by
    rw [decodeData_of_illegal hb illegal] at h
    exact nomatch h
  refine ⟨legal, by_contra fun odd => ?_⟩
  rw [decodeData_of_legal hn legal, if_neg odd] at h
  exact nomatch h

/-- Byte `i` of R152, as a number. -/
theorem toNat_recombine (buf : List SixBit) (i : Nat) :
    (recombine buf i).toNat =
      4 * (buf.getD (86 + i) 0).toNat + swapped ((buf.getD (i % 86) 0).toNat / 4 ^ (i / 86) % 4) := by
  have low : 4 ^ (i / 86) = 2 ^ (2 * (i / 86)) := by rw [Nat.pow_mul]
  rw [recombine, BitVec.toNat_append, ← Nat.shiftLeft_add_eq_or_of_lt (BitVec.isLt _), toNat_swap2,
    BitVec.extractLsb'_toNat, Nat.shiftRight_eq_div_pow, Nat.shiftLeft_eq, Nat.mul_comm, low]

/-- Settles O10: the chain undone on the chain made, by `decodeData_encodeData`. -/
theorem dataDecodingInvertsEncoding : Obligations.DataDecodingInvertsEncoding := fun _ s hd =>
  ⟨_, exec_encode6and2 hd s, (exec_decode6and2_bytes_iff (encodeData_length hd)).mpr (decodeData_encodeData hd)⟩

/-- Settles O11: an illegal nibble, a sum that is not 0, and the bytes recombined from the accumulated values. -/
theorem dataDecodingChecksAndRecombines : Obligations.DataDecodingChecksAndRecombines := by
  intro n s hn
  refine ⟨fun ⟨b, hb, illegal⟩ => ?_, fun legal odd => ?_, fun legal even => ?_⟩
  · exact (exec_decode6and2_failed_iff hn).mpr (decodeData_of_illegal hb illegal)
  · exact (exec_decode6and2_failed_iff hn).mpr ((decodeData_of_legal hn legal).trans (if_neg odd))
  · refine ⟨_, (exec_decode6and2_bytes_iff hn).mpr ((decodeData_of_legal hn legal).trans (if_pos even)), by simp,
      fun i hi => ?_⟩
    have byte : ((List.range 256).map (recombine (dataValues n))).getD i 0 = recombine (dataValues n) i := by simp [hi]
    rw [byte, toNat_recombine, dataValues_getD hn (by omega), dataValues_getD hn (by omega), unchained, unchained]

/-- Settles O12: the sum of the 343 values was 0 and changes by the XOR of two values that differ. -/
theorem singleSubstitutionIsDetected : Obligations.SingleSubstitutionIsDetected := by
  intro n d s j b hn hd hj hb hne
  obtain ⟨legal, even⟩ := legal_and_xor_of_decodeData hn ((exec_decode6and2_bytes_iff hn).mp hd)
  have hj' : j < n.length := by omega
  have hn' : (n.set j b).length = 343 := by rw [List.length_set, hn]
  have legal' : ∀ c ∈ n.set j b, c ∈ t62 := fun c hc => (List.mem_or_eq_of_mem_set hc).elim (legal c) (· ▸ hb)
  have odd : xorOfValues (n.set j b) ≠ 0 := fun sum => by
    have value : valueOf n[j] = valueOf b := by
      have exchanged := xorOfValues_set hj' b
      rwa [sum, even, BitVec.xor_right_inj] at exchanged
    have same : n[j] = b := valueOf_injOn (legal _ (List.getElem_mem hj')) hb value
    exact hne (List.getElem?_eq_some_iff.mpr ⟨hj', same⟩)
  exact (exec_decode6and2_failed_iff hn').mpr ((decodeData_of_legal hn' legal').trans (if_neg odd))

/-! ### The search (R155) -/

theorem prologueAt_iff {buf : List Byte} {i : Nat} {m : Byte} : prologueAt buf i m = true ↔ Prologue buf i m := by
  simp only [prologueAt, Prologue, Bool.and_eq_true, beq_iff_eq, and_assoc]
  rfl

/-- The third nibble tells the prologues apart. -/
theorem prologueAt_addressMark_of_dataMark {buf : List Byte} {i : Nat} (h : prologueAt buf i dataMark = true) :
    prologueAt buf i addressMark = false := by
  obtain ⟨-, -, third⟩ := prologueAt_iff.mp h
  refine Bool.eq_false_iff.mpr fun h' => ?_
  obtain ⟨-, -, third'⟩ := prologueAt_iff.mp h'
  exact absurd (third.symm.trans third') (by decide)

/-- The converse of `findDataFrom_ok`. -/
theorem findDataFrom_eq_ok {buf : List Byte} {turns j k : Nat} (low : j ≤ k) (high : k < j + turns)
    (found : prologueAt buf k dataMark = true)
    (first : ∀ m, j ≤ m → m < k → prologueAt buf m dataMark = false ∧ prologueAt buf m addressMark = false) :
    findDataFrom buf turns j = .ok k := by
  induction turns generalizing j with
  | zero => omega
  | succ turns ih =>
    rcases Nat.eq_or_lt_of_le low with rfl | lt
    · simp [findDataFrom, found, prologueAt_addressMark_of_dataMark found]
    · obtain ⟨noData, noAddress⟩ := first j (Nat.le_refl j) lt
      rw [findDataFrom, noData, noAddress]
      exact ih lt (by omega) fun m hm => first m (by omega)

theorem findDataFrom_error {buf : List Byte} {turns j : Nat} {code : FailureCode}
    (h : findDataFrom buf turns j = .error code) : code = .noDataField := by
  induction turns generalizing j with
  | zero => exact (Except.error.inj h).symm
  | succ turns ih =>
    rw [findDataFrom] at h
    split at h
    · exact (Except.error.inj h).symm
    · split at h
      · exact nomatch h
      · exact ih h

/-- Settles O16: what meets R155 is found, and what is found meets it. -/
theorem dataFieldSearch : Obligations.DataFieldSearch := by
  intro buf j0 s hbuf
  refine ⟨fun j low high found first => ?_, fun blocked => ?_⟩
  · refine (exec_findDataField_count_iff hbuf).mpr
      (findDataFrom_eq_ok low high (prologueAt_iff.mpr found) fun m hm hmj => ?_)
    obtain ⟨noData, noAddress⟩ := first m hm hmj
    exact ⟨Bool.eq_false_iff.mpr (mt prologueAt_iff.mp noData), Bool.eq_false_iff.mpr (mt prologueAt_iff.mp noAddress)⟩
  · refine (exec_findDataField_failed_iff hbuf).mpr ?_
    cases h : findData buf j0 with
    | error code => rw [findDataFrom_error h]
    | ok k =>
      obtain ⟨low, high, found, first⟩ := findDataFrom_ok h
      obtain ⟨m, hm, hmk, address⟩ := blocked k low high (prologueAt_iff.mp found)
      exact absurd (prologueAt_iff.mpr address) (Bool.eq_false_iff.mp (first m hm hmk).1)

/-! ### The sector (R156) -/

/-- Settles O18, step by step of `decodeSector`. -/
theorem sectorDecodingReportsTheFirstFailure : Obligations.SectorDecodingReportsTheFirstFailure := by
  intro buf i s hbuf
  have field (j : Nat) : ((List.range 343).map fun m => g buf (j + 3 + m)) = circSlice buf (j + 3) 343 := rfl
  simp only [exec_decodeAddressField_failed_iff hbuf, exec_decodeAddressField_iff hbuf,
    exec_findDataField_failed_iff hbuf, exec_findDataField_count_iff hbuf, field,
    exec_decode6and2_bytes_iff (circSlice_length ..), exec_decode6and2_failed_iff (circSlice_length ..)]
  refine ⟨fun address => ?_, fun v t x address =>
    ⟨fun search => ?_, fun j search => ⟨fun d data => ?_, fun e data => ?_⟩⟩⟩
  · exact exec_decodeSectorAt_failed hbuf (by simp only [decodeSector, address])
  · exact exec_decodeSectorAt_failed hbuf (by simp only [decodeSector, address, search])
  · exact exec_decodeSectorAt_ok (r := (v, t, x, d)) (List.length_pos_of_ne_nil hbuf)
      (by simp only [decodeSector, address, search, data]) s
  · exact exec_decodeSectorAt_failed hbuf (by simp only [decodeSector, address, search, data])

end Sys2Proof.Machine
end

section
/-! PROOFS. The synthesized track (`42_dsk_track_synth.md`) is sixteen built slots: where its prologues stand, what
decodes at them, and that another data body makes it the track of other data. -/

namespace Sys2Proof.Machine

open Sys2Proof.Claims

/-! ### The meanings on a drive with a sector image -/

section
variable {k : DriveId} {t : Nat} {s : State} {img : Dsk} (hi : (s.drive k).image = some (.dsk img))
include hi

theorem exec_nibblizeTrack (ht : t < 35) :
    exec (.nibblizeTrack k t) s = .next (s.answered (.bytes (nibblize img t))) :=
  (if_pos ht).trans (by rw [sectorImage?_eq_some.mpr hi]; rfl)

theorem exec_materializeTrack (ht : t < 35) : exec (.materializeTrack k t) s =
    .next ((withImage s k (materialize img t)).answered (.bytes (trackBuffer img t))) :=
  (if_pos ht).trans (by rw [sectorImage?_eq_some.mpr hi]; rfl)

theorem exec_denibblizeTrack (ht : t < 35) :
    exec (.denibblizeTrack k t) s = .next ((withImage s k (denibblize img t)).answered .nothing) :=
  (if_pos ht).trans (by rw [sectorImage?_eq_some.mpr hi]; rfl)

theorem exec_flush_dsk : exec (.flush k) s = .next ((withImage s k (flushDsk img)).answered .nothing) := by
  have flushed : flushSlot (s.drive k) = { s.drive k with image := some (.dsk (flushDsk img)) } := by
    rw [flushSlot, hi]; rfl
  exact congrArg (fun d => answer .nothing (s.setDrive k d)) flushed

end

theorem exec_flush_of_no_sectorImage {k : DriveId} {s : State} (h : ∀ img, (s.drive k).image ≠ some (.dsk img)) :
    exec (.flush k) s = .next (s.answered .nothing) := by
  have kept : (s.drive k).image.map flushImage = (s.drive k).image := by
    cases hi : (s.drive k).image with
    | none => rfl
    | some image =>
      cases image with
      | dsk img => exact absurd hi (h img)
      | woz img => rfl
  have unflushed : flushSlot (s.drive k) = s.drive k := by rw [flushSlot, kept]
  refine (congrArg (fun d => answer .nothing (s.setDrive k d)) unflushed).trans ?_
  rw [State.setDrive_drive, answer_eq]

theorem withImage_answered_inj {s : State} {k : DriveId} {img img' : Dsk} {r : Result}
    (h : (.next ((withImage s k img).answered r) : Outcome) = .next ((withImage s k img').answered r)) :
    img = img' := by
  have images := congrArg (fun t => (t.drive k).image) (Host.Outcome.next.inj h)
  simpa [withImage] using images

/-- The buffer a nibblize answers is the synthesized track (R173). -/
theorem eq_nibblize_of_exec {k : DriveId} {t : Nat} {s : State} {img : Dsk} {buf : List Byte} (ht : t < 35)
    (hi : (s.drive k).image = some (.dsk img)) (h : exec (.nibblizeTrack k t) s = .next (s.answered (.bytes buf))) :
    buf = nibblize img t := by
  rw [exec_nibblizeTrack hi ht, State.next_answered_inj] at h
  exact (Result.bytes.inj h).symm

/-! ### Loading (R170) -/

theorem exec_loadDsk (file : List Byte) (order : SectorOrder) (s : State) : exec (.loadDsk file order) s =
    answerOrFail (fun img => .image (.dsk img)) (loadSectorImage file order) s := rfl

/-- Settles O19: `loadSectorImage` on either side of the length test. -/
theorem loadDskTakesTheBytes : Obligations.LoadDskTakesTheBytes := by
  intro file order s
  refine ⟨fun hlen => ?_, fun hlen => ?_⟩
  · have fails : loadSectorImage file order = .error .loadErrorBadSize := if_neg hlen
    rw [exec_loadDsk, fails, answerOrFail_error]
  · have loads : loadSectorImage file order = .ok _ := if_pos hlen
    obtain ⟨ok, clean⟩ := loadSectorImage_ok loads
    refine ⟨_, by rw [exec_loadDsk, loads, answerOrFail_ok], rfl, fun a _ => ?_, fun t => ⟨?_, clean t⟩, rfl, ok⟩
    · have read := Memory.read_ofBytes 0 file a
      rwa [Nat.zero_add] at read
    · simp only [Dsk.cacheAt, Vector.getElem?_replicate]
      split <;> rfl

/-! ### Sixteen slots (R99, R172, R173) -/

/-- A slot of a track: the sector built of the data `d`, and `GAP3`. -/
def builtSlot (v : Byte) (t p : Nat) (d : List Byte) : List Nibble :=
  sectorNibbles v (BitVec.ofNat 8 t) (BitVec.ofNat 8 p) d ++ List.replicate 27 0xFF

/-- The track whose slot `p` holds the data `D p`. -/
def builtTrack (v : Byte) (t : Nat) (D : Nat → List Byte) : List Nibble :=
  (List.range 16).flatMap fun p => builtSlot v t p (D p)

theorem builtSlot_length (v : Byte) (t p : Nat) {d : List Byte} (hd : d.length = 256) :
    (builtSlot v t p d).length = 416 := by
  simp [builtSlot, sectorNibbles_length v _ _ hd]

/-- The data body of a slot has its place between parts that do not depend on it (R136). -/
theorem exists_builtSlot_eq (v : Byte) (t p : Nat) : ∃ front back : List Nibble, front.length = 43 ∧
    ∀ d, builtSlot v t p d = front ++ encodeData d ++ back :=
  ⟨_, _, rfl, fun d => by rw [builtSlot, sectorNibbles_eq, List.append_assoc (_ ++ encodeData d)]⟩

/-- `n` slots in a row. -/
theorem slots_length (v : Byte) (t : Nat) {D : Nat → List Byte} (hD : ∀ p, (D p).length = 256) (n : Nat) :
    ((List.range n).flatMap fun p => builtSlot v t p (D p)).length = 416 * n := by
  simp [List.length_flatMap, builtSlot_length v t _ (hD _), Nat.mul_comm]

/-- Sixteen slots fill the track: there is nothing to pad or to cut (R173). -/
theorem nibblize_eq_builtTrack (img : Dsk) (t : Nat) : nibblize img t = builtTrack img.volume t (sectorData img t) := by
  have len : (builtTrack img.volume t (sectorData img t)).length = 6656 :=
    slots_length _ t (sectorData_length img t) 16
  change padTrack (builtTrack img.volume t (sectorData img t)) = _
  rw [padTrack, len, Nat.sub_self, List.replicate_zero, List.append_nil, List.take_of_length_le len.le]

section
variable (v : Byte) (t : Nat) {D : Nat → List Byte} (hD : ∀ p, (D p).length = 256) {p : Nat} (hp : p < 16)
include hD hp

/-- Slot `p` begins at `416*p`, and what stands on either side of it does not depend on its data. -/
theorem exists_builtTrack_update : ∃ pre post : List Nibble, pre.length = 416 * p ∧
    ∀ d, builtTrack v t (Function.update D p d) = pre ++ builtSlot v t p d ++ post := by
  obtain ⟨n, hn⟩ : ∃ n, 16 = p + (1 + n) := ⟨15 - p, by omega⟩
  refine ⟨_, ((List.range n).map fun q => p + (1 + q)).flatMap fun q => builtSlot v t q (D q),
    slots_length v t hD p, fun d => ?_⟩
  have others (qs : List Nat) (h : p ∉ qs) :
      (qs.flatMap fun q => builtSlot v t q (Function.update D p d q)) = qs.flatMap fun q => builtSlot v t q (D q) :=
    List.flatMap_congr fun q hq => by rw [Function.update_of_ne (ne_of_mem_of_not_mem hq h)]
  have cut : List.range 16 = List.range p ++ p :: (List.range n).map fun q => p + (1 + q) := by
    rw [hn, List.range_add, List.range_add, List.map_append, List.map_map]
    rfl
  rw [builtTrack, cut, List.flatMap_append, List.flatMap_cons, others (List.range p) (by simp),
    others (List.map _ _) (by simp), Function.update_self, List.append_assoc]

theorem exists_builtTrack_eq : ∃ pre post : List Nibble, pre.length = 416 * p ∧
    builtTrack v t D = pre ++ builtSlot v t p (D p) ++ post := by
  obtain ⟨pre, post, len, track⟩ := exists_builtTrack_update v t hD hp
  exact ⟨pre, post, len, by rw [← track, Function.update_eq_self]⟩

theorem slot_of_builtTrack : ((builtTrack v t D).drop (416 * p)).take 416 = builtSlot v t p (D p) := by
  obtain ⟨pre, post, len, track⟩ := exists_builtTrack_eq v t hD hp
  rw [track, List.append_assoc, List.drop_left' len, List.take_left' (builtSlot_length v t p (hD p))]

theorem circAt_builtTrack {j : Nat} (hj : j < 416) :
    circAt (builtTrack v t D) (416 * p + j) = (builtSlot v t p (D p)).getD j 0 := by
  obtain ⟨pre, post, len, track⟩ := exists_builtTrack_eq v t hD hp
  rw [track, ← len, circAt_append (by rwa [builtSlot_length v t p (hD p)])]

/-- The sector built into a slot decodes there (R156). -/
theorem decodeSector_builtTrack : decodeSector (builtTrack v t D) (416 * p + 20) =
    .ok (v, BitVec.ofNat 8 t, BitVec.ofNat 8 p, D p) := by
  obtain ⟨pre, post, len, track⟩ := exists_builtTrack_eq v t hD hp
  rw [track, builtSlot, ← List.append_assoc, List.append_assoc _ _ post, ← len]
  exact decodeSector_sectorNibbles _ _ _ _ _ _ (hD p)

/-- The 343 nibbles from 43 on in a slot are its data body: others in their place make the track of other data
(R136). -/
theorem builtTrack_rewritten {d : List Byte} :
    (builtTrack v t D).take (416 * p + 43) ++ encodeData d ++ (builtTrack v t D).drop (416 * p + 386) =
      builtTrack v t (Function.update D p d) := by
  obtain ⟨pre, post, len, track⟩ := exists_builtTrack_update v t hD hp
  have before := track (D p)
  rw [Function.update_eq_self] at before
  obtain ⟨front, back, len', slot⟩ := exists_builtSlot_eq v t p
  have split (d : List Byte) : pre ++ builtSlot v t p d ++ post = (pre ++ front) ++ encodeData d ++ (back ++ post) := by
    simp only [slot, List.append_assoc]
  have start : (pre ++ front).length = 416 * p + 43 := by rw [List.length_append, len, len']
  have stop : (pre ++ front ++ encodeData (D p)).length = 416 * p + 386 := by
    rw [List.length_append, start, encodeData_length (hD p)]
  rw [track, before, split, split, List.drop_left' stop, List.append_assoc (pre ++ front), List.take_left' start]

end

/-- D5 stands in a slot where it stands in the sector. -/
theorem builtSlot_getD_eq_D5_iff (v : Byte) (t p : Nat) {d : List Byte} (hd : d.length = 256) {j : Nat} (hj : j < 416) :
    (builtSlot v t p d).getD j 0 = 0xD5 ↔ j = 20 ∨ j = 40 := by
  have len := sectorNibbles_length v (BitVec.ofNat 8 t) (BitVec.ofNat 8 p) hd
  rw [builtSlot]
  rcases Nat.lt_or_ge j 389 with h | h
  · have hj' : j < (sectorNibbles v (BitVec.ofNat 8 t) (BitVec.ofNat 8 p) d).length := len ▸ h
    rw [List.getD_append _ _ _ _ hj', ← sectorNibbles_getElem?_eq_D5_iff v (BitVec.ofNat 8 t) (BitVec.ofNat 8 p) d,
      List.getD_eq_getElem _ _ hj', List.getElem?_eq_getElem hj', Option.some_inj]
  · rw [List.getD_append_right _ _ _ _ (len ▸ h), len, List.getD_replicate (h := by omega)]
    exact iff_of_false (by decide) (by omega)

/-- The two prologues of a slot (R136, R175). -/
theorem prologueAt_builtTrack_iff (v : Byte) (t : Nat) {D : Nat → List Byte} (hD : ∀ p, (D p).length = 256) {p j : Nat}
    (hp : p < 16) (hj : j < 416) (m : Nibble) :
    prologueAt (builtTrack v t D) (416 * p + j) m = true ↔ j = 20 ∧ m = addressMark ∨ j = 40 ∧ m = dataMark := by
  have D5 : circAt (builtTrack v t D) (416 * p + j) = 0xD5 ↔ j = 20 ∨ j = 40 := by
    rw [circAt_builtTrack v t hD hp hj, builtSlot_getD_eq_D5_iff v t p (hD p) hj]
  have nibble {i : Nat} (h : i < 416) := circAt_builtTrack v t hD hp h
  simp only [prologueAt, Bool.and_eq_true, beq_iff_eq, D5, Nat.add_assoc]
  constructor
  · rintro ⟨⟨rfl | rfl, -⟩, third⟩ <;> rw [nibble (by decide)] at third
    · exact .inl ⟨rfl, third.symm⟩
    · exact .inr ⟨rfl, third.symm⟩
  · rintro (⟨rfl, rfl⟩ | ⟨rfl, rfl⟩) <;> rw [nibble (by decide), nibble (by decide)]
    · exact ⟨⟨.inl rfl, rfl⟩, rfl⟩
    · exact ⟨⟨.inr rfl, rfl⟩, rfl⟩

/-- Where the prologue `m` stands on a track when a slot has it at `j`. -/
theorem prologue_builtTrack_iff (v : Byte) (t : Nat) {D : Nat → List Byte} (hD : ∀ p, (D p).length = 256) {m : Byte}
    {j : Nat} (hm : m = addressMark ∧ j = 20 ∨ m = dataMark ∧ j = 40) {i : Nat} (hi : i < 6656) :
    Prologue (builtTrack v t D) i m ↔ ∃ p, p < 16 ∧ i = 416 * p + j := by
  have slot := prologueAt_builtTrack_iff v t hD (p := i / 416) (j := i % 416) (by omega) (Nat.mod_lt _ (by decide)) m
  rw [Nat.div_add_mod] at slot
  rw [← prologueAt_iff, slot]
  have marks : addressMark ≠ dataMark := by decide
  have at_ : i % 416 = j ↔ ∃ p, p < 16 ∧ i = 416 * p + j :=
    ⟨fun h => ⟨i / 416, by omega, by omega⟩, fun ⟨p, _, h⟩ => by omega⟩
  rcases hm with ⟨rfl, rfl⟩ | ⟨rfl, rfl⟩
  · simpa [marks] using at_
  · simpa [marks.symm] using at_

/-! ### The sector data of a track (R172) -/

/-- The table of the model is R100's. -/
theorem sectorStart_eq (img : Dsk) (t p : Nat) :
    sectorStart img t p = sectorOffset t (logicalSector img.order p) := by
  have table : interleave img.order = orderTable img.order := by cases img.order <;> rfl
  rw [sectorStart, sectorOffset, logicalSector, table]

theorem sectorBytes_eq_sectorData (img : Dsk) (t p : Nat) : sectorBytes img t p = sectorData img t p := by
  rw [sectorBytes, sectorData, Memory.readBytes_eq, sectorStart_eq]

theorem read_sectorStart (img : Dsk) (t p : Nat) {b : Nat} (hb : b < 256) :
    Memory.read img.sectors (sectorStart img t p + b) = (sectorData img t p).getD b 0 := by
  rw [← sectorBytes_eq_sectorData, sectorBytes, List.getD_eq_getElem _ _ (by simpa using hb), List.getElem_map,
    List.getElem_range]

/-- The sectors of two images agree when the reads at the same places do. -/
theorem sectorData_congr {img img' : Dsk} {t p : Nat} (order : img'.order = img.order)
    (h : ∀ a, sectorOffset t (logicalSector img.order p) ≤ a → a < sectorOffset t (logicalSector img.order p) + 256 →
      Memory.read img'.sectors a = Memory.read img.sectors a) : sectorData img' t p = sectorData img t p := by
  rw [sectorData, sectorData, Memory.readBytes_eq, Memory.readBytes_eq, order]
  exact List.map_congr_left fun b hb => h _ (Nat.le_add_right _ _) (Nat.add_lt_add_left (List.mem_range.mp hb) _)

/-- The interleave is a permutation of the sixteen sectors (R100). -/
theorem logicalSector_bijective (order : SectorOrder) :
    Function.Bijective fun p : Fin 16 => (⟨logicalSector order p, logicalSector_lt order p⟩ : Fin 16) := by
  refine Function.Injective.bijective_of_finite ?_
  cases order <;> decide

theorem logicalSector_injOn (order : SectorOrder) {p q : Nat} (hp : p < 16) (hq : q < 16)
    (h : logicalSector order p = logicalSector order q) : p = q :=
  congrArg Fin.val ((logicalSector_bijective order).injective (a₁ := ⟨p, hp⟩) (a₂ := ⟨q, hq⟩) (Fin.ext h))

/-- Every byte of a track belongs to one of its sectors. -/
theorem exists_sectorStart_add (img : Dsk) {t a : Nat} (low : 4096 * t ≤ a) (high : a < 4096 * t + 4096) :
    ∃ p b, p < 16 ∧ b < 256 ∧ a = sectorStart img t p + b := by
  obtain ⟨p, hp⟩ := (logicalSector_bijective img.order).surjective ⟨(a - 4096 * t) / 256, by omega⟩
  refine ⟨p, a % 256, p.isLt, Nat.mod_lt _ (by decide), ?_⟩
  have sector : logicalSector img.order p = (a - 4096 * t) / 256 := Fin.ext_iff.mp hp
  simp only [sectorStart_eq, sector, sectorOffset, Config.dskSectors, Config.sectorBytes]
  omega

/-- A track's bytes are those of its sixteen sectors. -/
theorem read_eq_of_sectorData_eq {img img' : Dsk} (order : img'.order = img.order) {t : Nat}
    (h : ∀ p, p < 16 → sectorData img' t p = sectorData img t p) {a : Nat} (low : 4096 * t ≤ a)
    (high : a < 4096 * t + 4096) : Memory.read img'.sectors a = Memory.read img.sectors a := by
  obtain ⟨p, b, hp, hb, rfl⟩ := exists_sectorStart_add img low high
  rw [read_sectorStart img t p hb, ← h p hp, ← read_sectorStart img' t p hb, sectorStart, sectorStart, order]

/-! ### The obligations of the synthesizer -/

/-- Settles O20: slot `p` of the track by `slot_of_builtTrack`. -/
theorem trackLayout : Obligations.TrackLayout := by
  intro k t s img ht hi
  refine ⟨_, exec_nibblizeTrack hi ht, nibblize_length img t, fun p hp => ?_⟩
  have len : (sectorData img t p).length = 256 := sectorData_length img t p
  refine ⟨_, by rw [sectorBytes_eq_sectorData, exec_buildSector _ _ _ len], ?_⟩
  rw [nibblize_eq_builtTrack, slot_of_builtTrack _ t (sectorData_length img t) hp, builtSlot]

/-- Settles O21: each slot has its two prologues and no other. -/
theorem sixteenSectorsOnATrack : Obligations.SixteenSectorsOnATrack := by
  intro k t s img ht hi
  refine ⟨_, exec_nibblizeTrack hi ht, fun i hlt => ?_⟩
  rw [nibblize_eq_builtTrack]
  exact ⟨prologue_builtTrack_iff _ t (sectorData_length img t) (.inl ⟨rfl, rfl⟩) hlt,
    prologue_builtTrack_iff _ t (sectorData_length img t) (.inr ⟨rfl, rfl⟩) hlt⟩

/-- Settles O22, by the equations of `materialize` and `trackBuffer`. -/
theorem materializationCachesOnce : Obligations.MaterializationCachesOnce := by
  intro k t s img ht hi
  refine ⟨_, _, exec_materializeTrack hi ht, fun old cached => ⟨trackBuffer_cached cached, materialize_cached cached⟩,
    fun absent => ?_, cacheAt_materialize img ht, materialize_dirty img t, materialize_sectors img t,
    materialize_order img t, materialize_volume img t⟩
  rw [trackBuffer_absent absent, exec_nibblizeTrack hi ht]

end Sys2Proof.Machine
end

section
/-! PROOFS. Denibblizing (R178, R179): what it stores is told sector by sector, so a track made of slots gives back the
data of each of them. -/

namespace Sys2Proof.Machine

open Sys2Proof.Claims

/-! ### One sector of one track -/

/-- What the candidate at `i` stores in sector `x` of track `t`, if anything (R178). -/
def storedAt (buf : List Nibble) (t x i : Nat) : Option (List Byte) :=
  match decodeSector buf i with
  | .error _ => none
  | .ok (_, track, sector, d) => if track.toNat = t ∧ sector.toNat = x then some d else none

theorem storedAt_eq_some_iff {buf : List Nibble} {t x i : Nat} (ht : t < 256) (hx : x < 256) {d : List Byte} :
    storedAt buf t x i = some d ↔
      ∃ v, decodeSector buf i = .ok (v, BitVec.ofNat 8 t, BitVec.ofNat 8 x, d) := by
  have number {b : Byte} {n : Nat} (hn : n < 256) : b.toNat = n ↔ b = BitVec.ofNat 8 n := by
    rw [← BitVec.toNat_inj, BitVec.toNat_ofNat, Nat.mod_eq_of_lt hn]
  unfold storedAt
  split
  · next h => simp [h]
  · next h => simp [h, number ht, number hx, and_assoc]

section
variable {buf : List Nibble} {i : Nat} (t : Nat)

theorem storeCandidate_of_error {code : FailureCode} (h : decodeSector buf i = .error code) (img : Dsk) :
    storeCandidate buf t img i = img := by
  rw [storeCandidate, h]

theorem storedAt_of_error {code : FailureCode} (h : decodeSector buf i = .error code) (x : Nat) :
    storedAt buf t x i = none := by
  rw [storedAt, h]

variable {v track sector : Byte} {d : List Byte} (h : decodeSector buf i = .ok (v, track, sector, d))
include h

theorem storeCandidate_of_ok (img : Dsk) : storeCandidate buf t img i =
    if track.toNat = t ∧ sector.toNat ≤ 15 then
      { img with sectors := Memory.writeBytes img.sectors (sectorOffset t (logicalSector img.order sector.toNat)) d }
    else img := by
  rw [storeCandidate, h]

theorem storedAt_of_ok (x : Nat) :
    storedAt buf t x i = if track.toNat = t ∧ sector.toNat = x then some d else none := by
  rw [storedAt, h]

end

/-- A sector stored is that sector of the track, and no other one. -/
theorem sectorData_writeBytes (img : Dsk) (t : Nat) {x y : Nat} (hx : x < 16) (hy : y < 16) {d : List Byte}
    (hd : d.length = 256) :
    sectorData
        { img with sectors := Memory.writeBytes img.sectors (sectorOffset t (logicalSector img.order y)) d } t x =
      if y = x then d else sectorData img t x := by
  split
  · next same =>
    subst same
    rw [sectorData, Memory.readBytes_eq]
    refine List.ext_getElem (by simp [hd]) fun b _ hb => ?_
    rw [List.getElem_map, List.getElem_range, Memory.read_writeBytes_inside _ _ _ hb, List.getD_eq_getElem _ _ hb]
  · next other =>
    refine sectorData_congr rfl fun a low high => Memory.read_writeBytes_outside _ _ _ ?_
    have apart : logicalSector img.order y ≠ logicalSector img.order x := mt (logicalSector_injOn _ hy hx) other
    simp only [sectorOffset, Config.dskSectors, Config.sectorBytes] at *
    omega

/-- One candidate as sector `x` of its track sees it. -/
theorem sectorData_storeCandidate (buf : List Nibble) (t : Nat) {x : Nat} (hx : x < 16) (img : Dsk) (i : Nat) :
    sectorData (storeCandidate buf t img i) t x = (storedAt buf t x i).getD (sectorData img t x) := by
  cases h : decodeSector buf i with
  | error code => rw [storeCandidate_of_error t h, storedAt_of_error t h, Option.getD_none]
  | ok found =>
    obtain ⟨v, track, sector, d⟩ := found
    rw [storeCandidate_of_ok t h, storedAt_of_ok t h]
    by_cases taken : track.toNat = t ∧ sector.toNat ≤ 15
    · rw [if_pos taken, sectorData_writeBytes img t hx (by omega) (decodeSector_length h)]
      by_cases same : sector.toNat = x
      · rw [if_pos same, if_pos ⟨taken.1, same⟩, Option.getD_some]
      · rw [if_neg same, if_neg fun e => same e.2, Option.getD_none]
    · rw [if_neg taken, if_neg (by omega), Option.getD_none]

/-- What sector `x` of track `t` becomes: candidate after candidate stores its decode over what was there. -/
def denibblizedSector (cached : Option (List Nibble)) (t x : Nat) (old : List Byte) : List Byte :=
  match cached with
  | none => old
  | some buf => (addressStarts buf).foldl (fun d i => (storedAt buf t x i).getD d) old

theorem denibblize_absent {img : Dsk} {t : Nat} (h : img.cacheAt t = none) : denibblize img t = img := by
  rw [denibblize, h]

theorem denibblize_cached {img : Dsk} {t : Nat} {buf : List Nibble} (h : img.cacheAt t = some buf) :
    denibblize img t = (addressStarts buf).foldl (storeCandidate buf t) img := by
  rw [denibblize, h]

/-- R178 sector by sector. -/
theorem sectorData_denibblize (img : Dsk) (t : Nat) {x : Nat} (hx : x < 16) :
    sectorData (denibblize img t) t x = denibblizedSector (img.cacheAt t) t x (sectorData img t x) := by
  cases h : img.cacheAt t with
  | none => rw [denibblize_absent h, denibblizedSector]
  | some buf =>
    rw [denibblize_cached h, denibblizedSector]
    exact (List.foldl_hom (sectorData · t x) fun j i => (sectorData_storeCandidate buf t hx j i).symm).symm

/-- What holds of an image and is kept by storing a sector of track `t` holds of the image denibblized. -/
theorem denibblize_induction {P : Dsk → Prop} {img : Dsk} {t : Nat} (start : P img)
    (store : ∀ j l d, P j → l < 16 → d.length = 256 →
      P { j with sectors := Memory.writeBytes j.sectors (sectorOffset t l) d }) : P (denibblize img t) := by
  cases h : img.cacheAt t with
  | none => rwa [denibblize_absent h]
  | some buf =>
    rw [denibblize_cached h]
    refine List.foldlRecOn (motive := P) _ _ start fun j hj i _ => ?_
    rcases storeCandidate_cases buf t j i with e | ⟨l, d, hl, hd, e⟩
    · rwa [e]
    · rw [e]; exact store j l d hj hl hd

/-- Every byte outside the track stays (R178). -/
theorem read_denibblize_outside (img : Dsk) {t a : Nat} (h : a < 4096 * t ∨ 4096 * t + 4096 ≤ a) :
    Memory.read (denibblize img t).sectors a = Memory.read img.sectors a := by
  refine denibblize_induction (P := fun j => Memory.read j.sectors a = Memory.read img.sectors a) rfl
    fun j l d hj hl hd => ?_
  have := sectorOffset_bounds (t := t) hl
  rw [Memory.read_writeBytes_outside _ _ _ (by omega), hj]

theorem wf_denibblize {img : Dsk} (h : Memory.wf img.sectors) (t : Nat) : Memory.wf (denibblize img t).sectors :=
  denibblize_induction (P := fun j => Memory.wf j.sectors) h fun _ _ _ hj _ _ => Memory.wf_writeBytes hj _ _

/-! ### The last candidate that stores -/

theorem foldl_getD_of_none {α β : Type} {f : α → Option β} {xs : List α} (h : ∀ x ∈ xs, f x = none) (b : β) :
    xs.foldl (fun b x => (f x).getD b) b = b :=
  List.foldlRecOn (motive := (· = b)) _ _ rfl fun c hc x hx => by rw [h x hx, Option.getD_none, hc]

/-- Of the candidates of a rising list the last that stores decides. -/
theorem foldl_getD_of_last {α : Type} {f : Nat → Option α} {is : List Nat} (rising : is.Pairwise (· < ·)) {i : Nat}
    (hi : i ∈ is) {a : α} (stores : f i = some a) (last : ∀ j ∈ is, i < j → f j = none) (b : α) :
    is.foldl (fun b i => (f i).getD b) b = a := by
  obtain ⟨before, after, rfl⟩ := List.append_of_mem hi
  obtain ⟨-, rising', -⟩ := List.pairwise_append.mp rising
  have later := (List.pairwise_cons.mp rising').1
  rw [List.foldl_append, List.foldl_cons, stores, Option.getD_some]
  exact foldl_getD_of_none (fun j hj => last j (by simp [hj]) (later j hj)) a

theorem addressStarts_rising (buf : List Nibble) : (addressStarts buf).Pairwise (· < ·) := by
  have indices : (buf.zipIdx.map (·.2)).Pairwise (· < ·) := by
    rw [List.zipIdx_map_snd]
    exact List.pairwise_lt_range'
  exact indices.sublist (List.filter_sublist.map _)

theorem denibblizedSector_of_none {buf : List Nibble} {t x : Nat}
    (h : ∀ i ∈ addressStarts buf, storedAt buf t x i = none) (old : List Byte) :
    denibblizedSector (some buf) t x old = old := foldl_getD_of_none h old

theorem denibblizedSector_of_last {buf : List Nibble} {t x i : Nat} {d : List Byte} (hi : i ∈ addressStarts buf)
    (stores : storedAt buf t x i = some d) (last : ∀ j ∈ addressStarts buf, i < j → storedAt buf t x j = none)
    (old : List Byte) : denibblizedSector (some buf) t x old = d :=
  foldl_getD_of_last (addressStarts_rising buf) hi stores last old

theorem exec_decodeSectorAt_iff {buf : List Byte} (h : buf ≠ []) {i : Nat} {s : State} {v t x : Byte} {d : List Byte} :
    exec (.decodeSectorAt buf i) s = .next (s.answered (.sector v t x d)) ↔
      decodeSector buf i = .ok (v, t, x, d) := by
  have inj : Function.Injective fun r : Byte × Byte × Byte × List Byte => Result.sector r.1 r.2.1 r.2.2.1 r.2.2.2 :=
    fun _ _ e => by
      obtain ⟨e1, e2, e3, e4⟩ := Result.sector.inj e
      exact Prod.ext e1 (Prod.ext e2 (Prod.ext e3 e4))
  have meaning : exec (.decodeSectorAt buf i) s = answerOrFail _ (decodeSector buf i) s :=
    if_pos (List.length_pos_of_ne_nil h)
  rw [meaning]
  exact answerOrFail_eq_ok_iff inj nofun (a := (v, t, x, d))

/-- Settles O23: the sectors by the last candidate that stores in each, the other bytes by
`read_denibblize_outside`. -/
theorem denibblizeStoresTheLastDecodeOfEachSector : Obligations.DenibblizeStoresTheLastDecodeOfEachSector := by
  intro k t s img ht hi
  obtain ⟨order, cache, dirty, volume⟩ := denibblize_sectorsOnly img t
  refine ⟨_, exec_denibblizeTrack hi ht, denibblize_absent, fun buf x cached hx => ?_,
    fun a => read_denibblize_outside img, cache, dirty, order, volume, fun wf => wf_denibblize wf t⟩
  intro Found
  have found (i : Nat) (d : List Byte) : Found i d ↔ i ∈ addressStarts buf ∧ storedAt buf t x i = some d := by
    rw [mem_addressStarts, storedAt_eq_some_iff (by omega) (by omega), addressMark, prologueAt_iff, and_assoc]
    refine and_congr_right fun hlt => and_congr_right fun _ => exists_congr fun v => ?_
    exact exec_decodeSectorAt_iff (List.length_pos_iff.mp (Nat.zero_lt_of_lt hlt))
  have unfound {i : Nat} (hmem : i ∈ addressStarts buf) (h : ∀ d, ¬ Found i d) : storedAt buf t x i = none :=
    Option.eq_none_iff_forall_ne_some.mpr fun d hd => h d ((found i d).mpr ⟨hmem, hd⟩)
  simp only [sectorBytes_eq_sectorData, sectorData_denibblize img t hx, cached]
  refine ⟨fun i d hd last => ?_, fun none => ?_⟩
  · obtain ⟨hmem, stores⟩ := (found i d).mp hd
    exact denibblizedSector_of_last hmem stores (fun j hj hij => unfound hj fun d' => last j d' hij) _
  · exact denibblizedSector_of_none (fun i hmem => unfound hmem (none i)) _

/-! ### A track made of slots (R179) -/

theorem mem_addressStarts_builtTrack_iff (v : Byte) (t : Nat) {D : Nat → List Byte} (hD : ∀ p, (D p).length = 256)
    {i : Nat} : i ∈ addressStarts (builtTrack v t D) ↔ ∃ p, p < 16 ∧ i = 416 * p + 20 := by
  have len : (builtTrack v t D).length = 6656 := slots_length v t hD 16
  rw [mem_addressStarts, len, prologueAt_iff]
  constructor
  · rintro ⟨hlt, h⟩
    exact (prologue_builtTrack_iff v t hD (.inl ⟨rfl, rfl⟩) hlt).mp h
  · rintro h
    have hlt : i < 6656 := by obtain ⟨p, hp, rfl⟩ := h; omega
    exact ⟨hlt, (prologue_builtTrack_iff v t hD (.inl ⟨rfl, rfl⟩) hlt).mpr h⟩

/-- Slot `x` alone stores in sector `x`. -/
theorem denibblizedSector_builtTrack (v : Byte) {t : Nat} (ht : t < 35) {D : Nat → List Byte}
    (hD : ∀ p, (D p).length = 256) {x : Nat} (hx : x < 16) (old : List Byte) :
    denibblizedSector (some (builtTrack v t D)) t x old = D x := by
  have here := (storedAt_eq_some_iff (by omega) (by omega)).mpr ⟨v, decodeSector_builtTrack v t hD hx⟩
  refine denibblizedSector_of_last ((mem_addressStarts_builtTrack_iff v t hD).mpr ⟨x, hx, rfl⟩) here
    (fun j hj hlt => ?_) old
  obtain ⟨p, hp, rfl⟩ := (mem_addressStarts_builtTrack_iff v t hD).mp hj
  have other : ¬ p = x := by omega
  simp [storedAt_of_ok t (decodeSector_builtTrack v t hD hp), Nat.mod_eq_of_lt (show p < 256 by omega), other]

/-- A track made of slots returns the data of its slots. -/
theorem sectorData_denibblize_builtTrack {img : Dsk} {v : Byte} {t : Nat} (ht : t < 35) {D : Nat → List Byte}
    (hD : ∀ p, (D p).length = 256) (cached : img.cacheAt t = some (builtTrack v t D)) {x : Nat} (hx : x < 16) :
    sectorData (denibblize img t) t x = D x := by
  rw [sectorData_denibblize img t hx, cached, denibblizedSector_builtTrack v ht hD hx]

/-- Settles O24: the synthesized track is made of slots that hold the sectors' own data. -/
theorem denibblizeOfSynthesizedTrackIsIdentity : Obligations.DenibblizeOfSynthesizedTrackIsIdentity := by
  intro k t s img buf ht hi hbuf cached
  obtain ⟨order, -⟩ := denibblize_sectorsOnly img t
  rw [eq_nibblize_of_exec ht hi hbuf, nibblize_eq_builtTrack] at cached
  refine ⟨_, exec_denibblizeTrack hi ht, fun a => ?_⟩
  by_cases inside : 4096 * t ≤ a ∧ a < 4096 * t + 4096
  · exact read_eq_of_sectorData_eq order
      (fun p hp => sectorData_denibblize_builtTrack ht (sectorData_length img t) cached hp) inside.1 inside.2
  · exact read_denibblize_outside img (by omega)

/-- Settles O25: the rewritten track is made of the same slots but for slot `p`, which holds `d'`. -/
theorem rewrittenSectorReachesTheImage : Obligations.RewrittenSectorReachesTheImage := by
  intro k t p s img buf body d' ht hp hd hi hbuf hbody cached
  obtain ⟨order, -⟩ := denibblize_sectorsOnly img t
  rw [exec_encode6and2 hd, State.next_answered_inj] at hbody
  rw [eq_nibblize_of_exec ht hi hbuf, nibblize_eq_builtTrack, ← Result.bytes.inj hbody,
    builtTrack_rewritten _ t (sectorData_length img t) hp] at cached
  have len (q : Nat) : (Function.update (sectorData img t) p d' q).length = 256 := by
    rcases eq_or_ne q p with rfl | hq
    · rw [Function.update_self, hd]
    · rw [Function.update_of_ne hq, sectorData_length]
  have stored {q : Nat} (hq : q < 16) := sectorData_denibblize_builtTrack ht len cached hq
  have start (q : Nat) : sectorStart (denibblize img t) t q = sectorStart img t q := by
    rw [sectorStart, sectorStart, order]
  refine ⟨_, exec_denibblizeTrack hi ht, fun b hb => ?_, fun a elsewhere => ?_⟩
  · rw [← start, read_sectorStart _ t p hb, stored hp, Function.update_self]
  · by_cases inside : 4096 * t ≤ a ∧ a < 4096 * t + 4096
    · obtain ⟨q, b, hq, hb, rfl⟩ := exists_sectorStart_add img inside.1 inside.2
      have other : q ≠ p := by rintro rfl; omega
      rw [read_sectorStart img t q hb, ← start, read_sectorStart _ t q hb, stored hq, Function.update_of_ne other]
    · exact read_denibblize_outside img (by omega)

end Sys2Proof.Machine
end

section
/-! PROOFS. The flush (R180): each turn of its loop concerns one track, so of each track what remains is its own
turn. -/

namespace Sys2Proof.Machine

open Sys2Proof.Claims

/-- Two images that agree in the order and in all that belongs to track `t`. -/
structure SameTrack (t : Nat) (img img' : Dsk) : Prop where
  order : img'.order = img.order
  cache : img'.cacheAt t = img.cacheAt t
  dirty : img'.dirtyAt t = img.dirtyAt t
  data  : ∀ x, x < 16 → sectorData img' t x = sectorData img t x

theorem SameTrack.refl (t : Nat) (img : Dsk) : SameTrack t img img := ⟨rfl, rfl, rfl, fun _ _ => rfl⟩

theorem SameTrack.trans {t : Nat} {a b c : Dsk} (h : SameTrack t a b) (h' : SameTrack t b c) : SameTrack t a c :=
  ⟨h'.order.trans h.order, h'.cache.trans h.cache, h'.dirty.trans h.dirty,
    fun x hx => (h'.data x hx).trans (h.data x hx)⟩

theorem SameTrack.read {t : Nat} {img img' : Dsk} (h : SameTrack t img img') {a : Nat} (low : 4096 * t ≤ a)
    (high : a < 4096 * t + 4096) : Memory.read img'.sectors a = Memory.read img.sectors a :=
  read_eq_of_sectorData_eq h.order h.data low high

theorem flushOne_clean {img : Dsk} {t : Nat} (h : img.dirtyAt t = false) : flushOne img t = img := by
  simp [flushOne, h]

theorem flushOne_dirty {img : Dsk} {t : Nat} (h : img.dirtyAt t = true) :
    flushOne img t = (denibblize img t).setDirty t false := by
  simp [flushOne, h]

theorem sectorData_setDirty (img : Dsk) (u t x : Nat) (b : Bool) :
    sectorData (img.setDirty u b) t x = sectorData img t x := rfl

theorem cacheAt_flushOne (img : Dsk) (u t : Nat) : (flushOne img u).cacheAt t = img.cacheAt t := by
  rw [Dsk.cacheAt, (flushOne_kept img u).1, Dsk.cacheAt]

theorem dirtyAt_flushOne (img : Dsk) {u : Nat} (hu : u < 35) (t : Nat) :
    (flushOne img u).dirtyAt t = if t = u then false else img.dirtyAt t := by
  rcases flushOne_cases img u with ⟨clean, e⟩ | ⟨-, e⟩
  · rw [e]
    split
    · next h => rw [h, clean]
    · rfl
  · rw [e, Dsk.dirtyAt_setDirty _ hu, Dsk.dirtyAt_congr (denibblize_sectorsOnly img u).2.2.1]

/-- A turn leaves the other tracks alone. -/
theorem sameTrack_flushOne_other (img : Dsk) {t u : Nat} (hu : u < 35) (h : t ≠ u) :
    SameTrack t img (flushOne img u) := by
  obtain ⟨-, order, -⟩ := flushOne_kept img u
  refine ⟨order, cacheAt_flushOne img u t, by rw [dirtyAt_flushOne img hu, if_neg h], fun x hx => ?_⟩
  rcases flushOne_cases img u with ⟨-, e⟩ | ⟨-, e⟩
  · rw [e]
  · rw [e, sectorData_setDirty]
    refine sectorData_congr (denibblize_sectorsOnly img u).1 fun a low high => read_denibblize_outside img ?_
    have := sectorOffset_bounds (t := t) (logicalSector_lt img.order x)
    omega

/-- A track's own turn depends on that track only. -/
theorem SameTrack.flushOne {t : Nat} (ht : t < 35) {img img' : Dsk} (h : SameTrack t img img') :
    SameTrack t (flushOne img t) (flushOne img' t) := by
  obtain ⟨-, order, -⟩ := flushOne_kept img t
  obtain ⟨-, order', -⟩ := flushOne_kept img' t
  refine ⟨by rw [order, order', h.order], by rw [cacheAt_flushOne, cacheAt_flushOne, h.cache],
    by rw [dirtyAt_flushOne _ ht, dirtyAt_flushOne _ ht, if_pos rfl, if_pos rfl], fun x hx => ?_⟩
  cases hd : img.dirtyAt t with
  | false => rw [flushOne_clean hd, flushOne_clean (h.dirty.trans hd), h.data x hx]
  | true =>
    rw [flushOne_dirty hd, flushOne_dirty (h.dirty.trans hd), sectorData_setDirty, sectorData_setDirty,
      sectorData_denibblize _ t hx, sectorData_denibblize _ t hx, h.cache, h.data x hx]

/-- A clean track is left alone by all the turns. -/
theorem sameTrack_turns_of_clean {ts : List Nat} (hts : ∀ u ∈ ts, u < 35) {t : Nat} {img : Dsk}
    (clean : img.dirtyAt t = false) : SameTrack t img (ts.foldl flushOne img) := by
  refine List.foldlRecOn (motive := SameTrack t img) _ _ (.refl t img) fun j hj u hu => hj.trans ?_
  rcases eq_or_ne t u with rfl | h
  · rw [flushOne_clean (hj.dirty.trans clean)]
    exact .refl t j
  · exact sameTrack_flushOne_other j (hts u hu) h

/-- Of all the turns its own alone concerns a track. -/
theorem sameTrack_turns {ts : List Nat} (hts : ∀ u ∈ ts, u < 35) {t : Nat} (ht : t ∈ ts) (img : Dsk) :
    SameTrack t (flushOne img t) (ts.foldl flushOne img) := by
  induction ts generalizing img with
  | nil => cases ht
  | cons u us ih =>
    have hus : ∀ u ∈ us, u < 35 := fun w hw => hts w (by simp [hw])
    rcases eq_or_ne t u with rfl | h
    · exact sameTrack_turns_of_clean hus (by rw [dirtyAt_flushOne img (hts t ht), if_pos rfl])
    · exact (sameTrack_flushOne_other img (hts u (by simp)) h).flushOne (hts t ht) |>.trans
        (ih hus ((List.mem_cons.mp ht).resolve_left h) _)

theorem sameTrack_flushDsk (img : Dsk) {t : Nat} (ht : t < 35) : SameTrack t (flushOne img t) (flushDsk img) :=
  sameTrack_turns (fun _ => List.mem_range.mp) (List.mem_range.mpr ht) img

theorem flushDsk_clean (img : Dsk) : (flushDsk img).Clean := fun t => by
  rcases Nat.lt_or_ge t 35 with ht | ht
  · rw [(sameTrack_flushDsk img ht).dirty, dirtyAt_flushOne img ht, if_pos rfl]
  · exact Dsk.dirtyAt_of_ge _ ht

/-- The buffers, the order and the volume are kept by the flush (R180). -/
theorem flushDsk_kept (img : Dsk) : (flushDsk img).cache = img.cache ∧ (flushDsk img).order = img.order ∧
    (flushDsk img).volume = img.volume :=
  List.foldlRecOn (motive := fun j : Dsk => j.cache = img.cache ∧ j.order = img.order ∧ j.volume = img.volume) _ _
    ⟨rfl, rfl, rfl⟩ fun j ⟨cache, order, volume⟩ t _ => by
      obtain ⟨cache', order', volume'⟩ := flushOne_kept j t
      exact ⟨cache'.trans cache, order'.trans order, volume'.trans volume⟩

/-- Settles O26: of each track what remains is its own turn. -/
theorem flushDenibblizesTheDirtyTracks : Obligations.FlushDenibblizesTheDirtyTracks := by
  refine fun k s => ⟨fun img hi => ?_, exec_flush_of_no_sectorImage⟩
  obtain ⟨cache, order, volume⟩ := flushDsk_kept img
  refine ⟨_, exec_flush_dsk hi, flushDsk_clean img, cache, order, volume, fun t imgT ht dirty h a low high => ?_,
    fun t a ht clean low high => ?_, Dsk.Clean.flushDsk_eq⟩
  · rw [exec_denibblizeTrack hi ht] at h
    rw [(sameTrack_flushDsk img ht).read low high, flushOne_dirty dirty, ← withImage_answered_inj h,
      Dsk.setDirty_sectors]
  · rw [(sameTrack_flushDsk img ht).read low high, flushOne_clean clean]

end Sys2Proof.Machine
end

section
/-! PROOFS. The bit-stream reader (R212, R213): a bit read is the stream's bit at the cursor, so the loop of R213 skips the
zeros in front of a leading 1 and keeps in its accumulator the bits from there on. -/

namespace Sys2Proof.Machine

open Sys2Proof.Claims

/-! ### One bit (R212) -/

/-- The drive with the cursor `n` bits further in the circular stream `T`. -/
def DriveSlot.movedBy (d : DriveSlot) (T : WozTrack) (n : Nat) : DriveSlot :=
  { d with cursor := (d.cursor + n) % T.bitCount }

theorem bitAt_eq_streamBit (T : WozTrack) (c : Nat) : bitAt T.bytes (c % T.bitCount) = streamBit T c := by
  rw [bitAt, BitVec.getLsbD, Nat.testBit_eq_decide_div_mod_eq]
  rfl

theorem streamBit_mod_add (T : WozTrack) (c n : Nat) : streamBit T (c % T.bitCount + n) = streamBit T (c + n) := by
  simp only [streamBit, Nat.mod_add_mod]

theorem wozTrackUnder_woz {d : DriveSlot} {img : Woz} (hi : d.image = some (.woz img)) :
    wozTrackUnder d = currentTrack img d.quarterTrack := by
  rw [wozTrackUnder, hi]

section
variable {d : DriveSlot} {T : WozTrack} (h : wozTrackUnder d = some T)
include h

theorem nextBit_track : nextBit d = (streamBit T d.cursor, d.movedBy T 1) := by
  simp only [nextBit, h, bitAt_eq_streamBit, Nat.mod_add_mod, DriveSlot.movedBy]

theorem nextBit_movedBy (n : Nat) : nextBit (d.movedBy T n) = (streamBit T (d.cursor + n), d.movedBy T (n + 1)) := by
  rw [nextBit_track (d := d.movedBy T n) h]
  simp only [DriveSlot.movedBy, Nat.mod_add_mod, Nat.add_assoc]
  rw [← Nat.add_zero (_ % _), streamBit_mod_add, Nat.add_zero]

end

theorem nextBit_of_no_track {d : DriveSlot} (h : wozTrackUnder d = none) : nextBit d = (false, d) := by
  rw [nextBit, h]

theorem exec_readBit {k : DriveId} {s : State} {img : Woz} (hi : (s.drive k).image = some (.woz img)) :
    exec (.readBit k) s =
      .next ((s.setDrive k (nextBit (s.drive k)).2).answered (.bit (nextBit (s.drive k)).1)) :=
  if_pos (by rw [holdsWoz, hi])

/-- Settles O30: what the operation does is `nextBit`, with a track and without. -/
theorem readBitTakesTheNextBit : Obligations.ReadBitTakesTheNextBit := by
  intro k s img hi
  rw [exec_readBit hi, ← wozTrackUnder_woz hi]
  constructor
  · intro T hT
    rw [nextBit_track hT, DriveSlot.movedBy]
  · intro none
    rw [nextBit_of_no_track none, State.setDrive_drive]

/-! ### The accumulator of R213 -/

theorem shiftIn_ofNat (n : Nat) (b : Bool) :
    shiftIn (BitVec.ofNat 8 n) b = BitVec.ofNat 8 (2 * n + if b then 1 else 0) := by
  have double : BitVec.ofNat 8 n <<< 1 = BitVec.ofNat 8 (2 * n) := by
    apply BitVec.eq_of_toNat_eq
    simp [Nat.shiftLeft_eq, Nat.mul_comm]
  have join := Nat.two_pow_add_eq_or_of_lt (i := 1) (b := if b then 1 else 0) (by cases b <;> decide) n
  rw [Nat.pow_one] at join
  rw [shiftIn, double, join, BitVec.ofNat_or]
  cases b <;> rfl

/-- From a leading 1 on, `j + 1` bits make a number of just that length. -/
theorem streamValue_bounds {T : WozTrack} {c : Nat} (lead : streamBit T c = true) (j : Nat) :
    2 ^ j ≤ streamValue T c (j + 1) ∧ streamValue T c (j + 1) < 2 ^ (j + 1) := by
  induction j with
  | zero => simp [streamValue, lead]
  | succ j ih =>
    rw [streamValue]
    split <;> omega

/-- The accumulator that holds `n` bits from stream position `c` on. -/
def held (T : WozTrack) (c n : Nat) : Byte := BitVec.ofNat 8 (streamValue T c n)

theorem shiftIn_held (T : WozTrack) (c n : Nat) : shiftIn (held T c n) (streamBit T (c + n)) = held T c (n + 1) :=
  shiftIn_ofNat _ _

theorem toNat_held {T : WozTrack} {c n : Nat} (lead : streamBit T c = true) (hn : n < 8) :
    (held T c (n + 1)).toNat = streamValue T c (n + 1) := by
  have := (streamValue_bounds lead n).2
  have : 2 ^ (n + 1) ≤ 2 ^ 8 := Nat.pow_le_pow_right (by decide) hn
  exact Nat.mod_eq_of_lt (by omega)

/-- Bit 7 of the accumulator is set by the eighth bit and not before. -/
theorem getLsbD_held {T : WozTrack} {c n : Nat} (lead : streamBit T c = true) (hn : n < 8) :
    (held T c (n + 1)).getLsbD 7 = decide (n = 7) := by
  obtain ⟨low, high⟩ := streamValue_bounds lead n
  rw [BitVec.getLsbD, toNat_held lead hn]
  rcases Nat.lt_or_ge n 7 with h | h
  · have : 2 ^ (n + 1) ≤ 2 ^ 7 := Nat.pow_le_pow_right (by decide) h
    rw [Nat.testBit_lt_two_pow (by omega), decide_eq_false (by omega)]
  · obtain rfl : n = 7 := by omega
    rw [Nat.testBit_eq_decide_div_mod_eq, decide_eq_decide]
    omega

/-! ### The loop of R213 -/

section
variable {d : DriveSlot} {T : WozTrack} (h : wozTrackUnder d = some T)
include h

/-- A turn of the loop that takes a bit. -/
theorem assembleNibble_movedBy {acc : Byte} (open7 : acc.getLsbD 7 = false) (n m : Nat) :
    assembleNibble (n + 1) acc (d.movedBy T m) =
      assembleNibble n (shiftIn acc (streamBit T (d.cursor + m))) (d.movedBy T (m + 1)) := by
  rw [assembleNibble, open7, nextBit_movedBy h]
  rfl

/-- The first bit is the same whether or not the cursor is taken modulo the stream's length. -/
theorem assembleNibble_start (n : Nat) : assembleNibble (n + 1) 0 d = assembleNibble (n + 1) 0 (d.movedBy T 0) := by
  rw [assembleNibble_movedBy h rfl, assembleNibble, nextBit_track h]
  rfl

/-- Shifting zeros into a zero accumulator leaves it zero. -/
theorem assembleNibble_zeros {z : Nat} (zeros : ∀ j, j < z → streamBit T (d.cursor + j) = false) (n : Nat) :
    assembleNibble (n + z) 0 (d.movedBy T 0) = assembleNibble n 0 (d.movedBy T z) := by
  induction z generalizing n with
  | zero => rfl
  | succ z ih =>
    rw [← Nat.add_assoc, Nat.add_right_comm, ih (fun j hj => zeros j (by omega)), assembleNibble_movedBy h rfl,
      zeros z (by omega)]
    rfl

/-- From a leading 1 on, the loop ends with eight bits or at the ceiling. -/
theorem assembleNibble_held {z : Nat} (lead : streamBit T (d.cursor + z) = true) (n : Nat) {j : Nat} (hj : j < 8) :
    assembleNibble n (held T (d.cursor + z) (j + 1)) (d.movedBy T (z + (j + 1))) =
      (held T (d.cursor + z) (min 8 (j + 1 + n)), d.movedBy T (z + min 8 (j + 1 + n))) := by
  induction n generalizing j with
  | zero => rw [assembleNibble, Nat.add_zero, Nat.min_eq_right hj]
  | succ n ih =>
    have bit7 := getLsbD_held lead hj
    rcases Nat.lt_or_ge j 7 with lt | ge
    · rw [assembleNibble_movedBy h (bit7.trans (decide_eq_false (by omega))), ← Nat.add_assoc, shiftIn_held,
        Nat.add_assoc z, ih (by omega), Nat.add_right_comm (j + 1) 1 n, Nat.add_assoc (j + 1)]
    · obtain rfl : j = 7 := by omega
      rw [assembleNibble, if_pos (bit7.trans (decide_eq_true rfl)), Nat.min_eq_left (by omega)]

/-- What the loop reads when the first 1 stands behind `z` zeros. -/
theorem assembleNibble_lead {z : Nat} (zeros : ∀ j, j < z → streamBit T (d.cursor + j) = false)
    (lead : streamBit T (d.cursor + z) = true) {n : Nat} (hz : z < n) :
    assembleNibble n 0 (d.movedBy T 0) =
      (held T (d.cursor + z) (min (z + 8) n - z), d.movedBy T (min (z + 8) n)) := by
  obtain ⟨m, rfl⟩ : ∃ m, n = m + 1 + z := ⟨n - z - 1, by omega⟩
  have first : shiftIn 0 (streamBit T (d.cursor + z)) = held T (d.cursor + z) (0 + 1) := shiftIn_held T (d.cursor + z) 0
  rw [assembleNibble_zeros h zeros, assembleNibble_movedBy h rfl, first, assembleNibble_held h lead m (by decide)]
  congr 2 <;> omega

/-- R213 for any ceiling. -/
theorem nextWozNibble_track {n : Nat} (hn : 0 < n) :
    (∃ z, z < n ∧ (∀ j, j < z → streamBit T (d.cursor + j) = false) ∧ streamBit T (d.cursor + z) = true ∧
      nextWozNibble n d = (held T (d.cursor + z) (min (z + 8) n - z), d.movedBy T (min (z + 8) n))) ∨
    (∀ j, j < n → streamBit T (d.cursor + j) = false) ∧ nextWozNibble n d = (0x00, d.movedBy T n) := by
  obtain ⟨m, rfl⟩ : ∃ m, n = m + 1 := ⟨n - 1, by omega⟩
  rw [nextWozNibble, h]
  simp only [assembleNibble_start h]
  by_cases some1 : ∃ z, z < m + 1 ∧ streamBit T (d.cursor + z) = true
  · obtain ⟨hz, lead⟩ := Nat.find_spec some1
    have zeros : ∀ j, j < Nat.find some1 → streamBit T (d.cursor + j) = false := fun j hj => by
      simpa using fun one => Nat.find_min some1 hj ⟨by omega, one⟩
    exact .inl ⟨_, hz, zeros, lead, assembleNibble_lead h zeros lead hz⟩
  · have zeros : ∀ j, j < m + 1 → streamBit T (d.cursor + j) = false := fun j hj => by
      simpa using fun one => some1 ⟨j, hj, one⟩
    refine .inr ⟨zeros, ?_⟩
    rw [← Nat.zero_add (m + 1), assembleNibble_zeros h zeros, assembleNibble, Nat.zero_add]

/-- The nibble and the bits it took, as R213 has them. -/
theorem nibbleRead_nextWozNibble :
    ∃ v count, NibbleRead T d.cursor v count ∧ 8 ≤ count ∧ count ≤ Config.maxNibbleShiftBits ∧
      nextWozNibble Config.maxNibbleShiftBits d = (v, d.movedBy T count) := by
  have ceiling : 8 ≤ Config.maxNibbleShiftBits := Nat.le_add_left ..
  rcases nextWozNibble_track h (n := Config.maxNibbleShiftBits) (by omega) with ⟨z, hz, zeros, lead, e⟩ | ⟨zeros, e⟩
  · refine ⟨_, _, .inl ⟨z, hz, zeros, lead, rfl, ?_⟩, by omega, Nat.min_le_right .., e⟩
    obtain ⟨n, hn⟩ : ∃ n, min (z + 8) Config.maxNibbleShiftBits - z = n + 1 :=
      ⟨min (z + 8) Config.maxNibbleShiftBits - z - 1, by omega⟩
    rw [hn, toNat_held lead (by omega)]
  · exact ⟨_, _, .inr ⟨zeros, rfl, rfl⟩, ceiling, le_rfl, e⟩

end

theorem nextWozNibble_of_no_track {d : DriveSlot} (h : wozTrackUnder d = none) (n : Nat) :
    nextWozNibble n d = (0x00, d) := by
  rw [nextWozNibble, h]

/-- On a WOZ image readNibble is readNibbleWoz (R237). -/
theorem exec_readNibble_woz {k : DriveId} {s : State} {img : Woz} (hi : (s.drive k).image = some (.woz img))
    {i : Instr} (h : i = .readNibbleWoz k ∨ i = .readNibble k) :
    exec i s = .next ((s.setDrive k (nextWozNibble Config.maxNibbleShiftBits (s.drive k)).2).answered
      (.byte (nextWozNibble Config.maxNibbleShiftBits (s.drive k)).1)) := by
  rcases h with rfl | rfl
  · exact if_pos (by rw [holdsWoz, hi])
  · have same : nextNibble Config.maxNibbleShiftBits (s.drive k) =
        nextWozNibble Config.maxNibbleShiftBits (s.drive k) := by rw [nextNibble, hi]
    rw [← same]
    rfl

/-- Settles O31: both operations are the loop of R213, with the free ceiling. -/
theorem readNibbleWozAssemblesANibble : Obligations.ReadNibbleWozAssemblesANibble := by
  intro k s img hi
  rw [← wozTrackUnder_woz hi]
  constructor
  · intro T hT
    obtain ⟨v, count, read, low, high, e⟩ := nibbleRead_nextWozNibble hT
    refine ⟨v, count, read, low, high, fun i h => ?_⟩
    rw [exec_readNibble_woz hi h, e, DriveSlot.movedBy]
  · intro none i h
    rw [exec_readNibble_woz hi h, nextWozNibble_of_no_track none, State.setDrive_drive]

end Sys2Proof.Machine
end

section
/-! PROOFS. What a load of a WOZ file answers (R200, R321): every one of its steps fails, if it does, with a `LoadError`. -/

namespace Sys2Proof.Machine

/-! ### The answer of a load (R200, R321) -/

theorem exec_loadWoz (file : List Byte) (s : State) :
    exec (.loadWoz file) s = answerOrFail (fun img => .image (.woz img)) (loadWozImage file) s := rfl

theorem exec_loadWoz_of_ok {file : List Byte} {img : Woz} (h : loadWozImage file = .ok img) (s : State) :
    exec (.loadWoz file) s = .next (s.answered (.image (.woz img))) := by
  rw [exec_loadWoz, h, answerOrFail_ok]

theorem exec_loadWoz_of_error {file : List Byte} {code : FailureCode} (h : loadWozImage file = .error code) (s : State) :
    exec (.loadWoz file) s = .next (s.answered (.failed code)) := by
  rw [exec_loadWoz, h, answerOrFail_error]

/-- A step of the load fails, if it does, with a `LoadError`. -/
def FailsAsLoad {α : Type} (r : Except FailureCode α) : Prop :=
  ∀ code, r = .error code → failureClass code = .loadError

theorem failsAsLoad_ok {α : Type} (a : α) : FailsAsLoad (.ok a : Except FailureCode α) := nofun

theorem failsAsLoad_error {α : Type} {code : FailureCode} (h : failureClass code = .loadError) :
    FailsAsLoad (.error code : Except FailureCode α) := fun _ e => by cases e; exact h

theorem FailsAsLoad.bind {α β : Type} {r : Except FailureCode α} {f : α → Except FailureCode β} (hr : FailsAsLoad r)
    (hf : ∀ a, FailsAsLoad (f a)) : FailsAsLoad (r >>= f) := by
  cases r with
  | ok a => exact hf a
  | error code => exact failsAsLoad_error (hr code rfl)

theorem FailsAsLoad.ite {α : Type} {p : Prop} [Decidable p] {r r' : Except FailureCode α} (h : FailsAsLoad r)
    (h' : FailsAsLoad r') : FailsAsLoad (if p then r else r') := by
  split
  · exact h
  · exact h'

theorem failsAsLoad_checkHeader (file : List Byte) : FailsAsLoad (checkHeader file) :=
  .ite (failsAsLoad_error rfl) <| .ite (failsAsLoad_error rfl) <| .ite (failsAsLoad_ok _) <| .ite (failsAsLoad_ok _)
    (failsAsLoad_error rfl)

theorem failsAsLoad_walkChunksFrom (file : List Byte) (turns pos : Nat) (chunks : ChunkTable) :
    FailsAsLoad (walkChunksFrom file turns pos chunks) := by
  induction turns generalizing pos chunks with
  | zero => exact failsAsLoad_ok _
  | succ turns ih => exact .ite (.ite (failsAsLoad_error rfl) (ih _ _)) (failsAsLoad_ok _)

theorem failsAsLoad_readInfo (file : List Byte) (c : ChunkRef) : FailsAsLoad (readInfo file c) :=
  .ite (failsAsLoad_error rfl) <| .ite (failsAsLoad_error rfl) (failsAsLoad_ok _)

theorem failsAsLoad_readTmap (file : List Byte) (c : ChunkRef) : FailsAsLoad (readTmap file c) :=
  .ite (failsAsLoad_error rfl) (failsAsLoad_ok _)

theorem failsAsLoad_wozTrack1 (file : List Byte) (c : ChunkRef) (i : Byte) : FailsAsLoad (wozTrack1 file c i) :=
  .ite (failsAsLoad_error rfl) <| .ite (failsAsLoad_error rfl) (failsAsLoad_ok _)

theorem failsAsLoad_wozTrack2 (file : List Byte) (c : ChunkRef) (i : Byte) : FailsAsLoad (wozTrack2 file c i) :=
  .ite (failsAsLoad_error rfl) <| .ite (failsAsLoad_ok _) <| .ite (failsAsLoad_error rfl) <| .ite (failsAsLoad_error rfl)
    (failsAsLoad_ok _)

theorem failsAsLoad_readTracks {one : Byte → Except FailureCode WozTrack} (h : ∀ i, FailsAsLoad (one i))
    (is : List Byte) : FailsAsLoad (readTracks one is) := by
  induction is with
  | nil => exact failsAsLoad_ok _
  | cons i is ih =>
    rw [readTracks]
    split
    · next e => exact failsAsLoad_error (h i _ e)
    · split
      · next e => exact failsAsLoad_error (ih _ e)
      · exact failsAsLoad_ok _

theorem failsAsLoad_readTrks (file : List Byte) (version : WozVersion) (c : ChunkRef) (tmap : Vector Byte 160) :
    FailsAsLoad (readTrks file version c tmap) := by
  cases version with
  | woz1 => exact failsAsLoad_readTracks (failsAsLoad_wozTrack1 file c) _
  | woz2 => exact .ite (failsAsLoad_error rfl) (failsAsLoad_readTracks (failsAsLoad_wozTrack2 file c) _)

theorem failsAsLoad_loadWozImage (file : List Byte) : FailsAsLoad (loadWozImage file) := by
  refine (failsAsLoad_checkHeader file).bind fun version => (failsAsLoad_walkChunksFrom file _ _ _).bind fun chunks => ?_
  split
  · exact (failsAsLoad_readInfo file _).bind fun wp => (failsAsLoad_readTmap file _).bind fun tmap =>
      (failsAsLoad_readTrks file version _ tmap).bind fun trk => failsAsLoad_ok _
  · exact failsAsLoad_error rfl

/-- Settles O29: a load that succeeds is `loadWozImage_ok`, and every step fails as a load does. -/
theorem loadedWozTracksLieInsideTheirBytes : Obligations.LoadedWozTracksLieInsideTheirBytes := by
  intro file s
  cases h : loadWozImage file with
  | ok img => exact .inl ⟨img, exec_loadWoz_of_ok h s, loadWozImage_ok h⟩
  | error code => exact .inr ⟨code, failsAsLoad_loadWozImage file code h, exec_loadWoz_of_error h s⟩

end Sys2Proof.Machine
end

section
/-! PROOFS. A WOZ file laid out in chunks (R201 to R206): each reader looks at the payload that the walk found for it, and
of the mapped indices the first that cannot be read decides. -/

namespace Sys2Proof.Machine

open Sys2Proof.Claims

/-! ### The payloads, wherever they stand -/

/-- The chunk reference points at the payload `p` of the file. -/
def PayloadAt (file : List Byte) (c : ChunkRef) (p : List Byte) : Prop :=
  ∃ pre post, file = pre ++ (p ++ post) ∧ c = ⟨pre.length, p.length⟩

theorem Located.payloadAt {file p : List Byte} {c : Option ChunkRef} (h : Located file c (some p)) :
    ∃ r, c = some r ∧ PayloadAt file r p := by
  rcases h with ⟨-, e⟩ | ⟨pre, _, post, hf, hc, e⟩ <;> cases e
  exact ⟨_, hc, pre, post, hf, rfl⟩

theorem Located.eq_none {file : List Byte} {c : Option ChunkRef} {p : Option (List Byte)} (h : Located file c p)
    (hp : p = none) : c = none := by
  rcases h with ⟨hc, -⟩ | ⟨_, _, _, -, -, e⟩
  · exact hc
  · cases hp.symm.trans e

section
variable {file p : List Byte} {c : ChunkRef} (h : PayloadAt file c p)
include h

theorem PayloadAt.size_eq : c.size = p.length := by
  obtain ⟨_, _, -, rfl⟩ := h
  rfl

/-! ### INFO and TMAP (R203, R204) -/

theorem readInfo_short (hp : p.length < 60) : readInfo file c = .error .loadErrorChunkTooSmall :=
  if_pos (h.size_eq ▸ hp)

theorem readInfo_diskType (hp : 60 ≤ p.length) (type : p.getD 1 0 ≠ 1) :
    readInfo file c = .error .loadErrorUnsupportedDiskType := by
  obtain ⟨_, _, rfl, rfl⟩ := h
  rw [readInfo_at hp]
  exact if_pos type

theorem readInfo_payload (hp : 60 ≤ p.length) (type : p.getD 1 0 = 1) : readInfo file c = .ok (p.getD 2 0 != 0) := by
  obtain ⟨_, _, rfl, rfl⟩ := h
  rw [readInfo_at hp]
  exact if_neg fun ne => ne type

theorem readTmap_short (hp : p.length < 160) : readTmap file c = .error .loadErrorChunkTooSmall :=
  if_pos (h.size_eq ▸ hp)

theorem readTmap_payload (hp : 160 ≤ p.length) :
    ∃ m, readTmap file c = .ok m ∧ ∀ q, q < 160 → m[q]? = p[q]? := by
  obtain ⟨_, _, rfl, rfl⟩ := h
  exact readTmap_at hp

end

/-! ### One track (R205, R206) -/

/-- The version that version byte 0x31 or 0x32 stands for (R201). -/
def versionOf (v : Byte) : WozVersion := if v = 0x31 then .woz1 else .woz2

/-- The reader of one track-data index that `readTrks` uses. -/
def readTrack (v : Byte) (file : List Byte) (c : ChunkRef) : Byte → Except FailureCode WozTrack :=
  match versionOf v with
  | .woz1 => wozTrack1 file c
  | .woz2 => wozTrack2 file c

theorem readTrks_eq {v : Byte} (hv : v = 0x31 ∨ v = 0x32) {c : ChunkRef} (hc : v = 0x32 → 1280 ≤ c.size)
    (file : List Byte) (m : Vector Byte 160) :
    readTrks file (versionOf v) c m = readTracks (readTrack v file c) (namedIndices m) := by
  rcases hv with rfl | rfl
  · rfl
  · exact if_neg (Nat.not_lt.mpr (hc rfl))

section
variable {file trks : List Byte} {c : ChunkRef} (h : PayloadAt file c trks) {i : Byte}
include h

theorem readTrack_woz1 (bits : recordBits trks i ≤ 53168) (size : (i.toNat + 1) * 6656 ≤ trks.length) :
    readTrack 0x31 file c i = .ok ⟨recordBits trks i, (trks.drop (i.toNat * 6656)).take 6646⟩ := by
  obtain ⟨_, _, rfl, rfl⟩ := h
  exact (wozTrack1_at size).trans (if_neg (Nat.not_lt.mpr bits))

theorem readTrack_woz1_bad (bad : trks.length < (i.toNat + 1) * 6656 ∨ 53168 < recordBits trks i) :
    readTrack 0x31 file c i = .error .loadErrorBadTrack := by
  rcases Nat.lt_or_ge trks.length ((i.toNat + 1) * 6656) with short | size
  · exact if_pos (h.size_eq ▸ short)
  · obtain ⟨_, _, rfl, rfl⟩ := h
    exact (wozTrack1_at size).trans (if_pos (bad.resolve_left (Nat.not_lt.mpr size)))

omit h in
theorem readTrack_woz2_index (c : ChunkRef) (index : 159 < i.toNat) :
    readTrack 0x32 file c i = .error .loadErrorBadTrack := if_pos index

variable (size : 1280 ≤ trks.length) (index : i.toNat ≤ 159)
include size index

theorem readTrack_woz2_noTrack (no : NoTrack trks i) : readTrack 0x32 file c i = .ok ⟨0, []⟩ := by
  obtain ⟨_, _, rfl, rfl⟩ := h
  exact (wozTrack2_at size index).trans (if_pos no)

theorem readTrack_woz2_track (has : ¬ NoTrack trks i) : readTrack 0x32 file c i =
    if file.length < startingBlock trks i * 512 + blockCount trks i * 512 then .error .loadErrorTruncatedChunk
    else if blockCount trks i * 4096 < entryBits trks i then .error .loadErrorBadTrack
    else .ok ⟨entryBits trks i, (file.drop (startingBlock trks i * 512)).take (blockCount trks i * 512)⟩ := by
  obtain ⟨_, _, rfl, rfl⟩ := h
  exact (wozTrack2_at size index).trans (if_neg has)

end

/-- An index that can be read has the track of its record, or of its entry. -/
theorem readTrack_readable {v : Byte} (hv : v = 0x31 ∨ v = 0x32) {file trks : List Byte} {c : ChunkRef}
    (h : PayloadAt file c trks) (size : v = 0x32 → 1280 ≤ trks.length) {i : Byte} (r : Readable v file trks i) :
    ∃ T, readTrack v file c i = .ok T ∧
      (v = 0x31 → T = ⟨recordBits trks i, (trks.drop (i.toNat * 6656)).take 6646⟩) ∧
      (v = 0x32 → NoTrack trks i → T = ⟨0, []⟩) ∧
      (v = 0x32 → ¬ NoTrack trks i →
        T = ⟨entryBits trks i, (file.drop (startingBlock trks i * 512)).take (blockCount trks i * 512)⟩) := by
  obtain ⟨r1, r2⟩ := r
  rcases hv with rfl | rfl
  · obtain ⟨fits, bits⟩ := r1 rfl
    exact ⟨_, readTrack_woz1 h bits fits, fun _ => rfl, nofun, nofun⟩
  · obtain ⟨index, r⟩ := r2 rfl
    by_cases no : NoTrack trks i
    · exact ⟨_, readTrack_woz2_noTrack h (size rfl) index no, nofun, fun _ _ => rfl, fun _ has => absurd no has⟩
    · obtain ⟨inside, bits⟩ := r.resolve_left no
      refine ⟨_, ?_, nofun, fun _ n => absurd n no, fun _ _ => rfl⟩
      rw [readTrack_woz2_track h (size rfl) index no, if_neg (Nat.not_lt.mpr inside), if_neg (Nat.not_lt.mpr bits)]

/-! ### The map (R204, R331) -/

section
variable {tmap : List Byte} {m : Vector Byte 160} (hm : ∀ q, q < 160 → m[q]? = tmap[q]?)
include hm

theorem maps_iff_getElem? {q : Nat} {i : Byte} : Maps tmap q i ↔ m.toList[q]? = some i ∧ i ≠ 0xFF := by
  rw [Vector.getElem?_toList, Maps]
  constructor
  · rintro ⟨hq, e, hi⟩
    exact ⟨(hm q hq).trans e, hi⟩
  · rintro ⟨e, hi⟩
    obtain ⟨hq, -⟩ := Vector.getElem?_eq_some_iff.mp e
    exact ⟨hq, (hm q hq).symm.trans e, hi⟩

theorem mem_namedIndices_iff_maps {i : Byte} : i ∈ namedIndices m ↔ ∃ q, Maps tmap q i := by
  rw [mem_namedIndices, List.mem_iff_getElem?, ← exists_and_right]
  exact exists_congr fun q => (maps_iff_getElem? hm).symm

/-- The index at the lowest quarter-track that cannot be read decides. -/
theorem readTracks_namedIndices_error {one : Byte → Except FailureCode WozTrack} {q : Nat} {i : Byte}
    {code : FailureCode} (hi : Maps tmap q i) (fails : one i = .error code)
    (earlier : ∀ q' i', q' < q → Maps tmap q' i' → ∃ T, one i' = .ok T) :
    readTracks one (namedIndices m) = .error code := by
  obtain ⟨at_q, named⟩ := (maps_iff_getElem? hm).mp hi
  have first (q' : Nat) (hq' : q' < q) : m.toList[q']? ≠ some i := fun e => by
    obtain ⟨T, hT⟩ := earlier q' i hq' ((maps_iff_getElem? hm).mpr ⟨e, named⟩)
    cases fails.symm.trans hT
  obtain ⟨before, after, split, hb⟩ := namedIndices_split at_q named first
  rw [split]
  refine readTracks_error (fun j hj => ?_) fails
  obtain ⟨hj, q', hq', e⟩ := hb j hj
  exact earlier q' j hq' ((maps_iff_getElem? hm).mpr ⟨e, hj⟩)

end

/-! ### The file (R201, R202) -/

theorem checkHeader_bad {file : List Byte}
    (h : file.length < 12 ∨ (file.take 4 ≠ [0x57, 0x4F, 0x5A, 0x31] ∧ file.take 4 ≠ [0x57, 0x4F, 0x5A, 0x32]) ∨
      (file.drop 4).take 4 ≠ [0xFF, 0x0A, 0x0D, 0x0A]) : checkHeader file = .error .loadErrorBadSignature := by
  rw [checkHeader, slice, slice, List.drop_zero]
  split
  · rfl
  · next long =>
    split
    · rfl
    · next fixed =>
      obtain ⟨not1, not2⟩ := (h.resolve_left long).resolve_right fixed
      rw [if_neg not1, if_neg not2]

theorem wozFile_eq (v : Byte) (crc : List Byte) (chunks : List (List Byte × List Byte)) (rest : List Byte) :
    wozFile v crc chunks rest = wozHeader v crc ++ ((chunks.flatMap fun c => chunkBytes c.1 c.2) ++ rest) :=
  List.append_assoc ..

section
variable {v : Byte} {crc : List Byte} {chunks : List (List Byte × List Byte)} (framed : Framed v crc chunks)
include framed

theorem length_wozHeader : (wozHeader v crc).length = 12 := by
  simp [wozHeader, framed.crcSize]

theorem checkHeader_wozFile (rest : List Byte) : checkHeader (wozFile v crc chunks rest) = .ok (versionOf v) := by
  have long : ¬ (wozFile v crc chunks rest).length < 12 := by
    rw [wozFile_eq, List.length_append, length_wozHeader framed]
    omega
  rw [checkHeader, if_neg long]
  rcases framed.version with rfl | rfl <;> rfl

theorem loadWozImage_truncated {id payload : List Byte} {size : Nat} (hid : id.length = 4) (hs : size < 2 ^ 32)
    (hp : payload.length < size) :
    loadWozImage (wozFile v crc chunks (id ++ natToBytes 4 size ++ payload)) = .error .loadErrorTruncatedChunk := by
  rw [loadWozImage, checkHeader_wozFile framed, wozFile_eq,
    walkChunks_truncated (length_wozHeader framed) framed.fits hid hs hp]
  rfl

variable {rest : List Byte} (hr : rest.length < 8)
include hr

/-- The walk finds for each mandatory id the first payload of that id. -/
theorem walkChunks_wozFile : ∃ t, walkChunks (wozFile v crc chunks rest) = .ok t ∧
    Located (wozFile v crc chunks rest) t.info (chunks.lookup infoId) ∧
    Located (wozFile v crc chunks rest) t.tmap (chunks.lookup tmapId) ∧
    Located (wozFile v crc chunks rest) t.trks (chunks.lookup trksId) := by
  obtain ⟨_, ⟨info, tmap, trks, rfl, located⟩, walk⟩ := walkChunks_ok (length_wozHeader framed) framed.fits hr
  rw [wozFile_eq]
  exact ⟨_, walk, located⟩

theorem loadWozImage_missing
    (missing : chunks.lookup infoId = none ∨ chunks.lookup tmapId = none ∨ chunks.lookup trksId = none) :
    loadWozImage (wozFile v crc chunks rest) = .error .loadErrorMissingChunk := by
  obtain ⟨⟨info, tmap, trks⟩, walk, hinfo, htmap, htrks⟩ := walkChunks_wozFile framed hr
  rw [loadWozImage, checkHeader_wozFile framed, walk]
  rcases missing with none | none | none
  · obtain rfl := hinfo.eq_none none
    rfl
  · obtain rfl := htmap.eq_none none
    cases info <;> rfl
  · obtain rfl := htrks.eq_none none
    cases info <;> cases tmap <;> rfl

variable {info tmap trks : List Byte} (carries : Carries chunks info tmap trks)
include carries

/-- With the three chunks present the load is the three reads in order, each of its own payload. -/
theorem loadWozImage_carries : ∃ a b c, PayloadAt (wozFile v crc chunks rest) a info ∧
    PayloadAt (wozFile v crc chunks rest) b tmap ∧ PayloadAt (wozFile v crc chunks rest) c trks ∧
    loadWozImage (wozFile v crc chunks rest) = do
      let wp ← readInfo (wozFile v crc chunks rest) a
      let m ← readTmap (wozFile v crc chunks rest) b
      let trk ← readTrks (wozFile v crc chunks rest) (versionOf v) c m
      return { version := versionOf v, infoWriteProtected := wp, tmap := m, trk := trk } := by
  obtain ⟨⟨_, _, _⟩, walk, hinfo, htmap, htrks⟩ := walkChunks_wozFile framed hr
  rw [carries.info] at hinfo
  rw [carries.tmap] at htmap
  rw [carries.trks] at htrks
  obtain ⟨a, rfl, ha⟩ := hinfo.payloadAt
  obtain ⟨b, rfl, hb⟩ := htmap.payloadAt
  obtain ⟨c, rfl, hc⟩ := htrks.payloadAt
  refine ⟨a, b, c, ha, hb, hc, ?_⟩
  rw [loadWozImage, checkHeader_wozFile framed, walk]
  rfl

theorem loadWozImage_info_short (short : info.length < 60) :
    loadWozImage (wozFile v crc chunks rest) = .error .loadErrorChunkTooSmall := by
  obtain ⟨a, b, c, ha, -, -, e⟩ := loadWozImage_carries framed hr carries
  rw [e, readInfo_short ha short]
  rfl

theorem loadWozImage_diskType (size : 60 ≤ info.length) (type : info.getD 1 0 ≠ 1) :
    loadWozImage (wozFile v crc chunks rest) = .error .loadErrorUnsupportedDiskType := by
  obtain ⟨a, b, c, ha, -, -, e⟩ := loadWozImage_carries framed hr carries
  rw [e, readInfo_diskType ha size type]
  rfl

theorem loadWozImage_tmap_short (size : 60 ≤ info.length) (type : info.getD 1 0 = 1) (short : tmap.length < 160) :
    loadWozImage (wozFile v crc chunks rest) = .error .loadErrorChunkTooSmall := by
  obtain ⟨a, b, c, ha, hb, -, e⟩ := loadWozImage_carries framed hr carries
  rw [e, readInfo_payload ha size type, readTmap_short hb short]
  rfl

variable (headed : Headed info tmap)
include headed

/-- With INFO and TMAP in order the load is the read of the tracks. -/
theorem loadWozImage_headed : ∃ c m, PayloadAt (wozFile v crc chunks rest) c trks ∧
    (∀ q, q < 160 → m[q]? = tmap[q]?) ∧
    loadWozImage (wozFile v crc chunks rest) = do
      let trk ← readTrks (wozFile v crc chunks rest) (versionOf v) c m
      return { version := versionOf v, infoWriteProtected := info.getD 2 0 != 0, tmap := m, trk := trk } := by
  obtain ⟨a, b, c, ha, hb, hc, e⟩ := loadWozImage_carries framed hr carries
  obtain ⟨m, read, hm⟩ := readTmap_payload hb headed.tmapSize
  refine ⟨c, m, hc, hm, ?_⟩
  rw [e, readInfo_payload ha headed.infoSize headed.diskType, read]
  rfl

theorem loadWozImage_trks_short (hv : v = 0x32) (short : trks.length < 1280) :
    loadWozImage (wozFile v crc chunks rest) = .error .loadErrorChunkTooSmall := by
  obtain ⟨c, m, hc, -, e⟩ := loadWozImage_headed framed hr carries headed
  have fails : readTrks (wozFile v crc chunks rest) (versionOf v) c m = .error .loadErrorChunkTooSmall := by
    subst hv
    exact if_pos (hc.size_eq ▸ short)
  rw [e, fails]
  rfl

variable (size : v = 0x32 → 1280 ≤ trks.length)
include size

/-- The first mapped index that cannot be read decides (R331). -/
theorem loadWozImage_track_error {q : Nat} {i : Byte} {code : FailureCode} (hi : Maps tmap q i)
    (earlier : ∀ q' i', q' < q → Maps tmap q' i' → Readable v (wozFile v crc chunks rest) trks i')
    (fails : ∀ c, PayloadAt (wozFile v crc chunks rest) c trks →
      readTrack v (wozFile v crc chunks rest) c i = .error code) :
    loadWozImage (wozFile v crc chunks rest) = .error code := by
  obtain ⟨c, m, hc, hm, e⟩ := loadWozImage_headed framed hr carries headed
  rw [e, readTrks_eq framed.version (hc.size_eq ▸ size), readTracks_namedIndices_error hm hi (fails c hc)]
  · rfl
  · intro q' i' hq' hi'
    obtain ⟨T, hT, -⟩ := readTrack_readable framed.version hc size (earlier q' i' hq' hi')
    exact ⟨T, hT⟩

/-- With every mapped index readable the load answers the map and the track of each index. -/
theorem loadWozImage_readable
    (readable : ∀ q i, Maps tmap q i → Readable v (wozFile v crc chunks rest) trks i) :
    ∃ c m trk, PayloadAt (wozFile v crc chunks rest) c trks ∧ (∀ q, q < 160 → m[q]? = tmap[q]?) ∧
      loadWozImage (wozFile v crc chunks rest) =
        .ok { version := versionOf v, infoWriteProtected := info.getD 2 0 != 0, tmap := m, trk := trk } ∧
      ∀ q i T, Maps tmap q i → readTrack v (wozFile v crc chunks rest) c i = .ok T → trk.lookup i = some T := by
  obtain ⟨c, m, hc, hm, e⟩ := loadWozImage_headed framed hr carries headed
  obtain ⟨trk, read, tracks⟩ := readTracks_ok (one := readTrack v (wozFile v crc chunks rest) c) fun i hi => by
    obtain ⟨q, hq⟩ := (mem_namedIndices_iff_maps hm).mp hi
    obtain ⟨T, hT, -⟩ := readTrack_readable framed.version hc size (readable q i hq)
    exact ⟨T, hT⟩
  refine ⟨c, m, trk, hc, hm, ?_, fun q i T hi => tracks i ((mem_namedIndices_iff_maps hm).mpr ⟨q, hi⟩) T⟩
  rw [e, readTrks_eq framed.version (hc.size_eq ▸ size), read]
  rfl

end

/-- Settles O28: every mapped index is read, and each has the track of its record or entry. -/
theorem wozFilesLoad : Obligations.WozFilesLoad := by
  intro v crc chunks rest info tmap trks s framed hr carries headed size readable
  obtain ⟨c, m, trk, hc, hm, load, tracks⟩ := loadWozImage_readable framed hr carries headed size readable
  refine ⟨_, exec_loadWoz_of_ok load s, by rintro rfl; rfl, by rintro rfl; rfl, rfl, hm, fun q i hi => ?_⟩
  obtain ⟨T, hT, woz1, noTrack, track⟩ := readTrack_readable framed.version hc size (readable q i hi)
  rw [trackData, tracks q i T hi hT]
  exact ⟨fun hv => congrArg some (woz1 hv), fun hv no => congrArg some (noTrack hv no),
    fun hv has => congrArg some (track hv has)⟩

/-- Settles O27: one lemma for each step of the load that can fail, in the order of R331. -/
theorem wozFilesAreChecked : Obligations.WozFilesAreChecked := by
  refine ⟨fun file s bad => exec_loadWoz_of_error ?_ s, fun v crc chunks rest s framed => ?_⟩
  · rw [loadWozImage, checkHeader_bad bad]
    rfl
  refine ⟨fun id payload n hid hn hp => exec_loadWoz_of_error (loadWozImage_truncated framed hid hn hp) s,
    fun hr => ⟨fun missing => exec_loadWoz_of_error (loadWozImage_missing framed hr missing) s,
      fun info tmap trks carries => ⟨?_, ?_, ?_, ?_, ?_⟩⟩⟩
  · exact fun short => exec_loadWoz_of_error (loadWozImage_info_short framed hr carries short) s
  · exact fun size type => exec_loadWoz_of_error (loadWozImage_diskType framed hr carries size type) s
  · exact fun size type short => exec_loadWoz_of_error (loadWozImage_tmap_short framed hr carries size type short) s
  · exact fun headed hv short => exec_loadWoz_of_error (loadWozImage_trks_short framed hr carries headed hv short) s
  intro headed size q i hi earlier
  have decides {code : FailureCode} (fails : ∀ c, PayloadAt (wozFile v crc chunks rest) c trks →
      readTrack v (wozFile v crc chunks rest) c i = .error code) :
      exec (.loadWoz (wozFile v crc chunks rest)) s = .next (s.answered (.failed code)) :=
    exec_loadWoz_of_error (loadWozImage_track_error framed hr carries headed size hi earlier fails) s
  refine ⟨fun hv bad => decides fun c hc => ?_, fun hv index => decides fun c _ => ?_,
    fun hv index has => ⟨fun outside => decides fun c hc => ?_, fun inside long => decides fun c hc => ?_⟩⟩
  · subst hv
    exact readTrack_woz1_bad hc bad
  · subst hv
    exact readTrack_woz2_index c index
  · subst hv
    rw [readTrack_woz2_track hc (size rfl) index has, if_pos (Nat.not_le.mp outside)]
  · subst hv
    rw [readTrack_woz2_track hc (size rfl) index has, if_neg (Nat.not_lt.mpr inside), if_pos long]

end Sys2Proof.Machine
end

section
/-! PROOFS. One operation on a drive (`44_drive_ops.md`): what the getters read, how rotation turns the cursor, and the
nibble that a read takes or a write stores. -/

namespace Sys2Proof.Machine

open Sys2Proof.Claims

/-! ### The track of a quarter-track (R210, R214, R230) -/

section
variable {img : Woz} {q : Nat}

theorem currentTrack_unmapped (hq : img.tmap[q]? = some 0xFF) : currentTrack img q = none := by
  rw [currentTrack, hq]
  rfl

theorem currentTrack_mapped {i : Byte} (hq : img.tmap[q]? = some i) (hi : i ≠ 0xFF) {T : WozTrack}
    (hT : trackData img i = some T) : currentTrack img q = if T.bitCount = 0 then none else some T := by
  simp only [currentTrack, hq, hT, if_neg hi]

/-- A track with no bits is no track (R210). -/
theorem bitCount_pos_of_currentTrack {T : WozTrack} (h : currentTrack img q = some T) : 0 < T.bitCount := by
  unfold currentTrack at h
  split at h
  · cases h
  · obtain ⟨-, h⟩ := Option.ite_none_left_eq_some.mp h
    split at h
    · cases h
    · obtain ⟨has, ⟨⟩⟩ := Option.ite_none_left_eq_some.mp h
      exact Nat.pos_of_ne_zero has

theorem trackBitCount_of_no_track (h : currentTrack img q = none) : trackBitCount (some (.woz img)) q = 0 := by
  rw [trackBitCount, h]

theorem trackBitCount_of_track {T : WozTrack} (h : currentTrack img q = some T) :
    trackBitCount (some (.woz img)) q = T.bitCount := by
  rw [trackBitCount, h]

/-- A mapped track answers its own bit count, also when that is 0 and there is no track. -/
theorem trackBitCount_mapped {i : Byte} (hq : img.tmap[q]? = some i) (hi : i ≠ 0xFF) {T : WozTrack}
    (hT : trackData img i = some T) : trackBitCount (some (.woz img)) q = T.bitCount := by
  have track := currentTrack_mapped hq hi hT
  by_cases empty : T.bitCount = 0
  · rw [trackBitCount_of_no_track (track.trans (if_pos empty)), empty]
  · exact trackBitCount_of_track (track.trans (if_neg empty))

end

/-! ### The getters (R247, R248) -/

theorem exec_getters (k : DriveId) {q : Nat} (hq : q < 160) (s : State) :
    exec (.getters k q) s = .next (s.answered (.metadata (metadataOf (s.drive k) q))) := if_pos hq

theorem exec_getTrackBitCount (k : DriveId) {q : Nat} (hq : q < 160) (s : State) :
    exec (.getTrackBitCount k q) s = .next (s.answered (.count (trackBitCount (s.drive k).image q))) := if_pos hq

/-- A sector image has the quarter-tracks of its 35 tracks. -/
theorem hasQuarterTrack_dsk (img : Dsk) (q : Nat) : hasQuarterTrack (some (.dsk img)) q = decide (q < 140) :=
  decide_eq_decide.mpr (by rw [trackOf]; omega)

/-- Settles O32: `metadataOf` read off for each kind of image; on a WOZ image the map decides (`currentTrack_unmapped`,
`currentTrack_mapped`). -/
theorem gettersAnswerFromTheDrive : Obligations.GettersAnswerFromTheDrive := by
  refine fun k q s hq => ⟨rfl, metadataOf (s.drive k) q, exec_getters k hq s, exec_getTrackBitCount k hq s, rfl, ?_⟩
  simp only [metadataOf]
  cases (s.drive k).image with
  | none => exact ⟨rfl, rfl, rfl, rfl, rfl⟩
  | some image =>
    cases image with
    | dsk img => exact ⟨rfl, rfl, rfl, hasQuarterTrack_dsk img q, rfl⟩
    | woz img =>
      refine ⟨rfl, rfl, rfl, rfl, fun i hi => ⟨?_, fun T named hT => ?_⟩⟩
      · rintro rfl
        exact ⟨currentTrack_unmapped hi, trackBitCount_of_no_track (currentTrack_unmapped hi)⟩
      · exact ⟨currentTrack_mapped hi named hT, trackBitCount_mapped hi named hT⟩

/-! ### Rotation (R230, R233) -/

section
variable {d : DriveSlot} {img : Woz} (hi : d.image = some (.woz img))
include hi

theorem trackLen_of_no_track (h : currentTrack img d.quarterTrack = none) : trackLen d = 0 := by
  simp only [trackLen, hi, h]

theorem trackLen_of_track {T : WozTrack} (h : currentTrack img d.quarterTrack = some T) : trackLen d = T.bitCount := by
  simp only [trackLen, hi, h]

theorem advance_of_no_track (h : currentTrack img d.quarterTrack = none) (e : Nat) : advance d e = d :=
  if_pos (trackLen_of_no_track hi h)

theorem advance_of_track {T : WozTrack} (h : currentTrack img d.quarterTrack = some T) (e : Nat) :
    advance d e = { d with cursor := (d.cursor + 8 * (e * 100 / 3074)) % T.bitCount } := by
  have has : T.bitCount ≠ 0 := (bitCount_pos_of_currentTrack h).ne'
  simp only [advance, trackLen_of_track hi h, if_neg has, hi, Nat.mod_add_mod]
  rfl

end

theorem advance_of_no_image {d : DriveSlot} (hi : d.image = none) (e : Nat) : advance d e = d :=
  if_pos (by rw [trackLen, hi])

theorem advance_dsk {d : DriveSlot} {img : Dsk} (hi : d.image = some (.dsk img)) (e : Nat) :
    advance d e = { d with cursor := (d.cursor + e * 100 / 3074) % 6656 } := by
  simp only [advance, trackLen, hi]
  rfl

theorem exec_advanceBitPosition (k : DriveId) (e : Cycle) (s : State) : exec (.advanceBitPosition k e) s =
    .next ((s.setDrive k (advance (s.drive k) e.toNat)).answered .nothing) := rfl

/-- Settles O33: `advance` for each kind of track. -/
theorem rotationAdvancesTheCursor : Obligations.RotationAdvancesTheCursor := by
  intro k e s
  rw [exec_advanceBitPosition]
  congr 3
  split
  · next hi => exact advance_of_no_image hi _
  · next hi => exact advance_dsk hi _
  · next img hi =>
    split
    · next T hT => exact advance_of_track hi hT _
    · next none => exact advance_of_no_track hi none _

/-! ### One nibble of a sector image (R236, R240) -/

theorem exec_readNibble (k : DriveId) (s : State) : exec (.readNibble k) s =
    .next ((s.setDrive k (nextNibble Config.maxNibbleShiftBits (s.drive k)).2).answered
      (.byte (nextNibble Config.maxNibbleShiftBits (s.drive k)).1)) := rfl

theorem exec_writeNibble (k : DriveId) (v : Byte) (s : State) : exec (.writeNibble k v) s =
    .next ((s.setDrive k (storeNibble (s.drive k) v)).answered .nothing) := rfl

theorem nextNibble_of_no_image {d : DriveSlot} (hi : d.image = none) (ceiling : Nat) :
    nextNibble ceiling d = (0x00, d) := by
  rw [nextNibble, hi]

theorem nextNibble_dsk {d : DriveSlot} {img : Dsk} (hi : d.image = some (.dsk img)) (ceiling : Nat) :
    nextNibble ceiling d = ((trackBuffer img (trackOf d.quarterTrack)).getD (d.cursor % 6656) 0,
      { d with
        image := some (.dsk (materialize img (trackOf d.quarterTrack)))
        cursor := (d.cursor + 1) % 6656 }) := by
  simp only [nextNibble, hi, Config.trackNibbles, Nat.mod_add_mod]

/-- What materializeTrack answers and leaves is the track's buffer and the image that holds it (R174). -/
theorem eq_materialize_of_exec {k : DriveId} {t : Nat} {s : State} {img img' : Dsk} {buf : List Byte}
    (hi : (s.drive k).image = some (.dsk img)) (ht : t < 35)
    (h : exec (.materializeTrack k t) s = .next ((withImage s k img').answered (.bytes buf))) :
    img' = materialize img t ∧ buf = trackBuffer img t := by
  rw [exec_materializeTrack hi ht] at h
  have answers : Result.bytes (trackBuffer img t) = .bytes buf := congrArg State.result (Host.Outcome.next.inj h)
  cases answers
  exact ⟨(withImage_answered_inj h).symm, rfl⟩

theorem trackOf_lt {q : Nat} (hq : q < 140) : trackOf q < 35 := Nat.div_lt_of_lt_mul hq

/-- Settles O34, by the equations of `nextNibble`. -/
theorem readNibbleTakesTheNextNibble : Obligations.ReadNibbleTakesTheNextNibble := by
  refine fun k s => ⟨fun hi => ?_, fun img img' buf hi hq h => ?_⟩
  · rw [exec_readNibble, nextNibble_of_no_image hi, State.setDrive_drive]
  · obtain ⟨rfl, rfl⟩ := eq_materialize_of_exec hi (trackOf_lt hq) h
    rw [exec_readNibble, nextNibble_dsk hi]

theorem storeNibble_ignored {d : DriveSlot} (h : d.writeProtect = true ∨ ∀ img, d.image ≠ some (.dsk img))
    (v : Byte) : storeNibble d v = d := by
  rcases storeNibble_cases d v with ⟨e, -⟩ | ⟨img, hi, hw, -⟩
  · exact e
  · rcases h with hp | other
    · cases hw.symm.trans hp
    · exact absurd hi (other img)

theorem storeNibble_stored {d : DriveSlot} {img : Dsk} (hi : d.image = some (.dsk img)) (hw : d.writeProtect = false)
    (v : Byte) : storeNibble d v = { d with
      image := some (.dsk (putNibble img (trackOf d.quarterTrack) (d.cursor % 6656) v))
      cursor := (d.cursor + 1) % 6656 } := by
  simp [storeNibble, hi, hw, Config.trackNibbles]

/-- Settles O35: `storeNibble` drops the nibble, or it is `putNibble` on the track under the head. -/
theorem writeNibbleStoresOrIsIgnored : Obligations.WriteNibbleStoresOrIsIgnored := by
  refine fun k v s => ⟨fun ignored => ?_, fun img img1 buf hi hw hq h => ?_⟩
  · rw [exec_writeNibble, storeNibble_ignored ignored, State.setDrive_drive]
  · have ht := trackOf_lt hq
    obtain ⟨-, rfl⟩ := eq_materialize_of_exec hi ht h
    refine ⟨_, by rw [exec_writeNibble, storeNibble_stored hi hw], putNibble_cacheAt img ht _ v, fun t => ?_,
      rfl, rfl, rfl⟩
    exact (putNibble_dirtyAt img ht _ v t).trans (Bool.if_true_left ..)

end Sys2Proof.Machine
end

section
/-! PROOFS. The head (R245, R246, R249): the step follows the printed table and is at most three quarter-tracks, and no
operation takes more than one of them. -/

namespace Sys2Proof.Machine

open Sys2Proof.Claims

/-! ### The tables (R101, R245) -/

theorem lookup_positions (mask : BitVec 4) : positions.lookup mask = magnetToPosition mask := by
  revert mask
  decide

/-- The rotor is at `quarter_track mod 8` (R245). -/
theorem headDelta_eq_deltas (q : Nat) {p : Nat} (hp : p < 8) : headDelta q p = (deltas.getD (q % 8) []).getD p 0 := by
  have table : ∀ r < 8, ∀ p < 8, headDelta r p = (deltas.getD r []).getD p 0 := by decide
  rw [← table (q % 8) (Nat.mod_lt q (by decide)) p hp]
  simp only [headDelta, Nat.mod_mod]

theorem topQuarterTrack_eq (image : DiskImage) : tracksOf image * 4 - 1 = topQuarterTrack image := by
  cases image <;> rfl

/-! ### One step of the head (R245, R246) -/

@[simp] theorem fixCursor_quarterTrack (d : DriveSlot) : (fixCursor d).quarterTrack = d.quarterTrack := by
  rw [fixCursor_eq]

theorem fixCursor_dsk {d : DriveSlot} {img : Dsk} (hi : d.image = some (.dsk img)) : fixCursor d = d := by
  rw [fixCursor, hi]

/-- The cursor rule of R246. -/
theorem fixCursor_woz {d : DriveSlot} {img : Woz} (hi : d.image = some (.woz img)) : (fixCursor d).cursor =
    match currentTrack img d.quarterTrack with
    | some T => d.cursor % T.bitCount
    | none => d.cursor := by
  simp only [fixCursor, hi]
  cases hT : currentTrack img d.quarterTrack with
  | none => rw [trackLen_of_no_track hi hT, if_neg (Nat.lt_irrefl 0)]
  | some T => rw [trackLen_of_track hi hT, if_pos (bitCount_pos_of_currentTrack hT)]

/-- `stepHead` is the head step of the printed table. -/
theorem headStep_stepHead (d : DriveSlot) (mask : BitVec 4) : HeadStep d mask (stepHead d mask) := by
  unfold HeadStep
  rw [lookup_positions]
  rcases stepHead_cases d mask with ⟨hi | hp, e⟩ | ⟨image, p, q, hi, hp, hq, e⟩
  · rw [hi]
    exact e
  · rw [hp]
    cases d.image <;> exact e
  · rw [headDelta_eq_deltas _ (magnetToPosition_lt hp), topQuarterTrack_eq, clampHead_eq] at hq
    have head : (q : Int) = _ := hq ▸ Int.toNat_of_nonneg (le_max_left 0 _)
    have image_moved : ({ d with quarterTrack := q } : DriveSlot).image = some image := hi
    rw [hi, hp, e]
    refine ⟨(congrArg _ (fixCursor_quarterTrack _)).trans head, ?_, by rw [fixCursor_eq]; exact ⟨hi, rfl, rfl⟩⟩
    cases image with
    | dsk img => rw [fixCursor_dsk image_moved]
    | woz img => rw [fixCursor_quarterTrack]; exact fixCursor_woz image_moved

/-- Settles O36: the slot left is `stepHead`'s (`headStep_stepHead`). -/
theorem setPhaseMovesTheHeadByTheTable : Obligations.SetPhaseMovesTheHeadByTheTable :=
  fun k mask s => ⟨stepHead (s.drive k) mask, headStep_stepHead _ mask, rfl⟩

end Sys2Proof.Machine
end

section
/-! PROOFS. No operation but power-cycle and an insertion moves a head by more than one head step (R249). -/

namespace Sys2Proof.Machine

open Sys2Proof.Claims

/-! ### Where the heads are -/

/-- The head positions, drive by drive. -/
def State.heads (s : State) (k : DriveId) : Nat := (s.drive k).quarterTrack

@[simp] theorem State.heads_answered (s : State) (r : Result) : (s.answered r).heads = s.heads :=
  funext fun k => by rw [State.heads, State.answered_drive, State.heads]

theorem State.heads_setDrive {s : State} {k : DriveId} {d : DriveSlot} (h : d.quarterTrack = (s.drive k).quarterTrack) :
    (s.setDrive k d).heads = s.heads := by
  funext j
  by_cases hj : j = k
  · subst hj; rw [State.heads, State.drive_setDrive_same, h, State.heads]
  · rw [State.heads, State.drive_setDrive_other s hj, State.heads]

theorem State.heads_setSelected {s : State} {d : DriveSlot} (h : d.quarterTrack = s.selected.quarterTrack) :
    (s.setSelected d).heads = s.heads := State.heads_setDrive h

/-! ### The drive operations that leave the head alone -/

@[simp] theorem advance_quarterTrack (d : DriveSlot) (e : Nat) : (advance d e).quarterTrack = d.quarterTrack := by
  rw [advance_eq]

@[simp] theorem nextBit_quarterTrack (d : DriveSlot) : (nextBit d).2.quarterTrack = d.quarterTrack := by
  rw [nextBit_eq]

@[simp] theorem nextWozNibble_quarterTrack (n : Nat) (d : DriveSlot) :
    (nextWozNibble n d).2.quarterTrack = d.quarterTrack := by
  rw [nextWozNibble_eq]

@[simp] theorem nextNibble_quarterTrack (n : Nat) (d : DriveSlot) :
    (nextNibble n d).2.quarterTrack = d.quarterTrack := by
  unfold nextNibble
  split
  · rfl
  · rfl
  · exact nextWozNibble_quarterTrack n d

@[simp] theorem storeNibble_quarterTrack (d : DriveSlot) (v : Byte) :
    (storeNibble d v).quarterTrack = d.quarterTrack := by
  rcases storeNibble_cases d v with ⟨h, -⟩ | ⟨_, -, -, h⟩ <;> rw [h]

/-! ### The switch effects that leave the heads alone -/

theorem heads_evalMotorTimeout (s : State) : (evalMotorTimeout s).heads = s.heads :=
  funext fun k => by rw [State.heads, evalMotorTimeout_drive, State.heads]

theorem heads_motorOffEffect (s : State) : (motorOffEffect s).heads = s.heads := by
  unfold motorOffEffect
  split <;> rfl

theorem heads_motorOnEffect (s : State) : (motorOnEffect s).heads = s.heads := by
  unfold motorOnEffect
  split
  · rfl
  · funext k; cases k <;> rfl

theorem heads_selectDrive (k : DriveId) (s : State) : (selectDrive k s).heads = s.heads := by
  rcases selectDrive_cases k s with ⟨-, h⟩ | ⟨-, h⟩ <;> rw [h]
  exact State.heads_setSelected (flushSlot_quarterTrack _)

theorem heads_fetchNibble (s : State) : (fetchNibble s).heads = s.heads := by
  rcases fetchNibble_cases s with ⟨-, h⟩ | ⟨-, -, r, rfl, h⟩ <;> rw [h]
  · rfl
  · exact State.heads_setSelected (by simp)

theorem heads_q6lEffect (s : State) : (q6lEffect s).heads = s.heads := by
  simp only [q6lEffect]
  split
  · rfl
  · exact heads_fetchNibble _

theorem heads_writeLatch (v : Byte) (s : State) : (writeLatch v s).heads = s.heads := by
  refine State.heads_setSelected ?_
  rw [rebased_quarterTrack]
  split
  · exact storeNibble_quarterTrack _ v
  · rfl

theorem heads_q6hEffect (a : Access) (s : State) : (q6hEffect a s).heads = s.heads := by
  simp only [q6hEffect]
  split
  · cases a with
    | read => rfl
    | write v => exact heads_writeLatch v _
  · rfl

theorem heads_setQ7 (b : Bool) (s : State) : ({ s with q7 := b } : State).heads = s.heads := rfl

/-! ### What an operation does to a head -/

/-- The head of drive `k` stays, or makes one head step (R245). -/
def HeadMoves (k : DriveId) (s t : State) : Prop :=
  t.heads k = s.heads k ∨ ∃ mask, t.heads k = (stepHead (s.drive k) mask).quarterTrack

theorem HeadMoves.of_heads_eq {k : DriveId} {s t : State} (h : t.heads = s.heads) : HeadMoves k s t :=
  .inl (congrFun h k)

/-- A head step of one drive leaves the other's head alone. -/
theorem headMoves_setDrive_stepHead (k j : DriveId) (mask : BitVec 4) (s : State) :
    HeadMoves k s (s.setDrive j (stepHead (s.drive j) mask)) := by
  by_cases hj : k = j
  · subst hj; exact .inr ⟨mask, by rw [State.heads, State.drive_setDrive_same]⟩
  · exact .inl (by rw [State.heads, State.drive_setDrive_other s hj, State.heads])

theorem headMoves_phaseAccess (k : DriveId) (n : Nat) (b : Bool) (s : State) : HeadMoves k s (phaseAccess n b s) := by
  rcases phaseAccess_cases n b s with ⟨-, h⟩ | ⟨-, h⟩ <;> rw [h]
  · exact headMoves_setDrive_stepHead k s.selectedDrive _ { s with phaseMask := setMagnet s.phaseMask n b }
  · exact .of_heads_eq rfl

theorem nextIs_ite {P : State → Prop} {c : Prop} [Decidable c] {o o' : Outcome} (h : NextIs P o) (h' : NextIs P o') :
    NextIs P (if c then o else o') := by
  split
  · exact h
  · exact h'

/-- An access moves a head as its switch effect does (R261). -/
theorem headMoves_busAccess {k : DriveId} {off : BitVec 4} {a : Access} {effect : State → State}
    (h : ∀ s, HeadMoves k s (effect s)) (s : State) : NextIs (HeadMoves k s) (busAccess off a effect s) := by
  rintro _ ⟨⟩
  have moves := h (evalMotorTimeout { s with emitted := [] })
  rw [HeadMoves, heads_evalMotorTimeout, evalMotorTimeout_drive] at moves
  exact moves

section
variable (k : DriveId)

theorem headMoves_access_of_heads_eq {off : BitVec 4} {a : Access} {effect : State → State}
    (h : ∀ s, (effect s).heads = s.heads) (s : State) : NextIs (HeadMoves k s) (busAccess off a effect s) :=
  headMoves_busAccess (fun s => .of_heads_eq (h s)) s

theorem headMoves_answer (r : Result) (s : State) : NextIs (HeadMoves k s) (answer r s) :=
  nextIs_answer (.of_heads_eq (s.heads_answered r))

theorem headMoves_answerOrFail {α : Type} (ok : α → Result) (r : Except FailureCode α) (s : State) :
    NextIs (HeadMoves k s) (answerOrFail ok r s) := by
  rw [answerOrFail_eq]; exact headMoves_answer k _ s

theorem headMoves_answer_setDrive (r : Result) (s : State) (j : DriveId) {d : DriveSlot}
    (h : d.quarterTrack = (s.drive j).quarterTrack) : NextIs (HeadMoves k s) (answer r (s.setDrive j d)) :=
  nextIs_answer (.of_heads_eq ((State.heads_answered _ r).trans (State.heads_setDrive h)))

end

/-- Every operation but power-cycle and an insertion into the drive moves its head by one head step at most. -/
theorem exec_headMoves {i : Instr} {k : DriveId} (cycle : i ≠ .powerCycle)
    (insert : ∀ file format wp, i ≠ .insertDisk k file format wp) (s : State) :
    NextIs (HeadMoves k s) (exec i s) := by
  cases i with
  | phase0Off | phase0On | phase1Off | phase1On | phase2Off | phase2On | phase3Off | phase3On =>
    exact headMoves_busAccess (headMoves_phaseAccess k _ _) s
  | motorOff => exact headMoves_access_of_heads_eq k heads_motorOffEffect s
  | motorOn => exact headMoves_access_of_heads_eq k heads_motorOnEffect s
  | drive1Sel | drive2Sel => exact headMoves_access_of_heads_eq k (heads_selectDrive _) s
  | q6l => exact headMoves_access_of_heads_eq k heads_q6lEffect s
  | q6h a => exact headMoves_access_of_heads_eq k (heads_q6hEffect a) s
  | q7l | q7h => exact headMoves_access_of_heads_eq k (heads_setQ7 _) s
  | encode4and4 | buildAddressField | decode4and4 | getQuarterTrack | softReset | observe | romRead =>
    exact headMoves_answer k _ s
  | encode6and2 | buildSector | getTrackBitCount | getters => exact nextIs_guard (headMoves_answer k _ s)
  | decode6and2 | decodeAddressField | findDataField | decodeSectorAt =>
    exact nextIs_guard (headMoves_answerOrFail k _ _ s)
  | loadDsk | loadWoz => exact headMoves_answerOrFail k _ _ s
  | nibblizeTrack =>
    refine nextIs_guard ?_
    split <;> exact headMoves_answer k _ s
  | materializeTrack j | denibblizeTrack j =>
    refine nextIs_guard ?_
    split
    · exact headMoves_answer_setDrive k _ s j (withSectorImage_quarterTrack _ _)
    · exact headMoves_answer k _ s
  | flush j => exact headMoves_answer_setDrive k _ s j (flushSlot_quarterTrack _)
  | readBit j => exact nextIs_ite (headMoves_answer_setDrive k _ s j (nextBit_quarterTrack _)) (headMoves_answer k _ s)
  | readNibbleWoz j =>
    exact nextIs_ite (headMoves_answer_setDrive k _ s j (nextWozNibble_quarterTrack _ _)) (headMoves_answer k _ s)
  | advanceBitPosition j => exact headMoves_answer_setDrive k _ s j (advance_quarterTrack _ _)
  | readNibble j => exact headMoves_answer_setDrive k _ s j (nextNibble_quarterTrack _ _)
  | writeNibble j => exact headMoves_answer_setDrive k _ s j (storeNibble_quarterTrack _ _)
  | setPhase j mask => exact nextIs_answer (headMoves_setDrive_stepHead k j mask s)
  | powerCycle => exact absurd rfl cycle
  | setCycleCount c =>
    have count : ({ s with cycleNow := c } : State).heads = s.heads := rfl
    exact nextIs_ite (headMoves_answer k _ s) (nextIs_answer (.of_heads_eq ((State.heads_answered _ _).trans count)))
  | insertDisk j file format wp =>
    have hj : k ≠ j := by rintro rfl; exact insert file format wp rfl
    change NextIs _ (execInsertDisk j file format wp s)
    unfold execInsertDisk
    split
    · exact headMoves_answer k _ s
    · exact nextIs_answer (.inl (congrArg DriveSlot.quarterTrack (State.drive_setDrive_other s hj _)))
  | ejectDisk j =>
    change NextIs _ (execEjectDisk j s)
    unfold execEjectDisk
    split
    · exact headMoves_answer k _ s
    · exact headMoves_answer_setDrive k _ s j rfl
  | save j =>
    change NextIs _ (execSave j s)
    unfold execSave
    split
    · exact headMoves_answer k _ s
    · exact headMoves_answer_setDrive k _ s j (flushSlot_quarterTrack _)

/-! ### How far one head step goes -/

/-- A head step moves a head in range by at most three quarter-tracks and keeps it in range (R245). -/
theorem stepHead_quarterTrack_bounds {d : DriveSlot} (mask : BitVec 4)
    (inRange : ∀ image, d.image = some image → d.quarterTrack ≤ topQuarterTrack image) :
    (stepHead d mask).quarterTrack ≤ d.quarterTrack + 3 ∧ d.quarterTrack ≤ (stepHead d mask).quarterTrack + 3 ∧
      ∀ image, d.image = some image → (stepHead d mask).quarterTrack ≤ topQuarterTrack image := by
  rcases stepHead_cases d mask with ⟨-, e⟩ | ⟨image, p, q, hi, -, hq, e⟩
  · rw [e]
    exact ⟨Nat.le_add_right _ 3, Nat.le_add_right _ 3, inRange⟩
  · have delta := headDelta_bounds d.quarterTrack p
    have low := inRange image hi
    rw [topQuarterTrack_eq, clampHead_eq] at hq
    have moved : (stepHead d mask).quarterTrack = q := by rw [e, fixCursor_quarterTrack]
    rw [moved]
    refine ⟨by omega, by omega, fun image' hi' => ?_⟩
    cases hi.symm.trans hi'
    omega

/-- Settles O60: each head stays or makes one head step (`exec_headMoves`). -/
theorem headMovesAtMostThreeQuarterTracks : Obligations.HeadMovesAtMostThreeQuarterTracks := by
  intro i s t k e cycle insert inRange
  rcases exec_headMoves cycle insert s t e with stays | ⟨mask, steps⟩
  · simp only [State.heads] at stays
    rw [stays]
    exact ⟨Nat.le_add_right _ 3, Nat.le_add_right _ 3, inRange⟩
  · simp only [State.heads] at steps
    rw [steps]
    exact stepHead_quarterTrack_bounds mask inRange

end Sys2Proof.Machine
end

section
/-! PROOFS. One bus access (R260 to R262): an access ends as its switch effect does on the state after the timeout, and
each switch effect changes the factors of the state that R280 lists for its offset and no others. -/

namespace Sys2Proof.Machine

open Sys2Proof.Claims

/-! ### The words of the switches (R90, R91) -/

/-- The word of an offset selects the switch at that offset, for reads and for writes. -/
theorem selects_switchAt (off : BitVec 4) : Selects (off.setWidth 8) (switchAt off) := by
  have decodes (a : Access) : decode (busRequest (off.setWidth 8) a) = .ok (switchAt off a) := by
    rw [← encode_switchAt, decode_encode (wellFormed_switchAt off a)]
  exact ⟨decodes .read, fun v => decodes (.write v)⟩

/-! ### The access procedure (R261, R262) -/

theorem evalMotorTimeout_eq_expired (s : State) : evalMotorTimeout s = expired s := by
  simp only [evalMotorTimeout, expired, show due s = stopDue s from rfl]
  cases stopDue s <;> simp

theorem expired_of_not_due {s : State} (h : due s = false) : expired s = s := by
  simp [expired, h]

theorem expired_of_due {s : State} (h : due s = true) :
    (expired s).motorOn = false ∧ (expired s).motorOffPending = false := by
  simp [expired, h]

/-- The state with other emissions. -/
def State.withEmitted (s : State) (events : List LogEvent) : State := { s with emitted := events }

theorem State.withEmitted_setDrive (s : State) (events : List LogEvent) (k : DriveId) (d : DriveSlot) :
    (s.withEmitted events).setDrive k d = (s.setDrive k d).withEmitted events := by
  cases k <;> rfl

theorem State.withEmitted_setSelected (s : State) (events : List LogEvent) (d : DriveSlot) :
    (s.withEmitted events).setSelected d = (s.setSelected d).withEmitted events :=
  s.withEmitted_setDrive events s.selectedDrive d

theorem State.withEmitted_setSelected_withEmitted (s : State) (events later : List LogEvent) (d : DriveSlot) :
    ((s.withEmitted events).setSelected d).withEmitted later = (s.setSelected d).withEmitted later := by
  rw [State.withEmitted_setSelected]
  rfl

theorem State.latched_setDrive (s : State) (v : Byte) (k : DriveId) (d : DriveSlot) :
    ({ s with dataLatch := v } : State).setDrive k d = { s.setDrive k d with dataLatch := v } := by
  cases k <;> rfl

theorem State.latched_setSelected (s : State) (v : Byte) (d : DriveSlot) :
    ({ s with dataLatch := v } : State).setSelected d = { s.setSelected d with dataLatch := v } :=
  s.latched_setDrive v s.selectedDrive d

theorem State.setSelected_selected (s : State) : s.setSelected s.selected = s := s.setDrive_drive s.selectedDrive

/-- The state that the effect of a switch acts on: the timeout is evaluated and nothing is emitted yet. -/
def State.begun (s : State) : State := (expired s).withEmitted []

theorem begun_of_not_due {s : State} (h : due s = false) : s.begun = s.withEmitted [] := by
  rw [State.begun, expired_of_not_due h]

/-- Outside the answer and the emissions, an access leaves what its effect leaves. -/
theorem accessed_begun (off : BitVec 4) (a : Access) (effect : State → State) (s : State) :
    accessed off a effect s = { effect s.begun with
      result := accessResult off a (effect s.begun)
      emitted := (effect s.begun).emitted ++ [accessEvent off a (effect s.begun)] } := by
  rw [accessed_eq, evalMotorTimeout_eq_expired]
  rfl

/-- An access whose effect leads to `t` with `fetched` emitted ends in `t`. -/
theorem ends_busAccess {off : BitVec 4} {a : Access} {effect : State → State} {s t : State} {v : Byte}
    {fetched : List LogEvent} (reaches : effect s.begun = t.withEmitted fetched) (value : readValue off t = v) :
    Ends (busAccess off a effect s) a v fetched t := by
  rw [busAccess_eq, accessed_begun, reaches]
  subst value
  exact ⟨accessEvent off a (t.withEmitted fetched), by cases a <;> rfl⟩

/-! ### The switch effects as equations -/

/-- A phase access writes the mask, and with the motor on it steps the selected drive's head. -/
theorem phaseAccess_eq (n : Nat) (b : Bool) (s : State) : phaseAccess n b s =
    ({ s with phaseMask := setMagnet s.phaseMask n b } : State).setSelected
      (if s.motorOn then stepHead s.selected (setMagnet s.phaseMask n b) else s.selected) := by
  rcases phaseAccess_cases n b s with ⟨on, h⟩ | ⟨off, h⟩
  · rw [h, if_pos on]
  · rw [h, off]
    exact (State.setSelected_selected _).symm

section
variable {s : State}

theorem motorOffEffect_starts (h : s.motorOn = true ∧ s.motorOffPending = false) :
    motorOffEffect s = { s with motorOffPending := true, motorOffCycle := s.cycleNow } := if_pos (by simp [h])

theorem motorOffEffect_waits (h : ¬(s.motorOn = true ∧ s.motorOffPending = false)) : motorOffEffect s = s :=
  if_neg (by simpa using h)

theorem motorOnEffect_running (h : s.motorOn = true) : motorOnEffect s = { s with motorOffPending := false } := if_pos h

theorem motorOnEffect_rest (h : s.motorOn = false) : motorOnEffect s = { s with
    motorOn := true
    motorOffPending := false
    driveSlot1 := rebased s.cycleNow s.driveSlot1
    driveSlot2 := rebased s.cycleNow s.driveSlot2 } := if_neg (by simp [h])

/-- With a disk in the drive and the motor on a fetch turns the disk and latches the next nibble. -/
theorem fetchNibble_ready {v : Byte} {d : DriveSlot} (disk : s.selected.image ≠ none) (on : s.motorOn = true)
    (next : nextNibble Config.maxNibbleShiftBits (rebased s.cycleNow
      (advance s.selected (s.cycleNow - s.selected.lastAccessCycle).toNat)) = (v, d)) :
    fetchNibble s = (({ s with dataLatch := v ||| 0x80 } : State).setSelected d).withEmitted
      (s.emitted ++ [.nibbleRead (v ||| 0x80) (s.selected.quarterTrack / 4) d.cursor]) := by
  have head : d.quarterTrack = s.selected.quarterTrack := by
    rw [show d = _ from congrArg Prod.snd next.symm, nextNibble_quarterTrack, rebased_quarterTrack,
      advance_quarterTrack]
  rcases fetchNibble_cases s with ⟨none | off, -⟩ | ⟨-, -, r, hr, e⟩
  · exact absurd none disk
  · cases off.symm.trans on
  · cases hr.trans next
    rw [e, head, s.latched_setSelected (v ||| 0x80)]
    rfl

theorem fetchNibble_idle (h : s.selected.image = none ∨ s.motorOn = false) :
    fetchNibble s = { s with dataLatch := 0x00 } := by
  rcases fetchNibble_cases s with ⟨-, e⟩ | ⟨disk, on, -⟩
  · exact e
  · rcases h with none | off
    · exact absurd none disk
    · cases off.symm.trans on

theorem q6lEffect_read (h : s.q7 = false) : q6lEffect s = fetchNibble { s with q6 := false } := if_neg (by simp [h])

theorem q6lEffect_write (h : s.q7 = true) : q6lEffect s = { s with q6 := false } := if_pos h

theorem q6hEffect_sense (h : s.q7 = false) (a : Access) :
    q6hEffect a s = { s with q6 := true, dataLatch := senseValue s.selected } := if_neg (by simp [h])

theorem q6hEffect_read (h : s.q7 = true) : q6hEffect .read s = { s with q6 := true } := if_pos h

theorem q6hEffect_write (h : s.q7 = true) (v : Byte) :
    q6hEffect (.write v) s = writeLatch v { s with q6 := true } := if_pos h

end

/-- A write in write mode latches the value and, with the motor on, stores it. -/
theorem writeLatch_eq (v : Byte) (s : State) : writeLatch v s = ({ s with dataLatch := v } : State).setSelected
    (rebased s.cycleNow (if s.motorOn then storeNibble s.selected v else s.selected)) :=
  (s.latched_setSelected v _).symm

/-! ### Which factors an effect changes (R280) -/

/-- The slot of a drive before and after the effect of the switch at `off`; where `other`, the drive is not the selected
one. -/
structure SlotTransition (off : Fin 16) (motorOn : Bool) (other : Prop) (d d' : DriveSlot) : Prop where
  writeProtect    : d'.writeProtect = d.writeProtect
  quarterTrack    : 8 ≤ off.val ∨ motorOn = false ∨ d.image = none ∨ other → d'.quarterTrack = d.quarterTrack
  cursor          : off ≠ 12 → off ≠ 13 → (8 ≤ off.val ∨ ∀ img, d.image ≠ some (.woz img)) → d'.cursor = d.cursor
  lastAccessCycle : off ≠ 9 → off ≠ 12 → off ≠ 13 → d'.lastAccessCycle = d.lastAccessCycle
  image           : off.val < 10 ∨ 14 ≤ off.val → d'.image = d.image

theorem SlotTransition.refl (off : Fin 16) (motorOn : Bool) (other : Prop) (d : DriveSlot) :
    SlotTransition off motorOn other d d :=
  ⟨rfl, fun _ => rfl, fun _ _ _ => rfl, fun _ _ _ => rfl, fun _ => rfl⟩

/-- The state after the effect of the switch at `off` on an access of kind `a`. -/
structure Transition (off : Fin 16) (a : Access) (s t : State) : Prop where
  phaseMask       : 8 ≤ off.val → t.phaseMask = s.phaseMask
  motorOn         : off ≠ 9 → t.motorOn = s.motorOn
  motorOffPending : off ≠ 8 ∨ s.motorOn = false → off ≠ 9 → t.motorOffPending = s.motorOffPending
  motorOffCycle   : off ≠ 8 → t.motorOffCycle = s.motorOffCycle
  selectedDrive   : off ≠ 10 → off ≠ 11 → t.selectedDrive = s.selectedDrive
  q6              : off ≠ 12 → off ≠ 13 → t.q6 = s.q6
  q7              : off ≠ 14 → off ≠ 15 → t.q7 = s.q7
  dataLatch       : ¬(off = 12 ∧ s.q7 = false) → ¬(off = 13 ∧ (s.q7 = false ∨ a ≠ .read)) → t.dataLatch = s.dataLatch
  cycleNow        : t.cycleNow = s.cycleNow
  pending         : t.pending = s.pending
  calls           : t.calls = s.calls
  drives          : ∀ k, SlotTransition off s.motorOn (k ≠ s.selectedDrive) (s.drive k) (t.drive k)

section
variable {off : Fin 16} {a : Access} {s : State}

theorem slotTransition_setSelected {d : DriveSlot} (h : SlotTransition off s.motorOn False s.selected d) (k : DriveId) :
    SlotTransition off s.motorOn (k ≠ s.selectedDrive) (s.drive k) ((s.setSelected d).drive k) := by
  by_cases selected : k = s.selectedDrive
  · subst selected
    rw [State.setSelected, State.drive_setDrive_same, ne_self_iff_false]
    exact h
  · rw [State.setSelected, State.drive_setDrive_other s selected]
    exact .refl ..

theorem Transition.setSelected (a : Access) {d : DriveSlot} (h : SlotTransition off s.motorOn False s.selected d) :
    Transition off a s (s.setSelected d) where
  phaseMask _ := s.setSelected_phaseMask d
  motorOn _ := s.setSelected_motorOn d
  motorOffPending _ _ := s.setSelected_motorOffPending d
  motorOffCycle _ := s.setSelected_motorOffCycle d
  selectedDrive _ _ := s.setSelected_selectedDrive d
  q6 _ _ := s.setSelected_q6 d
  q7 _ _ := s.setSelected_q7 d
  dataLatch _ _ := s.setSelected_dataLatch d
  cycleNow := s.setSelected_cycleNow d
  pending := s.setSelected_pending d
  calls := s.setSelected_calls d
  drives := slotTransition_setSelected h

theorem Transition.refl (off : Fin 16) (a : Access) (s : State) : Transition off a s s := by
  have kept := Transition.setSelected a (SlotTransition.refl off s.motorOn False s.selected)
  rwa [s.setSelected_selected] at kept

/-! ### What each effect changes (R263 to R278) -/

theorem slotTransition_stepHead (h : off.val < 8) (d : DriveSlot) (mask : BitVec 4) :
    SlotTransition off true False d (stepHead d mask) := by
  rcases stepHead_cases d mask with ⟨-, e⟩ | ⟨image, p, q, hi, -, -, e⟩ <;> rw [e]
  · exact .refl ..
  · have image_moved : ({ d with quarterTrack := q } : DriveSlot).image = some image := hi
    rw [fixCursor_eq]
    refine ⟨rfl, ?_, fun _ _ kind => ?_, fun _ _ _ => rfl, fun _ => rfl⟩
    · rintro (late | off | none | other)
      · omega
      · cases off
      · cases none.symm.trans hi
      · exact other.elim
    · cases image with
      | dsk img => rw [fixCursor_dsk image_moved]
      | woz img => exact absurd hi (kind.resolve_left (by omega) img)

theorem transition_phaseAccess (h : off.val < 8) (n : Nat) (b : Bool) : Transition off a s (phaseAccess n b s) := by
  have mask (other : 8 ≤ off.val) : (phaseAccess n b s).phaseMask = s.phaseMask := absurd h (Nat.not_lt.mpr other)
  rcases phaseAccess_cases n b s with ⟨on, e⟩ | ⟨-, e⟩ <;> rw [e] at mask ⊢
  · exact { Transition.setSelected a (s := { s with phaseMask := setMagnet s.phaseMask n b })
      (by rw [on]; exact slotTransition_stepHead h s.selected _) with phaseMask := mask }
  · exact { Transition.refl off a s with phaseMask := mask }

theorem transition_motorOffEffect : Transition 8 a s (motorOffEffect s) := by
  by_cases start : s.motorOn = true ∧ s.motorOffPending = false
  · rw [motorOffEffect_starts start]
    exact { Transition.refl 8 a s with
      motorOffPending := fun other => absurd start.1 (by simpa using other)
      motorOffCycle := fun other => absurd rfl other }
  · rw [motorOffEffect_waits start]
    exact .refl 8 a s

theorem slotTransition_rebased (motorOn : Bool) (other : Prop) (now : Cycle) (d : DriveSlot) :
    SlotTransition 9 motorOn other d (rebased now d) :=
  { SlotTransition.refl 9 motorOn other d with lastAccessCycle := fun other => absurd rfl other }

theorem transition_motorOnEffect : Transition 9 a s (motorOnEffect s) := by
  cases on : s.motorOn
  · rw [motorOnEffect_rest on]
    exact { Transition.refl 9 a s with
      motorOn := fun other => absurd rfl other
      motorOffPending := fun _ other => absurd rfl other
      drives := fun k => by cases k <;> exact slotTransition_rebased .. }
  · rw [motorOnEffect_running on]
    exact { Transition.refl 9 a s with motorOffPending := fun _ other => absurd rfl other }

theorem slotTransition_flushSlot (h : off = 10 ∨ off = 11) (motorOn : Bool) (other : Prop) (d : DriveSlot) :
    SlotTransition off motorOn other d (flushSlot d) :=
  { SlotTransition.refl off motorOn other d with image := by omega }

theorem transition_selectDrive (h : off = 10 ∨ off = 11) (k : DriveId) : Transition off a s (selectDrive k s) := by
  rcases selectDrive_cases k s with ⟨-, e⟩ | ⟨-, e⟩ <;> rw [e]
  · exact .refl off a s
  · exact { Transition.setSelected a (slotTransition_flushSlot h ..) with selectedDrive := by omega }

theorem SlotOps.keeps_writeProtect {now : Cycle} {d d' : DriveSlot} (ops : SlotOps now d d') :
    d'.writeProtect = d.writeProtect := by
  induction ops with
  | refl => rfl
  | tail _ op ih => exact Eq.trans (by cases op <;> rfl) ih

/-- Q6L and Q6H may turn the disk under the selected head, read it and write it. -/
theorem slotTransition_of_slotOps (h : off = 12 ∨ off = 13) (motorOn : Bool) (other : Prop) {now : Cycle}
    {d d' : DriveSlot} (ops : SlotOps now d d') (head : d'.quarterTrack = d.quarterTrack) :
    SlotTransition off motorOn other d d' := by
  refine ⟨ops.keeps_writeProtect, fun _ => head, ?_, ?_, ?_⟩ <;> omega

theorem transition_q6lEffect : Transition 12 a s (q6lEffect s) := by
  cases mode : s.q7
  · rw [q6lEffect_read mode]
    rcases fetchNibble_cases { s with q6 := false } with ⟨-, e⟩ | ⟨-, -, r, hr, e⟩ <;> rw [e]
    · exact { Transition.refl 12 a s with
        q6 := fun other => absurd rfl other
        dataLatch := fun other => absurd ⟨rfl, mode⟩ other }
    · have ops : SlotOps s.cycleNow s.selected r.2 :=
        hr ▸ .trans (.tail (slotOps_advance _ _) .rebase) (slotOps_nextNibble _ _)
      have head : r.2.quarterTrack = s.selected.quarterTrack := by
        rw [hr, nextNibble_quarterTrack, rebased_quarterTrack, advance_quarterTrack]
        rfl
      exact { Transition.setSelected a (s := { s with q6 := false })
          (slotTransition_of_slotOps (.inl rfl) _ _ ops head) with
        q6 := fun other => absurd rfl other
        dataLatch := fun other => absurd ⟨rfl, mode⟩ other }
  · rw [q6lEffect_write mode]
    exact { Transition.refl 12 a s with q6 := fun other => absurd rfl other }

theorem transition_q6hEffect : Transition 13 a s (q6hEffect a s) := by
  cases mode : s.q7
  · rw [q6hEffect_sense mode]
    exact { Transition.refl 13 a s with
      q6 := fun _ other => absurd rfl other
      dataLatch := fun _ other => absurd ⟨rfl, .inl mode⟩ other }
  · cases a with
    | read =>
      rw [q6hEffect_read mode]
      exact { Transition.refl 13 .read s with q6 := fun _ other => absurd rfl other }
    | write v =>
      rw [q6hEffect_write mode]
      have stored (b : Bool) : SlotOps s.cycleNow s.selected (if b then storeNibble s.selected v else s.selected) ∧
          (if b then storeNibble s.selected v else s.selected).quarterTrack = s.selected.quarterTrack := by
        cases b
        · exact ⟨.refl, rfl⟩
        · exact ⟨slotOps_storeNibble _ v, storeNibble_quarterTrack _ v⟩
      obtain ⟨ops, head⟩ := stored s.motorOn
      exact { Transition.setSelected (.write v) (s := { s with q6 := true })
          (slotTransition_of_slotOps (.inr rfl) _ _ (.tail ops .rebase) head) with
        q6 := fun _ other => absurd rfl other
        dataLatch := fun _ other => absurd ⟨rfl, .inr nofun⟩ other }

theorem transition_setQ7 (h : off = 14 ∨ off = 15) (b : Bool) : Transition off a s { s with q7 := b } :=
  { Transition.refl off a s with q7 := by omega }

end

/-- Every switch keeps to its rows of R280. -/
theorem transition_switchEffect (off : Fin 16) (a : Access) (s : State) :
    Transition off a s (switchEffect off a s) := by
  fin_cases off
  iterate 8 exact transition_phaseAccess (by decide) _ _
  · exact transition_motorOffEffect
  · exact transition_motorOnEffect
  iterate 2 exact transition_selectDrive (by decide) _
  · exact transition_q6lEffect
  · exact transition_q6hEffect
  iterate 2 exact transition_setQ7 (by decide) _

end Sys2Proof.Machine
end

section
/-! PROOFS. The sixteen soft switches (`45_controller.md`): where the access to each of them ends, and what is common to
all of them. -/

namespace Sys2Proof.Machine

open Sys2Proof.Claims

/-! ### The steppers (R263 to R270) -/

theorem getLsbD_setMagnet (mask : BitVec 4) {n i : Nat} (hn : n < 4) (hi : i < 4) (b : Bool) :
    (setMagnet mask n b).getLsbD i = if i = n then b else mask.getLsbD i := by
  have all : ∀ (mask : BitVec 4) (n i : Fin 4) (b : Bool),
      (setMagnet mask n b).getLsbD i = if i.val = n.val then b else mask.getLsbD i := by decide
  exact all mask ⟨n, hn⟩ ⟨i, hi⟩ b

/-- The offset of a stepper switch (R91). -/
def phaseOffset (n : Fin 4) (b : Bool) : BitVec 4 := BitVec.ofNat 4 (2 * n.val + b.toNat)

theorem switchAt_phaseOffset (n : Fin 4) (b : Bool) : switchAt (phaseOffset n b) = phaseSwitch n b := by
  fin_cases n <;> cases b <;> rfl

theorem exec_phaseSwitch (n : Fin 4) (b : Bool) (a : Access) (s : State) :
    exec (phaseSwitch n b a) s = busAccess (phaseOffset n b) a (phaseAccess n b) s := by
  fin_cases n <;> cases b <;> rfl

theorem readValue_phaseOffset (n : Fin 4) (b : Bool) (s : State) :
    readValue (phaseOffset n b) s = if b then 0x00 else s.dataLatch := by
  fin_cases n <;> cases b <;> rfl

theorem selects_phaseSwitch (n : Fin 4) (b : Bool) :
    Selects (BitVec.ofNat 8 (2 * n.val + b.toNat)) (phaseSwitch n b) := by
  have word : (phaseOffset n b).setWidth 8 = BitVec.ofNat 8 (2 * n.val + b.toNat) := by revert n b; decide
  have selects := selects_switchAt (phaseOffset n b)
  rwa [word, switchAt_phaseOffset] at selects

/-- Settles O37: the effect is `phaseAccess_eq`, and the head step `headStep_stepHead`. -/
theorem phaseSwitchesSetTheMaskAndStepTheHead : Obligations.PhaseSwitchesSetTheMaskAndStepTheHead := by
  intro n b a s
  let m := setMagnet s.phaseMask n b
  refine ⟨selects_phaseSwitch n b, m, if (expired s).motorOn then stepHead s.selected m else s.selected,
    fun i hi => getLsbD_setMagnet _ n.isLt hi b, ?_, ?_⟩
  · cases (expired s).motorOn
    · exact rfl
    · exact headStep_stepHead s.selected m
  · rw [exec_phaseSwitch]
    refine ends_busAccess ((phaseAccess_eq n b s.begun).trans
      (State.withEmitted_setSelected { expired s with phaseMask := m } [] _)) ?_
    rw [readValue_phaseOffset, State.setSelected_dataLatch]
    rfl

/-! ### The motor (R271, R272) -/

/-- Settles O38: by the two equations of each motor effect, the motor on or not. -/
theorem motorSwitches : Obligations.MotorSwitches := by
  refine ⟨selects_switchAt 0x8, selects_switchAt 0x9, fun a s => ⟨ends_busAccess ?_ ?_, ends_busAccess ?_ ?_⟩⟩
  · split
    · next start => exact motorOffEffect_starts (s := s.begun) start
    · next waits => exact motorOffEffect_waits (s := s.begun) waits
  · rw [readValue_even (by decide)]
    split <;> rfl
  · cases on : (expired s).motorOn
    · exact motorOnEffect_rest on
    · exact motorOnEffect_running on
  · exact readValue_odd (by decide) (by decide) _

/-! ### The drives (R273, R274) -/

theorem expired_setDrive (s : State) (k : DriveId) (d : DriveSlot) : (expired s).setDrive k d = { expired s with
    driveSlot1 := (s.setDrive k d).driveSlot1, driveSlot2 := (s.setDrive k d).driveSlot2 } := by
  cases k <;> rfl

/-- A change of drive takes over the slots that a flush of the selected drive leaves. -/
theorem selectDrive_begun (k : DriveId) (s : State) :
    selectDrive k s.begun = (if s.selectedDrive = k then expired s
      else { expired s with
        driveSlot1 := (s.setDrive s.selectedDrive (flushSlot s.selected)).driveSlot1
        driveSlot2 := (s.setDrive s.selectedDrive (flushSlot s.selected)).driveSlot2
        selectedDrive := k } : State).withEmitted [] := by
  rcases selectDrive_cases k s.begun with ⟨same, e⟩ | ⟨change, e⟩
  · rw [e, if_pos (show s.selectedDrive = k from same)]
    rfl
  · rw [e, if_neg (show s.selectedDrive ≠ k from change), State.begun, State.withEmitted_setSelected,
      State.setSelected, expired_setDrive]
    rfl

/-- Settles O40: `selectDrive_begun` for either drive. -/
theorem driveSelectFlushesOnAChange : Obligations.DriveSelectFlushesOnAChange := by
  refine ⟨selects_switchAt 0xA, selects_switchAt 0xB, fun a s t flushed => ?_⟩
  cases flushed
  refine ⟨ends_busAccess (selectDrive_begun .drive1 s) ?_,
    ends_busAccess (selectDrive_begun .drive2 s) (readValue_odd (by decide) (by decide) _)⟩
  rw [readValue_even (by decide)]
  split <;> rfl

/-! ### The shift switch Q6L (R275) -/

/-- Settles O41: the effect is the cleared `q6`, or a fetch that is not ready (`fetchNibble_idle`). -/
theorem q6LWithoutAFetch : Obligations.Q6LWithoutAFetch := by
  refine ⟨selects_switchAt 0xC, fun a s => ⟨fun write => ?_, fun read idle => ?_⟩⟩
  · exact ends_busAccess (q6lEffect_write (s := s.begun) write) rfl
  · exact ends_busAccess ((q6lEffect_read (s := s.begun) read).trans
      (fetchNibble_idle (s := { s.begun with q6 := false }) idle)) rfl

/-- A fetch latches the nibble that the turned disk gives, and logs it with where the head and the cursor then are. -/
theorem ends_q6l_fetch (a : Access) {s : State} {v : Byte} {d : DriveSlot} (read : s.q7 = false)
    (on : (expired s).motorOn = true) (disk : s.selected.image ≠ none)
    (next : nextNibble Config.maxNibbleShiftBits (rebased s.cycleNow
      (advance s.selected (s.cycleNow - s.selected.lastAccessCycle).toNat)) = (v, d)) :
    Ends (exec (.q6l a) s) a (v ||| 0x80) [.nibbleRead (v ||| 0x80) (s.selected.quarterTrack / 4) d.cursor]
      (({ expired s with q6 := false, dataLatch := v ||| 0x80 } : State).setSelected d) := by
  have fetch := fetchNibble_ready (s := { s.begun with q6 := false }) disk on next
  refine ends_busAccess ((q6lEffect_read (s := s.begun) read).trans (fetch.trans ?_)) ?_
  · exact State.withEmitted_setSelected_withEmitted { expired s with q6 := false, dataLatch := v ||| 0x80 } [] _ d
  · exact State.setSelected_dataLatch ..

/-- Settles O42: `ends_q6l_fetch` with the sector nibble at the turned cursor. -/
theorem q6LFetchesFromASectorImage : Obligations.Q6LFetchesFromASectorImage := by
  intro a s img img' buf read on hi hq h
  obtain ⟨rfl, rfl⟩ := eq_materialize_of_exec hi (trackOf_lt hq) h
  refine ends_q6l_fetch a read on (by rw [hi]; nofun) ?_
  rw [advance_dsk hi, nextNibble_dsk (d := rebased s.cycleNow { s.selected with cursor := _ }) hi]
  simp only [rebased, Nat.mod_mod]

theorem streamValue_mod_add (T : WozTrack) (c z n : Nat) :
    streamValue T (c % T.bitCount + z) n = streamValue T (c + z) n := by
  induction n with
  | zero => rfl
  | succ n ih => rw [streamValue, streamValue, ih, Nat.add_assoc, streamBit_mod_add, Nat.add_assoc]

/-- A nibble read from a circular stream does not depend on how often the stream has gone round. -/
theorem nibbleRead_mod {T : WozTrack} {c : Nat} {v : Byte} {count : Nat} :
    NibbleRead T (c % T.bitCount) v count ↔ NibbleRead T c v count := by
  simp only [NibbleRead, streamBit_mod_add, streamValue_mod_add]

theorem nextNibble_woz {d : DriveSlot} {img : Woz} (hi : d.image = some (.woz img)) (ceiling : Nat) :
    nextNibble ceiling d = nextWozNibble ceiling d := by
  rw [nextNibble, hi]

/-- Settles O43: `ends_q6l_fetch` with the nibble of R213, read from the turned cursor. -/
theorem q6LFetchesFromAWozImage : Obligations.Q6LFetchesFromAWozImage := by
  intro a s img read on hi
  have disk : s.selected.image ≠ none := by rw [hi]; nofun
  constructor
  · intro T hT
    have turned := advance_of_track hi hT (s.cycleNow - s.selected.lastAccessCycle).toNat
    obtain ⟨v, count, nibble, -, -, e⟩ := nibbleRead_nextWozNibble
      (d := rebased s.cycleNow (advance s.selected (s.cycleNow - s.selected.lastAccessCycle).toNat)) (T := T)
      (by rw [turned]; exact (wozTrackUnder_woz hi).trans hT)
    rw [turned] at nibble e
    rw [DriveSlot.movedBy, rebased_cursor, Nat.mod_add_mod, ← nextNibble_woz (by exact hi)] at e
    refine ⟨v, count, _, nibbleRead_mod.mp nibble, rfl, ends_q6l_fetch a read on disk ?_⟩
    rw [turned, e]
    rfl
  · intro none
    refine ends_q6l_fetch (v := 0x00) (d := rebased s.cycleNow s.selected) a read on disk ?_
    rw [advance_of_no_track hi none, nextNibble_woz (d := rebased s.cycleNow _) hi, nextWozNibble_of_no_track]
    exact (wozTrackUnder_woz hi).trans none

/-! ### The load switch Q6H (R276) -/

theorem readValue_load (s : State) : readValue 0xD s = if s.q7 = false then s.dataLatch else 0x00 := by
  simp [readValue]

/-- Settles O44: one equation of `q6hEffect` for each mode and kind of access. -/
theorem q6HSensesOrWrites : Obligations.Q6HSensesOrWrites := by
  refine ⟨selects_switchAt 0xD, fun s t v written => ⟨fun read a => ?_, fun write => ?_, fun write => ?_⟩⟩
  · refine ends_busAccess (q6hEffect_sense (s := s.begun) read a) ?_
    exact (readValue_load _).trans (if_pos read)
  · refine ends_busAccess (q6hEffect_read (s := s.begun) write) ?_
    exact (readValue_load _).trans (if_neg (by simp [expired, write]))
  · have stored : t.selected = storeNibble s.selected v := by
      cases written
      exact State.selected_setSelected s _
    refine ends_busAccess ((q6hEffect_write (s := s.begun) write v).trans ((writeLatch_eq v _).trans ?_)) ?_
    · rw [stored]
      exact State.withEmitted_setSelected { expired s with q6 := true, dataLatch := v } [] _
    · rw [readValue_load, State.setSelected_q7]
      exact if_neg (by simp [expired, write])

/-! ### The mode (R277, R278) -/

/-- Settles O45: both effects are evaluated. -/
theorem q7SelectsTheMode : Obligations.Q7SelectsTheMode :=
  ⟨selects_switchAt 0xE, selects_switchAt 0xF, fun _ _ => ⟨ends_busAccess rfl rfl, ends_busAccess rfl rfl⟩⟩

/-! ### All sixteen switches (R262, R279, R280) -/

theorem readValue_ofFin (off : Fin 16) (s : State) : readValue (BitVec.ofFin off) s =
    if off.val % 2 = 0 ∨ (off = 13 ∧ s.q7 = false) then s.dataLatch else 0x00 := by
  have load : BitVec.ofFin (w := 4) off = 0xD ↔ off = 13 := by rw [← BitVec.toFin_inj]; rfl
  simp only [readValue, BitVec.toNat_ofFin, load, ite_or]

/-- Settles O47: the value read is `readValue` of the state left. -/
theorem readConvention : Obligations.ReadConvention := fun off s =>
  ⟨_, exec_switch off .read s, congrArg Result.byte (readValue_ofFin off _)⟩

/-- Settles O48: field by field from `transition_switchEffect`, acting on the state after the timeout. -/
theorem transitionSummary : Obligations.TransitionSummary := by
  intro off a s
  have m := transition_switchEffect off a s.begun
  refine ⟨_, exec_switch off a s, ?_⟩
  rw [accessed_begun]
  refine ⟨m.phaseMask, fun h9 running => (m.motorOn h9).trans ?_,
    fun h8 h9 running => (m.motorOffPending (.inl h8) h9).trans ?_, m.motorOffCycle, m.selectedDrive, m.q6, m.q7,
    m.dataLatch, m.cycleNow, m.pending, m.calls, fun k => ?_⟩
  · rw [begun_of_not_due running, State.withEmitted]
  · rw [begun_of_not_due running, State.withEmitted]
  · obtain ⟨protect, head, cursor, time, image⟩ := m.drives k
    exact ⟨protect, head, cursor, time, image⟩

/-- Settles O39: but for MOTOR_ON no switch starts or stops the motor (`transition_switchEffect`). -/
theorem dueStopTakesEffectAtTheNextAccess : Obligations.DueStopTakesEffectAtTheNextAccess := by
  intro off a s
  have m := transition_switchEffect off a s.begun
  refine ⟨_, exec_switch off a s, ?_⟩
  rw [accessed_begun]
  refine ⟨fun stop h9 => ?_, ?_, fun running h9 => (m.motorOn h9).trans ?_⟩
  · obtain ⟨stopped, unpending⟩ := expired_of_due stop
    exact ⟨(m.motorOn h9).trans stopped, (m.motorOffPending (.inr stopped) h9).trans unpending⟩
  · rintro stop rfl
    obtain ⟨rest, -⟩ := expired_of_due stop
    rw [show switchEffect 9 a s.begun = _ from motorOnEffect_rest (s := s.begun) rest]
    exact ⟨rfl, rfl, fun k => by cases k <;> rfl⟩
  · rw [begun_of_not_due running, State.withEmitted]

end Sys2Proof.Machine
end

section
/-! PROOFS. Every operation on arguments of its types completes (R12, R260, R332) and leaves the requests and the
calls that wait as they are. -/

namespace Sys2Proof.Machine

open Sys2Proof.Claims

/-- The operation that answers `o` in `s` completes, and leaves the requests and the calls that wait. -/
def Completes (s : State) (o : Outcome) : Prop := ∃ t, o = .next t ∧ t.pending = s.pending ∧ t.calls = s.calls

theorem completes_answer (r : Result) (s : State) : Completes s (answer r s) := ⟨_, rfl, rfl, rfl⟩

theorem completes_answerOrFail {α : Type} (ok : α → Result) (r : Except FailureCode α) (s : State) :
    Completes s (answerOrFail ok r s) := by
  rw [answerOrFail_eq]
  exact completes_answer _ s

theorem completes_answer_setDrive (r : Result) (s : State) (k : DriveId) (d : DriveSlot) :
    Completes s (answer r (s.setDrive k d)) := ⟨_, rfl, s.setDrive_pending k d, s.setDrive_calls k d⟩

theorem completes_guard {s : State} {c : Prop} [Decidable c] {o : Outcome} (h : c) (ho : Completes s o) :
    Completes s (if c then o else stuck) := by
  rwa [if_pos h]

theorem completes_ite {s : State} {c : Prop} [Decidable c] {o o' : Outcome} (ho : Completes s o)
    (ho' : Completes s o') : Completes s (if c then o else o') := by
  split
  · exact ho
  · exact ho'

theorem completes_switch (off : Fin 16) (a : Access) (s : State) : Completes s (exec (switch off a) s) :=
  have m := transition_switchEffect off a s.begun
  ⟨_, exec_switch off a s, by rw [accessed_begun]; exact ⟨m.pending, m.calls⟩⟩

theorem length_pos_of_bufferFits {buf : List Byte} (h : bufferFits buf = true) : 0 < buf.length := by
  simp only [bufferFits, Bool.and_eq_true, decide_eq_true_eq] at h
  exact h.1

/-- Settles O5: by the operation; the argument checks are those of `Instr.wellFormed`. -/
theorem everyWellFormedOperationCompletes : Obligations.EveryWellFormedOperationCompletes := by
  intro i s h
  change Completes s (exec i s)
  cases i with
  | phase0Off a => exact completes_switch 0 a s
  | phase0On a => exact completes_switch 1 a s
  | phase1Off a => exact completes_switch 2 a s
  | phase1On a => exact completes_switch 3 a s
  | phase2Off a => exact completes_switch 4 a s
  | phase2On a => exact completes_switch 5 a s
  | phase3Off a => exact completes_switch 6 a s
  | phase3On a => exact completes_switch 7 a s
  | motorOff a => exact completes_switch 8 a s
  | motorOn a => exact completes_switch 9 a s
  | drive1Sel a => exact completes_switch 10 a s
  | drive2Sel a => exact completes_switch 11 a s
  | q6l a => exact completes_switch 12 a s
  | q6h a => exact completes_switch 13 a s
  | q7l a => exact completes_switch 14 a s
  | q7h a => exact completes_switch 15 a s
  | encode4and4 | buildAddressField | decode4and4 | getQuarterTrack | softReset | observe | romRead =>
    exact completes_answer _ s
  | encode6and2 | buildSector | getTrackBitCount | getters =>
    exact completes_guard (of_decide_eq_true h) (completes_answer _ s)
  | decode6and2 => exact completes_guard (of_decide_eq_true h) (completes_answerOrFail _ _ s)
  | decodeAddressField | findDataField | decodeSectorAt =>
    exact completes_guard (length_pos_of_bufferFits (Bool.and_eq_true_iff.mp h).1) (completes_answerOrFail _ _ s)
  | loadDsk | loadWoz => exact completes_answerOrFail _ _ s
  | nibblizeTrack =>
    refine completes_guard (of_decide_eq_true h) ?_
    split <;> exact completes_answer _ s
  | materializeTrack k | denibblizeTrack k =>
    refine completes_guard (of_decide_eq_true h) ?_
    split
    · exact completes_answer_setDrive _ s k _
    · exact completes_answer _ s
  | flush k | advanceBitPosition k | readNibble k | writeNibble k | setPhase k =>
    exact completes_answer_setDrive _ s k _
  | readBit k | readNibbleWoz k => exact completes_ite (completes_answer_setDrive _ s k _) (completes_answer _ s)
  | powerCycle => exact ⟨_, rfl, rfl, rfl⟩
  | setCycleCount c => exact completes_ite (completes_answer _ s) ⟨_, rfl, rfl, rfl⟩
  | insertDisk k file format wp =>
    change Completes s (execInsertDisk k file format wp s)
    unfold execInsertDisk
    split
    · exact completes_answer _ s
    · exact completes_answer_setDrive _ s k _
  | ejectDisk k =>
    change Completes s (execEjectDisk k s)
    unfold execEjectDisk
    split
    · exact completes_answer _ s
    · exact completes_answer_setDrive _ s k _
  | save k =>
    change Completes s (execSave k s)
    unfold execSave
    split
    · exact completes_answer _ s
    · exact completes_answer_setDrive _ s k _

end Sys2Proof.Machine
end

section
/-! PROOFS. The host operations (R301 to R309): the cycle count, insertion, eject, save, observe and the ROM read. -/

namespace Sys2Proof.Machine

open Sys2Proof.Claims

/-! ### The cycle count (R301) -/

theorem exec_setCycleCount_taken {c : Cycle} {s : State} (h : s.cycleNow ≤ c) :
    exec (.setCycleCount c) s = .next (({ s with cycleNow := c } : State).answered .countTaken) :=
  if_neg (BitVec.not_lt.mpr h)

theorem exec_setCycleCount_refused {c : Cycle} {s : State} (h : c < s.cycleNow) :
    exec (.setCycleCount c) s = .next (s.answered .countRefused) := if_pos h

/-- Settles O51: the order of counts is that of the numbers they hold. -/
theorem cycleCountIsPushed : Obligations.CycleCountIsPushed := fun _ _ =>
  ⟨fun h => exec_setCycleCount_taken (BitVec.le_def.mpr h), fun h => exec_setCycleCount_refused (BitVec.lt_def.mpr h)⟩

/-! ### Insertion (R303) -/

theorem answerOrFail_map {α β : Type} (ok : β → Result) (f : α → β) (r : Except FailureCode α) (s : State) :
    answerOrFail ok (r.map f) s = answerOrFail (fun a => ok (f a)) r s := by
  cases r <;> rfl

theorem FailsAsLoad.map {α β : Type} {r : Except FailureCode α} (f : α → β) (h : FailsAsLoad r) :
    FailsAsLoad (r.map f) := by
  cases r with
  | ok a => exact failsAsLoad_ok (f a)
  | error code => exact failsAsLoad_error (h code rfl)

theorem failsAsLoad_loadSectorImage (file : List Byte) (order : SectorOrder) :
    FailsAsLoad (loadSectorImage file order) := .ite (failsAsLoad_ok _) (failsAsLoad_error rfl)

theorem failsAsLoad_loadImage (file : List Byte) (format : DiskFormat) : FailsAsLoad (loadImage file format) := by
  cases format with
  | dskDos => exact (failsAsLoad_loadSectorImage file .dos).map DiskImage.dsk
  | dskProdos => exact (failsAsLoad_loadSectorImage file .prodos).map DiskImage.dsk
  | woz => exact (failsAsLoad_loadWozImage file).map DiskImage.woz

/-- The loader of a format as an operation of its own. -/
def loaderOf (file : List Byte) : DiskFormat → Instr
  | .dskDos => .loadDsk file .dos
  | .dskProdos => .loadDsk file .prodos
  | .woz => .loadWoz file

theorem exec_loaderOf (file : List Byte) (format : DiskFormat) (s : State) :
    exec (loaderOf file format) s = answerOrFail .image (loadImage file format) s := by
  cases format with
  | dskDos | dskProdos | woz => exact (answerOrFail_map ..).symm

section
variable {file : List Byte} {format : DiskFormat}

theorem exec_insertDisk_of_ok {image : DiskImage} (h : loadImage file format = .ok image) (k : DriveId) (wp : Bool)
    (s : State) : exec (.insertDisk k file format wp) s =
      .next ((s.setDrive k (insertInto (s.drive k) image wp s.cycleNow)).answered .inserted) := by
  change execInsertDisk k file format wp s = _
  simp only [execInsertDisk, h, answer_eq]

theorem exec_insertDisk_of_error {code : FailureCode} (h : loadImage file format = .error code) (k : DriveId)
    (wp : Bool) (s : State) :
    exec (.insertDisk k file format wp) s = .next (s.answered (.failed code)) := by
  change execInsertDisk k file format wp s = _
  simp only [execInsertDisk, h, answer_eq]

end

/-- Settles O52: insertion answers as `loadImage` does, and so does the loader of the format (`exec_loaderOf`). -/
theorem insertDiskLoadsOrChangesNothing : Obligations.InsertDiskLoadsOrChangesNothing := by
  intro k file format wp s loader
  have loads : exec loader s = answerOrFail .image (loadImage file format) s := exec_loaderOf file format s
  cases h : loadImage file format with
  | ok image =>
    refine .inl ⟨image, by rw [loads, h, answerOrFail_ok], ?_⟩
    rw [exec_insertDisk_of_ok h, insertInto, topQuarterTrack_eq]
    cases image <;> rfl
  | error code =>
    exact .inr ⟨code, failsAsLoad_loadImage file format code h, by rw [loads, h, answerOrFail_error],
      exec_insertDisk_of_error h k wp s⟩

/-! ### Eject and save (R304, R306) -/

theorem flushSlot_woz {d : DriveSlot} {img : Woz} (hi : d.image = some (.woz img)) : flushSlot d = d := by
  rw [flushSlot, hi, Option.map_some, flushImage_woz, ← hi]

theorem exec_flush (k : DriveId) (s : State) :
    exec (.flush k) s = .next ((s.setDrive k (flushSlot (s.drive k))).answered .nothing) := rfl

/-- A slot that holds a sector image after a flush held one before. -/
theorem flushSlot_image_eq_dsk {d : DriveSlot} {img : Dsk} (h : (flushSlot d).image = some (.dsk img)) :
    ∃ old, d.image = some (.dsk old) ∧ flushDsk old = img := by
  obtain ⟨image, hi, flushed⟩ := Option.map_eq_some_iff.mp h
  cases image with
  | dsk old => exact ⟨old, hi, DiskImage.dsk.inj flushed⟩
  | woz => cases flushed

section
variable {k : DriveId} {s : State}

theorem exec_ejectDisk_of_image {image : DiskImage} (hi : (s.drive k).image = some image) :
    exec (.ejectDisk k) s = .next ((s.setDrive k
      { s.drive k with image := none, writeProtect := false }).answered (flushedSectors image)) := by
  change execEjectDisk k s = _
  simp only [execEjectDisk, hi, answer_eq]

theorem exec_save_of_image {image : DiskImage} (hi : (s.drive k).image = some image) :
    exec (.save k) s = .next ((s.setDrive k (flushSlot (s.drive k))).answered (flushedSectors image)) := by
  change execSave k s = _
  simp only [execSave, hi, answer_eq]

theorem exec_ejectDisk_of_empty (hi : (s.drive k).image = none) :
    exec (.ejectDisk k) s = .next (s.answered .absent) := by
  change execEjectDisk k s = _
  simp only [execEjectDisk, hi, answer_eq]

theorem exec_save_of_empty (hi : (s.drive k).image = none) : exec (.save k) s = .next (s.answered .absent) := by
  change execSave k s = _
  simp only [execSave, hi, answer_eq]

end

/-- Settles O53: both answer `flushedSectors` of the image, and a save leaves the state a flush leaves. -/
theorem ejectAndSaveReturnTheFlushedSectors : Obligations.EjectAndSaveReturnTheFlushedSectors := by
  intro k s t flushed
  cases (exec_flush k s).symm.trans flushed
  refine ⟨fun img hi => ?_, fun img hi => ⟨exec_ejectDisk_of_image hi, ?_⟩,
    fun hi => ⟨exec_ejectDisk_of_empty hi, exec_save_of_empty hi⟩⟩
  · rw [State.answered_drive, State.drive_setDrive_same] at hi
    obtain ⟨old, hold, rfl⟩ := flushSlot_image_eq_dsk hi
    exact ⟨exec_ejectDisk_of_image hold, exec_save_of_image hold⟩
  · rw [exec_save_of_image hi, flushSlot_woz hi, State.setDrive_drive, flushedSectors]

/-! ### Observation and the ROM (R308, R309) -/

theorem exec_observe (s : State) : exec .observe s = .next (s.answered (.observation (observation s))) := rfl

theorem romIndex_eq (a : BitVec 16) : romIndex a = BitVec.ofNat 8 (a.toNat % 256) := by
  apply BitVec.eq_of_toNat_eq
  rw [romIndex, BitVec.toNat_setWidth, BitVec.toNat_ofNat, Nat.mod_mod]

theorem exec_romRead (a : BitVec 16) (s : State) :
    exec (.romRead a) s = .next (s.answered (.byte (Config.bootRom (romIndex a)))) := rfl

/-- Settles O54: the motor observed is the motor the timeout leaves (`evalMotorTimeout_motorOn`), and Q7L keeps it. -/
theorem observationAndRomReadWriteNoState : Obligations.ObservationAndRomReadWriteNoState := by
  intro s
  refine ⟨⟨observation s, _, exec_observe s, rfl, ?_, rfl, rfl, rfl, rfl, rfl⟩, fun a => ?_⟩
  · exact (evalMotorTimeout_motorOn { s with emitted := [] }).symm
  · rw [exec_romRead, romIndex_eq]

end Sys2Proof.Machine
end

section
/-! PROOFS. An access works on the selected drive only (R339), and emits one event, after that of a fetch (R342). -/

namespace Sys2Proof.Machine

open Sys2Proof.Claims

/-! ### What an effect does to the unselected drive and to the emissions -/

/-- From `s` to `t` the switch at `off` leaves the unselected drive alone, but for the new timestamp of MOTOR_ON, and
emits nothing, but for the one nibble that Q6L may fetch. -/
structure Confined (off : Fin 16) (s t : State) : Prop where
  others : ∀ k, k ≠ s.selectedDrive →
    t.drive k = s.drive k ∨ off = 9 ∧ t.drive k = rebased s.cycleNow (s.drive k)
  emits  : t.emitted = s.emitted ∨ off = 12 ∧ ∃ e, t.emitted = s.emitted ++ [e]

section
variable {off : Fin 16} {s t : State}

theorem Confined.setSelected (off : Fin 16) (s : State) (d : DriveSlot) : Confined off s (s.setSelected d) where
  others _ other := .inl (s.drive_setDrive_other other d)
  emits := .inl (s.setSelected_emitted d)

theorem Confined.refl (off : Fin 16) (s : State) : Confined off s s := ⟨fun _ _ => .inl rfl, .inl rfl⟩

/-- But for its timestamp the unselected drive is as it was, at every offset. -/
theorem Confined.others_but_timestamp (h : Confined off s t) {k : DriveId} (other : k ≠ s.selectedDrive) :
    { t.drive k with lastAccessCycle := (s.drive k).lastAccessCycle } = s.drive k := by
  rcases h.others k other with e | ⟨-, e⟩ <;> rw [e]
  rfl

theorem Confined.emits_nothing (h : Confined off s t) (h12 : off ≠ 12) : t.emitted = s.emitted :=
  h.emits.resolve_right fun fetch => h12 fetch.1

theorem Confined.emits_at_most_one (h : Confined off s t) : t.emitted.length ≤ s.emitted.length + 1 := by
  rcases h.emits with e | ⟨-, _, e⟩ <;> rw [e]
  · exact Nat.le_succ _
  · exact List.length_append.le

/-! ### Every effect is confined (R263 to R278) -/

theorem confined_phaseAccess (n : Nat) (b : Bool) : Confined off s (phaseAccess n b s) := by
  rw [phaseAccess_eq]
  exact { Confined.setSelected off { s with phaseMask := setMagnet s.phaseMask n b } _ with }

theorem confined_motorOffEffect : Confined off s (motorOffEffect s) := by
  by_cases start : s.motorOn = true ∧ s.motorOffPending = false
  · rw [motorOffEffect_starts start]
    exact ⟨fun _ _ => .inl rfl, .inl rfl⟩
  · rw [motorOffEffect_waits start]
    exact .refl off s

theorem confined_motorOnEffect : Confined 9 s (motorOnEffect s) := by
  cases on : s.motorOn
  · rw [motorOnEffect_rest on]
    exact ⟨fun k _ => .inr ⟨rfl, by cases k <;> rfl⟩, .inl rfl⟩
  · rw [motorOnEffect_running on]
    exact ⟨fun _ _ => .inl rfl, .inl rfl⟩

/-- A change of drive flushes the drive that was selected before it (R273, R274). -/
theorem confined_selectDrive (k : DriveId) : Confined off s (selectDrive k s) := by
  rcases selectDrive_cases k s with ⟨-, e⟩ | ⟨-, e⟩ <;> rw [e]
  · exact .refl off s
  · exact { Confined.setSelected off s (flushSlot s.selected) with }

theorem confined_fetchNibble : Confined 12 s (fetchNibble s) := by
  rcases fetchNibble_cases s with ⟨-, e⟩ | ⟨-, -, r, -, e⟩ <;> rw [e]
  · exact ⟨fun _ _ => .inl rfl, .inl rfl⟩
  · exact { Confined.setSelected 12 s r.2 with emits := .inr ⟨rfl, _, rfl⟩ }

theorem confined_q6lEffect : Confined 12 s (q6lEffect s) := by
  cases mode : s.q7
  · rw [q6lEffect_read mode]
    exact { confined_fetchNibble (s := { s with q6 := false }) with }
  · rw [q6lEffect_write mode]
    exact ⟨fun _ _ => .inl rfl, .inl rfl⟩

theorem confined_q6hEffect (a : Access) : Confined off s (q6hEffect a s) := by
  cases mode : s.q7
  · rw [q6hEffect_sense mode]
    exact ⟨fun _ _ => .inl rfl, .inl rfl⟩
  · cases a with
    | read =>
      rw [q6hEffect_read mode]
      exact ⟨fun _ _ => .inl rfl, .inl rfl⟩
    | write v =>
      rw [q6hEffect_write mode, writeLatch_eq]
      exact { Confined.setSelected off { s with q6 := true, dataLatch := v } _ with }

end

theorem confined_switchEffect (off : Fin 16) (a : Access) (s : State) : Confined off s (switchEffect off a s) := by
  fin_cases off
  iterate 8 exact confined_phaseAccess _ _
  · exact confined_motorOffEffect
  · exact confined_motorOnEffect
  iterate 2 exact confined_selectDrive _
  · exact confined_q6lEffect
  · exact confined_q6hEffect a
  iterate 2 exact ⟨fun _ _ => .inl rfl, .inl rfl⟩

/-! ### The event of an access (R342) -/

/-- The byte an access logs: what a read returns, what a write writes. -/
def loggedValue (off : BitVec 4) (s : State) : Access → Byte
  | .read => readValue off s
  | .write v => v

theorem accessEvent_eq (off : BitVec 4) (a : Access) (s : State) : accessEvent off a s =
    .access (0xC080 + Config.slot * 16 + off.toNat) (decide (a ≠ .read)) (loggedValue off s a) := by
  cases a <;> rfl

/-! ### The statements -/

/-- Settles O50: `confined_switchEffect`, on the state after the timeout, which stops the motor and touches no drive. -/
theorem unselectedDriveIsUntouched : Obligations.UnselectedDriveIsUntouched := by
  intro off a s k other
  have confined := confined_switchEffect off a s.begun
  refine ⟨_, exec_switch off a s, ?_⟩
  rw [accessed_begun]
  exact ⟨fun h9 => (confined.others k other).resolve_right fun motor => h9 motor.1,
    confined.others_but_timestamp other⟩

/-- Settles O46: what the effect emits (`confined_switchEffect`), then the event of the access (`accessEvent_eq`). -/
theorem everyAccessIsLogged : Obligations.EveryAccessIsLogged := by
  intro off a s
  have confined := confined_switchEffect off a s.begun
  refine ⟨_, (switchEffect off a s.begun).emitted, loggedValue (BitVec.ofFin off) (switchEffect off a s.begun) a,
    exec_switch off a s, ?_⟩
  rw [accessed_begun, accessEvent_eq]
  refine ⟨rfl, ?_, ?_, confined.emits_nothing, confined.emits_at_most_one⟩
  · rintro rfl
    rfl
  · rintro w rfl
    exact ⟨rfl, rfl⟩

end Sys2Proof.Machine
end

section
/-! PROOFS. The cycle count (R356), the two resets (R350, R351), and arguments outside their types (U26). -/

namespace Sys2Proof.Machine

/-! ### The cycle count -/

/-- Settles O59: by `exec_cases`. Ordinary work, an insertion and an eject leave the count as it is; a pushed count is
taken only when it is not below the present one (R301). -/
theorem cycleCountNeverDecreases : Obligations.CycleCountNeverDecreases := by
  intro i s t e cycle
  cases exec_cases i s t e with
  | worked w => rw [w.cycleNow]
  | powerCycle => exact absurd rfl cycle
  | countTaken le => exact BitVec.le_def.mp le
  | inserted => rw [State.answered_cycleNow, State.setDrive_cycleNow]
  | ejected => rw [State.answered_cycleNow, State.setDrive_cycleNow]

/-! ### The two resets -/

theorem exec_softReset (s : State) : exec .softReset s = .next (s.answered .nothing) := rfl

theorem exec_powerCycle (s : State) : exec .powerCycle s =
    .next (({ State.reset with pending := s.pending, calls := s.calls } : State).answered .nothing) := rfl

/-- Both slots of the reset state are powered up, whatever requests and calls are left waiting. -/
theorem drive_reset (pending : List Request) (calls : List (List Byte)) (k : DriveId) :
    ({ State.reset with pending := pending, calls := calls } : State).drive k = DriveSlot.powerUp := by
  cases k <;> rfl

/-- Settles O55: but for the waiting requests and calls, power-cycle leaves `State.reset` (`exec_powerCycle`). -/
theorem powerCycleResetsAndSoftResetDoesNot : Obligations.PowerCycleResetsAndSoftResetDoesNot := by
  intro s
  refine ⟨exec_softReset s, _, exec_powerCycle s, rfl, rfl, rfl, rfl, rfl, rfl, rfl, rfl, rfl, fun k => ?_⟩
  rw [State.answered_drive, drive_reset]
  exact ⟨rfl, rfl, rfl, rfl, rfl⟩

/-! ### Arguments outside their types -/

/-- An argument check that fails is the fault `argumentOutsideType`. -/
theorem outsideType_of_not {c : Prop} [Decidable c] {o : Outcome} (h : ¬ c) :
    (if c then o else stuck) = .fault .argumentOutsideType := if_neg h

/-- Settles O6: each operation begins with the check of its argument, which fails (`outsideType_of_not`). -/
theorem argumentsOutsideTheirTypesAreStuck : Obligations.ArgumentsOutsideTheirTypesAreStuck := by
  intro s k v t x xs n
  refine ⟨fun data => ?_, fun nibbles => outsideType_of_not nibbles, fun empty => ?_, fun track => ?_, fun quarter => ?_⟩
  · exact ⟨outsideType_of_not data, outsideType_of_not data⟩
  · have noElement : ¬ 0 < xs.length := by simp [empty]
    exact ⟨outsideType_of_not noElement, outsideType_of_not noElement, outsideType_of_not noElement⟩
  · have beyond : ¬ n < 35 := Nat.not_lt.mpr track
    exact ⟨outsideType_of_not beyond, outsideType_of_not beyond, outsideType_of_not beyond⟩
  · have beyond : ¬ n < 160 := Nat.not_lt.mpr quarter
    exact ⟨outsideType_of_not beyond, outsideType_of_not beyond⟩

end Sys2Proof.Machine
end
